-- ==== Sys2Proof/Word.lean ====
section
/-! DEFINITION. The two word types of the JSVM core and the names of its twelve registers. -/

namespace Sys2Proof

/-- A byte: the addressable unit (00_scope.md R8, R10). -/
abbrev Byte := BitVec 8

/-- A 16-bit unsigned word: a register, an address, a literal (00_scope.md R8, R10). -/
abbrev Word := BitVec 16

/-- `wrap16(v)`: v modulo 65536 with the non-negative remainder (00_scope.md R10). -/
def wrap16 (v : Int) : Word := BitVec.ofInt 16 v

/-- The twelve registers, in the order of 10_state.md R20. -/
inductive Reg where
  | ip | ac | r1 | r2 | r3 | r4 | r5 | r6 | r7 | r8 | sp | fp
deriving DecidableEq, Repr

/-- The registers in the order of the register dump (10_state.md R20, R32). -/
def Reg.all : List Reg := [.ip, .ac, .r1, .r2, .r3, .r4, .r5, .r6, .r7, .r8, .sp, .fp]

end Sys2Proof
end

