-- ==== Sys2Proof/Config.lean ====
section
/-! DEFINITION. What an implementation of the JSVM core fixes: the open parameters of 00_scope.md R9 as plain data, and the
constants without a body that stand for what no rule of spec/ gives (log entries 1, 3 and 11). -/

namespace Sys2Proof

/-- The 46 instruction names, without operands: the domain of the parameter `OpcodeMap` (30_encoding.md R79). -/
inductive Op where
  | movLitReg | movRegReg | movRegMem | movMemReg | movLitMem | movRegPtrReg
  | movLitOffReg | addRegReg | addLitReg | subLitReg | subRegLit | subRegReg
  | mulLitReg | mulRegReg | incReg | decReg | lsfRegLit | lsfRegReg
  | rsfRegLit | rsfRegReg | andRegLit | andRegReg | orRegLit | orRegReg
  | xorRegLit | xorRegReg | notReg | jneLit | jneReg | jeqLit
  | jeqReg | jltLit | jltReg | jgtLit | jgtReg | jleLit
  | jleReg | jgeLit | jgeReg | pshLit | pshReg | pop
  | calLit | calReg | ret | hlt
deriving DecidableEq, Repr

/-- Every instruction name, in the order of 30_encoding.md R79. -/
def Op.all : List Op :=
  [.movLitReg, .movRegReg, .movRegMem, .movMemReg, .movLitMem, .movRegPtrReg,
   .movLitOffReg, .addRegReg, .addLitReg, .subLitReg, .subRegLit, .subRegReg,
   .mulLitReg, .mulRegReg, .incReg, .decReg, .lsfRegLit, .lsfRegReg,
   .rsfRegLit, .rsfRegReg, .andRegLit, .andRegReg, .orRegLit, .orRegReg,
   .xorRegLit, .xorRegReg, .notReg, .jneLit, .jneReg, .jeqLit,
   .jeqReg, .jltLit, .jltReg, .jgtLit, .jgtReg, .jleLit,
   .jleReg, .jgeLit, .jgeReg, .pshLit, .pshReg, .pop,
   .calLit, .calReg, .ret, .hlt]

/-- The row of an instruction in 30_encoding.md R79, counted from 0. -/
def Op.row : Op → Nat
  | .movLitReg => 0
  | .movRegReg => 1
  | .movRegMem => 2
  | .movMemReg => 3
  | .movLitMem => 4
  | .movRegPtrReg => 5
  | .movLitOffReg => 6
  | .addRegReg => 7
  | .addLitReg => 8
  | .subLitReg => 9
  | .subRegLit => 10
  | .subRegReg => 11
  | .mulLitReg => 12
  | .mulRegReg => 13
  | .incReg => 14
  | .decReg => 15
  | .lsfRegLit => 16
  | .lsfRegReg => 17
  | .rsfRegLit => 18
  | .rsfRegReg => 19
  | .andRegLit => 20
  | .andRegReg => 21
  | .orRegLit => 22
  | .orRegReg => 23
  | .xorRegLit => 24
  | .xorRegReg => 25
  | .notReg => 26
  | .jneLit => 27
  | .jneReg => 28
  | .jeqLit => 29
  | .jeqReg => 30
  | .jltLit => 31
  | .jltReg => 32
  | .jgtLit => 33
  | .jgtReg => 34
  | .jleLit => 35
  | .jleReg => 36
  | .jgeLit => 37
  | .jgeReg => 38
  | .pshLit => 39
  | .pshReg => 40
  | .pop => 41
  | .calLit => 42
  | .calReg => 43
  | .ret => 44
  | .hlt => 45

/-- The parameter `OpcodeMap`: the opcode byte of each instruction, in the row order of R79 (00_scope.md R9, decision D1). -/
structure OpcodeMap where
  rows : List Byte
deriving DecidableEq, Repr

/-- The byte a map gives an instruction. -/
def OpcodeMap.byteOf (m : OpcodeMap) (o : Op) : Byte := m.rows.getD o.row 0

/-- The instruction a byte is assigned to, if any (`OpcodeMap^-1`, 40_engine.md R95; 30_encoding.md R80). -/
def OpcodeMap.assigned (m : OpcodeMap) (b : Byte) : Option Op := Op.all.find? fun o => m.byteOf o == b

/-- The direction of a shift. -/
inductive ShiftDir where
  | left | right
deriving DecidableEq, Repr

/-- The parameter `ShiftWide` (43_bitwise.md R127, decision D8): its default, its named alternative, and any other total
function, numbered and left open by `Config.shiftWide`. -/
inductive ShiftWide where
  | jsmod32
  | zero
  | other (k : Nat)
deriving DecidableEq, Repr

/-- The result the numbered other choice of `ShiftWide` gives for a direction, a value and an amount of 16 or more.
It has no body: nothing is known of it (DESIGN CHOICE, log entry 3; safe). -/
opaque Config.shiftWide : Nat → ShiftDir → Word → Word → Word

/-- The parameter `MarkerReload` (46_call_return.md R166, decision D18). -/
inductive MarkerReload where
  | overwrite
  | decrement
deriving DecidableEq, Repr

/-- The parameters that no step changes (00_scope.md R9, 10_state.md R30). `screenCommands` gives the name of each command
byte the screen understands; only an observer reads it (20_memory.md R57, decision D29). -/
structure Params where
  opcodeMap : OpcodeMap
  shiftWide : ShiftWide
  markerReload : MarkerReload
  screenCommands : List (Byte × String)
deriving DecidableEq, Repr

/-- The width of a transaction: n = 1 or n = 2 bytes (20_memory.md R47). -/
inductive Width where
  | one | two
deriving DecidableEq, Repr

/-- One operation of the device contract as a device sees it (20_memory.md R55). -/
inductive DeviceOp where
  | read (offset : Word) (width : Width)
  | write (offset : Word) (width : Width) (v : Word)
deriving DecidableEq, Repr

/-- What an attached device that spec/ does not describe answers to a read: data, or `none` for `DeviceRange` (40_engine.md
R90). Its arguments are the device's handle, its own history (most recent first), the offset and the width. It has no body:
its contract is the device's own (93_implementation_defined.md U4; DESIGN CHOICE, log entry 11; safe). -/
opaque Config.deviceRead : Nat → List DeviceOp → Word → Width → Option Word

/-- Whether such a device accepts a write (`false` is `DeviceRange`). It has no body (log entry 11). -/
opaque Config.deviceWrite : Nat → List DeviceOp → Word → Width → Word → Bool

end Sys2Proof
end

