-- ==== Sys2Proof/Machine/Alu.lean ====
section
/-! DEFINITION. The ALU: arithmetic modulo 65536 (42_arithmetic.md R117), the shift functions (43_bitwise.md R127) and the logic
operations (43_bitwise.md R132 to R138). Each result is computed exactly and narrowed by `wrap16` where it may not fit. -/

namespace Sys2Proof.Machine

/-- `(a + b) mod 65536` (42_arithmetic.md R117). -/
def aluAdd (a b : Word) : Word := wrap16 (a.toNat + b.toNat)

/-- `(a - b) mod 65536` (42_arithmetic.md R117). -/
def aluSub (a b : Word) : Word := wrap16 (a.toNat - b.toNat)

/-- `(a · b) mod 65536`: the low 16 bits of the exact product (42_arithmetic.md R117). -/
def aluMul (a b : Word) : Word := wrap16 (a.toNat * b.toNat)

/-- The default `ShiftWide`: the amount modulo 32, the result cut to 16 bits (43_bitwise.md R127; log entry 3). -/
def jsmod32 (d : ShiftDir) (v n : Word) : Word :=
  match d with
  | .left => wrap16 (v.toNat * 2 ^ (n.toNat % 32) : Nat)
  | .right => wrap16 (v.toNat / 2 ^ (n.toNat % 32) : Nat)

/-- The parameter `ShiftWide`: the result of a shift by 16 or more (43_bitwise.md R127, decision D8). -/
def shiftWide (p : ShiftWide) (d : ShiftDir) (v n : Word) : Word :=
  match p with
  | .jsmod32 => jsmod32 d v n
  | .zero => 0
  | .other k => Config.shiftWide k d v n

/-- `shl(v, n)` (43_bitwise.md R127). -/
def aluShl (p : ShiftWide) (v n : Word) : Word :=
  if n.toNat < 16 then wrap16 (v.toNat * 2 ^ n.toNat : Nat) else shiftWide p .left v n

/-- `shr(v, n)`, logical (43_bitwise.md R127, decision D34). -/
def aluShr (p : ShiftWide) (v n : Word) : Word :=
  if n.toNat < 16 then wrap16 (v.toNat / 2 ^ n.toNat : Nat) else shiftWide p .right v n

/-- Bitwise and. -/
def aluAnd (a b : Word) : Word := a &&& b

/-- Bitwise or. -/
def aluOr (a b : Word) : Word := a ||| b

/-- Bitwise exclusive or. -/
def aluXor (a b : Word) : Word := a ^^^ b

/-- `~v = 0xFFFF - v` (00_scope.md R10, 43_bitwise.md R138). -/
def aluNot (v : Word) : Word := 0xFFFF - v

end Sys2Proof.Machine
end

