-- ==== Sys2Proof/Machine/Flags.lean ====
section
/-! DEFINITION. The core has no flags, condition codes or predicate registers (10_state.md R24): no instruction writes one. In
their place stands the comparator of the conditional branches, which compares an operand directly against `ac` (44_branch.md R140). -/

namespace Sys2Proof.Machine

/-- The six relations (44_branch.md R140). -/
inductive Rel where
  | ne | eq | lt | gt | le | ge
deriving DecidableEq, Repr

/-- `REL(value, ac)`, unsigned, the fetched value on the left (44_branch.md R140, decision D7). -/
def Rel.holds (rel : Rel) (value ac : Word) : Bool :=
  match rel with
  | .ne => decide (value.toNat ≠ ac.toNat)
  | .eq => decide (value.toNat = ac.toNat)
  | .lt => decide (value.toNat < ac.toNat)
  | .gt => decide (value.toNat > ac.toNat)
  | .le => decide (value.toNat ≤ ac.toNat)
  | .ge => decide (value.toNat ≥ ac.toNat)

end Sys2Proof.Machine
end

