-- ==== Sys2Proof/Syntax.lean ====
section
/-! DEFINITION. The instructions of the JSVM core: one constructor per row of spec/opcode_table.json, in the order of R79,
its operands in encoding order (30_encoding.md R77, R79). A register operand is the register the field names (R81), a literal or
address operand the unsigned 16-bit value of the field (R82). -/

namespace Sys2Proof

/-- The 46 instructions (30_encoding.md R79). -/
inductive Instr where
  /-- `MOV_LIT_REG`, format LR, rule R110. -/
  | movLitReg (lit : Word) (rd : Reg)
  /-- `MOV_REG_REG`, format RR, rule R111. -/
  | movRegReg (rs : Reg) (rd : Reg)
  /-- `MOV_REG_MEM`, format RA, rule R112. -/
  | movRegMem (rs : Reg) (adr : Word)
  /-- `MOV_MEM_REG`, format AR, rule R113. -/
  | movMemReg (adr : Word) (rd : Reg)
  /-- `MOV_LIT_MEM`, format LA, rule R114. -/
  | movLitMem (lit : Word) (adr : Word)
  /-- `MOV_REG_PTR_REG`, format RR, rule R115. -/
  | movRegPtrReg (rp : Reg) (rd : Reg)
  /-- `MOV_LIT_OFF_REG`, format LRR, rule R116. -/
  | movLitOffReg (base : Word) (ro : Reg) (rd : Reg)
  /-- `ADD_REG_REG`, format RR, rule R118. -/
  | addRegReg (ra : Reg) (rb : Reg)
  /-- `ADD_LIT_REG`, format LR, rule R119. -/
  | addLitReg (lit : Word) (ra : Reg)
  /-- `SUB_LIT_REG`, format LR, rule R120. -/
  | subLitReg (lit : Word) (ra : Reg)
  /-- `SUB_REG_LIT`, format RL, rule R121. -/
  | subRegLit (ra : Reg) (lit : Word)
  /-- `SUB_REG_REG`, format RR, rule R122. -/
  | subRegReg (ra : Reg) (rb : Reg)
  /-- `MUL_LIT_REG`, format LR, rule R123. -/
  | mulLitReg (lit : Word) (ra : Reg)
  /-- `MUL_REG_REG`, format RR, rule R124. -/
  | mulRegReg (ra : Reg) (rb : Reg)
  /-- `INC_REG`, format R, rule R125. -/
  | incReg (ra : Reg)
  /-- `DEC_REG`, format R, rule R126. -/
  | decReg (ra : Reg)
  /-- `LSF_REG_LIT`, format RL, rule R128. -/
  | lsfRegLit (ra : Reg) (lit : Word)
  /-- `LSF_REG_REG`, format RR, rule R129. -/
  | lsfRegReg (ra : Reg) (rb : Reg)
  /-- `RSF_REG_LIT`, format RL, rule R130. -/
  | rsfRegLit (ra : Reg) (lit : Word)
  /-- `RSF_REG_REG`, format RR, rule R131. -/
  | rsfRegReg (ra : Reg) (rb : Reg)
  /-- `AND_REG_LIT`, format RL, rule R132. -/
  | andRegLit (ra : Reg) (lit : Word)
  /-- `AND_REG_REG`, format RR, rule R133. -/
  | andRegReg (ra : Reg) (rb : Reg)
  /-- `OR_REG_LIT`, format RL, rule R134. -/
  | orRegLit (ra : Reg) (lit : Word)
  /-- `OR_REG_REG`, format RR, rule R135. -/
  | orRegReg (ra : Reg) (rb : Reg)
  /-- `XOR_REG_LIT`, format RL, rule R136. -/
  | xorRegLit (ra : Reg) (lit : Word)
  /-- `XOR_REG_REG`, format RR, rule R137. -/
  | xorRegReg (ra : Reg) (rb : Reg)
  /-- `NOT`, format R, rule R138. -/
  | notReg (ra : Reg)
  /-- `JNE_LIT`, format LA, rule R141. -/
  | jneLit (lit : Word) (adr : Word)
  /-- `JNE_REG`, format RA, rule R142. -/
  | jneReg (ra : Reg) (adr : Word)
  /-- `JEQ_LIT`, format LA, rule R143. -/
  | jeqLit (lit : Word) (adr : Word)
  /-- `JEQ_REG`, format RA, rule R144. -/
  | jeqReg (ra : Reg) (adr : Word)
  /-- `JLT_LIT`, format LA, rule R145. -/
  | jltLit (lit : Word) (adr : Word)
  /-- `JLT_REG`, format RA, rule R146. -/
  | jltReg (ra : Reg) (adr : Word)
  /-- `JGT_LIT`, format LA, rule R147. -/
  | jgtLit (lit : Word) (adr : Word)
  /-- `JGT_REG`, format RA, rule R148. -/
  | jgtReg (ra : Reg) (adr : Word)
  /-- `JLE_LIT`, format LA, rule R149. -/
  | jleLit (lit : Word) (adr : Word)
  /-- `JLE_REG`, format RA, rule R150. -/
  | jleReg (ra : Reg) (adr : Word)
  /-- `JGE_LIT`, format LA, rule R151. -/
  | jgeLit (lit : Word) (adr : Word)
  /-- `JGE_REG`, format RA, rule R152. -/
  | jgeReg (ra : Reg) (adr : Word)
  /-- `PSH_LIT`, format L, rule R159. -/
  | pshLit (lit : Word)
  /-- `PSH_REG`, format R, rule R160. -/
  | pshReg (ra : Reg)
  /-- `POP`, format R, rule R161. -/
  | pop (rd : Reg)
  /-- `CAL_LIT`, format A, rule R167. -/
  | calLit (adr : Word)
  /-- `CAL_REG`, format R, rule R168. -/
  | calReg (ra : Reg)
  /-- `RET`, format N, rule R169. -/
  | ret
  /-- `HLT`, format N, rule R175. -/
  | hlt
deriving DecidableEq, Repr

end Sys2Proof
end

