-- ==== Sys2Proof/WellFormed.lean ====
section
/-! DEFINITION. Well-formedness. Every term of `Instr` is well formed, because every operand byte value is legal (30_encoding.md
R84) and `Instr` holds registers and words, so no check stands for instructions. What a host may get wrong is the parameter
`OpcodeMap`: a replacement must be injective (30_encoding.md R79). -/

namespace Sys2Proof

/-- A map has one byte for each of the 46 rows. -/
def OpcodeMap.complete (m : OpcodeMap) : Bool := m.rows.length == Op.all.length

/-- No two instructions share a byte. -/
def OpcodeMap.injective (m : OpcodeMap) : Bool := decide (Op.all.map m.byteOf).Nodup

/-- "A model that replaces `OpcodeMap` must keep it injective (one byte per instruction, 46 distinct bytes)" (R79). -/
def OpcodeMap.wf (m : OpcodeMap) : Bool := m.complete && m.injective

/-- The parameters a host may set are well formed when the opcode map is. -/
def Params.wf (p : Params) : Bool := p.opcodeMap.wf

end Sys2Proof
end

