-- ==== Sys2Proof/Decode.lean ====
section
/-! DEFINITION. The decoder and, after it, the encoder, both from the tables of 30_encoding.md (R76 to R82), over any
`OpcodeMap`; and the default map (R79). -/

namespace Sys2Proof

/-! ## Bytes and words -/

/-- `a ++ b`: the word with high byte a and low byte b (00_scope.md R10, 30_encoding.md R82). -/
def wordOfBytes (hi lo : Byte) : Word := hi ++ lo

/-- `v[15:8]`. -/
def hiByte (v : Word) : Byte := v.extractLsb' 8 8

/-- `v[7:0]`. -/
def loByte (v : Word) : Byte := v.extractLsb' 0 8

/-- The data of a transaction: `v[7:0]` with n = 1, `v[15:0]` with n = 2 (20_memory.md R47). -/
def Width.data (w : Width) (v : Word) : Word :=
  match w with
  | .one => (loByte v).setWidth 16
  | .two => v

/-! ## Registers -/

/-- The register with an index in 0..11 (10_state.md R20). -/
def Reg.ofIndex : Nat → Reg
  | 0 => .ip | 1 => .ac | 2 => .r1 | 3 => .r2 | 4 => .r3 | 5 => .r4
  | 6 => .r5 | 7 => .r6 | 8 => .r7 | 9 => .r8 | 10 => .sp | _ => .fp

/-- The index of a register (10_state.md R20). -/
def Reg.index : Reg → Nat
  | .ip => 0 | .ac => 1 | .r1 => 2 | .r2 => 3 | .r3 => 4 | .r4 => 5
  | .r5 => 6 | .r6 => 7 | .r7 => 8 | .r8 => 9 | .sp => 10 | .fp => 11

/-- A register byte b names register `b mod 12` (30_encoding.md R81). -/
def Reg.ofByte (b : Byte) : Reg := .ofIndex (b.toNat % 12)

/-- The byte a register name assembles to: its index (30_encoding.md R86). -/
def Reg.toByte (r : Reg) : Byte := BitVec.ofNat 8 r.index

/-- The register's slot in the 24-byte store (10_state.md R20, 30_encoding.md R81). -/
def Reg.byteOffset (r : Reg) : Nat := 2 * r.index

/-! ## Formats -/

/-- The three kinds of operand field (30_encoding.md R76). -/
inductive FieldKind where
  | register | literal | address
deriving DecidableEq, Repr

/-- How many bytes a field takes (30_encoding.md R76). -/
def FieldKind.size : FieldKind → Nat
  | .register => 1
  | .literal => 2
  | .address => 2

/-- The eleven formats (30_encoding.md R77). -/
inductive Format where
  | n | r | l | a | rr | lr | rl | ra | ar | la | lrr
deriving DecidableEq, Repr

/-- The fields of a format, in order (30_encoding.md R77). -/
def Format.fields : Format → List FieldKind
  | .n => []
  | .r => [.register]
  | .l => [.literal]
  | .a => [.address]
  | .rr => [.register, .register]
  | .lr => [.literal, .register]
  | .rl => [.register, .literal]
  | .ra => [.register, .address]
  | .ar => [.address, .register]
  | .la => [.literal, .address]
  | .lrr => [.literal, .register, .register]

/-- The length of a format in bytes, the opcode byte included (30_encoding.md R77, R78). -/
def Format.length (f : Format) : Nat := 1 + (f.fields.map FieldKind.size).sum

/-- The format of each instruction (30_encoding.md R79). -/
def Op.format : Op → Format
  | .movLitReg => .lr
  | .movRegReg => .rr
  | .movRegMem => .ra
  | .movMemReg => .ar
  | .movLitMem => .la
  | .movRegPtrReg => .rr
  | .movLitOffReg => .lrr
  | .addRegReg => .rr
  | .addLitReg => .lr
  | .subLitReg => .lr
  | .subRegLit => .rl
  | .subRegReg => .rr
  | .mulLitReg => .lr
  | .mulRegReg => .rr
  | .incReg => .r
  | .decReg => .r
  | .lsfRegLit => .rl
  | .lsfRegReg => .rr
  | .rsfRegLit => .rl
  | .rsfRegReg => .rr
  | .andRegLit => .rl
  | .andRegReg => .rr
  | .orRegLit => .rl
  | .orRegReg => .rr
  | .xorRegLit => .rl
  | .xorRegReg => .rr
  | .notReg => .r
  | .jneLit => .la
  | .jneReg => .ra
  | .jeqLit => .la
  | .jeqReg => .ra
  | .jltLit => .la
  | .jltReg => .ra
  | .jgtLit => .la
  | .jgtReg => .ra
  | .jleLit => .la
  | .jleReg => .ra
  | .jgeLit => .la
  | .jgeReg => .ra
  | .pshLit => .l
  | .pshReg => .r
  | .pop => .r
  | .calLit => .a
  | .calReg => .r
  | .ret => .n
  | .hlt => .n

/-- The length of an instruction, from its name alone (30_encoding.md R78). -/
def Op.length (o : Op) : Nat := o.format.length

/-! ## The default opcode map -/

/-- The default opcode byte of each instruction (30_encoding.md R79).
PRESUMED by the spec itself, from general knowledge (93_implementation_defined.md G1; log entry 2; unsafe). -/
def Op.defaultByte : Op → Byte
  | .movLitReg => 0x10
  | .movRegReg => 0x11
  | .movRegMem => 0x12
  | .movMemReg => 0x13
  | .movLitMem => 0x1B
  | .movRegPtrReg => 0x1C
  | .movLitOffReg => 0x1D
  | .addRegReg => 0x14
  | .addLitReg => 0x3F
  | .subLitReg => 0x16
  | .subRegLit => 0x1E
  | .subRegReg => 0x1F
  | .mulLitReg => 0x20
  | .mulRegReg => 0x21
  | .incReg => 0x35
  | .decReg => 0x36
  | .lsfRegLit => 0x26
  | .lsfRegReg => 0x27
  | .rsfRegLit => 0x2A
  | .rsfRegReg => 0x2B
  | .andRegLit => 0x2E
  | .andRegReg => 0x2F
  | .orRegLit => 0x30
  | .orRegReg => 0x31
  | .xorRegLit => 0x32
  | .xorRegReg => 0x33
  | .notReg => 0x34
  | .jneLit => 0x15
  | .jneReg => 0x40
  | .jeqLit => 0x41
  | .jeqReg => 0x3E
  | .jltLit => 0x43
  | .jltReg => 0x42
  | .jgtLit => 0x45
  | .jgtReg => 0x44
  | .jleLit => 0x47
  | .jleReg => 0x46
  | .jgeLit => 0x49
  | .jgeReg => 0x48
  | .pshLit => 0x17
  | .pshReg => 0x18
  | .pop => 0x1A
  | .calLit => 0x5E
  | .calReg => 0x5F
  | .ret => 0x60
  | .hlt => 0xFF

/-- The default `OpcodeMap` (30_encoding.md R79). -/
def OpcodeMap.default : OpcodeMap := ⟨Op.all.map Op.defaultByte⟩

/-! ## Decoding -/

/-- The value of one fetched field: a register, or the word of a literal or an address. -/
inductive FieldValue where
  | reg (r : Reg)
  | word (w : Word)
deriving DecidableEq, Repr

/-- The instruction with a name and its field values in order (30_encoding.md R79); `none` where the values do not have the
instruction's format. -/
def Instr.build : Op → List FieldValue → Option Instr
  | .movLitReg, [.word lit, .reg rd] => some (.movLitReg lit rd)
  | .movRegReg, [.reg rs, .reg rd] => some (.movRegReg rs rd)
  | .movRegMem, [.reg rs, .word adr] => some (.movRegMem rs adr)
  | .movMemReg, [.word adr, .reg rd] => some (.movMemReg adr rd)
  | .movLitMem, [.word lit, .word adr] => some (.movLitMem lit adr)
  | .movRegPtrReg, [.reg rp, .reg rd] => some (.movRegPtrReg rp rd)
  | .movLitOffReg, [.word base, .reg ro, .reg rd] => some (.movLitOffReg base ro rd)
  | .addRegReg, [.reg ra, .reg rb] => some (.addRegReg ra rb)
  | .addLitReg, [.word lit, .reg ra] => some (.addLitReg lit ra)
  | .subLitReg, [.word lit, .reg ra] => some (.subLitReg lit ra)
  | .subRegLit, [.reg ra, .word lit] => some (.subRegLit ra lit)
  | .subRegReg, [.reg ra, .reg rb] => some (.subRegReg ra rb)
  | .mulLitReg, [.word lit, .reg ra] => some (.mulLitReg lit ra)
  | .mulRegReg, [.reg ra, .reg rb] => some (.mulRegReg ra rb)
  | .incReg, [.reg ra] => some (.incReg ra)
  | .decReg, [.reg ra] => some (.decReg ra)
  | .lsfRegLit, [.reg ra, .word lit] => some (.lsfRegLit ra lit)
  | .lsfRegReg, [.reg ra, .reg rb] => some (.lsfRegReg ra rb)
  | .rsfRegLit, [.reg ra, .word lit] => some (.rsfRegLit ra lit)
  | .rsfRegReg, [.reg ra, .reg rb] => some (.rsfRegReg ra rb)
  | .andRegLit, [.reg ra, .word lit] => some (.andRegLit ra lit)
  | .andRegReg, [.reg ra, .reg rb] => some (.andRegReg ra rb)
  | .orRegLit, [.reg ra, .word lit] => some (.orRegLit ra lit)
  | .orRegReg, [.reg ra, .reg rb] => some (.orRegReg ra rb)
  | .xorRegLit, [.reg ra, .word lit] => some (.xorRegLit ra lit)
  | .xorRegReg, [.reg ra, .reg rb] => some (.xorRegReg ra rb)
  | .notReg, [.reg ra] => some (.notReg ra)
  | .jneLit, [.word lit, .word adr] => some (.jneLit lit adr)
  | .jneReg, [.reg ra, .word adr] => some (.jneReg ra adr)
  | .jeqLit, [.word lit, .word adr] => some (.jeqLit lit adr)
  | .jeqReg, [.reg ra, .word adr] => some (.jeqReg ra adr)
  | .jltLit, [.word lit, .word adr] => some (.jltLit lit adr)
  | .jltReg, [.reg ra, .word adr] => some (.jltReg ra adr)
  | .jgtLit, [.word lit, .word adr] => some (.jgtLit lit adr)
  | .jgtReg, [.reg ra, .word adr] => some (.jgtReg ra adr)
  | .jleLit, [.word lit, .word adr] => some (.jleLit lit adr)
  | .jleReg, [.reg ra, .word adr] => some (.jleReg ra adr)
  | .jgeLit, [.word lit, .word adr] => some (.jgeLit lit adr)
  | .jgeReg, [.reg ra, .word adr] => some (.jgeReg ra adr)
  | .pshLit, [.word lit] => some (.pshLit lit)
  | .pshReg, [.reg ra] => some (.pshReg ra)
  | .pop, [.reg rd] => some (.pop rd)
  | .calLit, [.word adr] => some (.calLit adr)
  | .calReg, [.reg ra] => some (.calReg ra)
  | .ret, [] => some .ret
  | .hlt, [] => some .hlt
  | _, _ => none

/-- The name of an instruction. -/
def Instr.op : Instr → Op
  | .movLitReg _ _ => .movLitReg
  | .movRegReg _ _ => .movRegReg
  | .movRegMem _ _ => .movRegMem
  | .movMemReg _ _ => .movMemReg
  | .movLitMem _ _ => .movLitMem
  | .movRegPtrReg _ _ => .movRegPtrReg
  | .movLitOffReg _ _ _ => .movLitOffReg
  | .addRegReg _ _ => .addRegReg
  | .addLitReg _ _ => .addLitReg
  | .subLitReg _ _ => .subLitReg
  | .subRegLit _ _ => .subRegLit
  | .subRegReg _ _ => .subRegReg
  | .mulLitReg _ _ => .mulLitReg
  | .mulRegReg _ _ => .mulRegReg
  | .incReg _ => .incReg
  | .decReg _ => .decReg
  | .lsfRegLit _ _ => .lsfRegLit
  | .lsfRegReg _ _ => .lsfRegReg
  | .rsfRegLit _ _ => .rsfRegLit
  | .rsfRegReg _ _ => .rsfRegReg
  | .andRegLit _ _ => .andRegLit
  | .andRegReg _ _ => .andRegReg
  | .orRegLit _ _ => .orRegLit
  | .orRegReg _ _ => .orRegReg
  | .xorRegLit _ _ => .xorRegLit
  | .xorRegReg _ _ => .xorRegReg
  | .notReg _ => .notReg
  | .jneLit _ _ => .jneLit
  | .jneReg _ _ => .jneReg
  | .jeqLit _ _ => .jeqLit
  | .jeqReg _ _ => .jeqReg
  | .jltLit _ _ => .jltLit
  | .jltReg _ _ => .jltReg
  | .jgtLit _ _ => .jgtLit
  | .jgtReg _ _ => .jgtReg
  | .jleLit _ _ => .jleLit
  | .jleReg _ _ => .jleReg
  | .jgeLit _ _ => .jgeLit
  | .jgeReg _ _ => .jgeReg
  | .pshLit _ => .pshLit
  | .pshReg _ => .pshReg
  | .pop _ => .pop
  | .calLit _ => .calLit
  | .calReg _ => .calReg
  | .ret => .ret
  | .hlt => .hlt

/-- The field values of an instruction, in encoding order (30_encoding.md R79). -/
def Instr.fields : Instr → List FieldValue
  | .movLitReg lit rd => [.word lit, .reg rd]
  | .movRegReg rs rd => [.reg rs, .reg rd]
  | .movRegMem rs adr => [.reg rs, .word adr]
  | .movMemReg adr rd => [.word adr, .reg rd]
  | .movLitMem lit adr => [.word lit, .word adr]
  | .movRegPtrReg rp rd => [.reg rp, .reg rd]
  | .movLitOffReg base ro rd => [.word base, .reg ro, .reg rd]
  | .addRegReg ra rb => [.reg ra, .reg rb]
  | .addLitReg lit ra => [.word lit, .reg ra]
  | .subLitReg lit ra => [.word lit, .reg ra]
  | .subRegLit ra lit => [.reg ra, .word lit]
  | .subRegReg ra rb => [.reg ra, .reg rb]
  | .mulLitReg lit ra => [.word lit, .reg ra]
  | .mulRegReg ra rb => [.reg ra, .reg rb]
  | .incReg ra => [.reg ra]
  | .decReg ra => [.reg ra]
  | .lsfRegLit ra lit => [.reg ra, .word lit]
  | .lsfRegReg ra rb => [.reg ra, .reg rb]
  | .rsfRegLit ra lit => [.reg ra, .word lit]
  | .rsfRegReg ra rb => [.reg ra, .reg rb]
  | .andRegLit ra lit => [.reg ra, .word lit]
  | .andRegReg ra rb => [.reg ra, .reg rb]
  | .orRegLit ra lit => [.reg ra, .word lit]
  | .orRegReg ra rb => [.reg ra, .reg rb]
  | .xorRegLit ra lit => [.reg ra, .word lit]
  | .xorRegReg ra rb => [.reg ra, .reg rb]
  | .notReg ra => [.reg ra]
  | .jneLit lit adr => [.word lit, .word adr]
  | .jneReg ra adr => [.reg ra, .word adr]
  | .jeqLit lit adr => [.word lit, .word adr]
  | .jeqReg ra adr => [.reg ra, .word adr]
  | .jltLit lit adr => [.word lit, .word adr]
  | .jltReg ra adr => [.reg ra, .word adr]
  | .jgtLit lit adr => [.word lit, .word adr]
  | .jgtReg ra adr => [.reg ra, .word adr]
  | .jleLit lit adr => [.word lit, .word adr]
  | .jleReg ra adr => [.reg ra, .word adr]
  | .jgeLit lit adr => [.word lit, .word adr]
  | .jgeReg ra adr => [.reg ra, .word adr]
  | .pshLit lit => [.word lit]
  | .pshReg ra => [.reg ra]
  | .pop rd => [.reg rd]
  | .calLit adr => [.word adr]
  | .calReg ra => [.reg ra]
  | .ret => []
  | .hlt => []

/-- The length of an instruction in bytes. -/
def Instr.length (i : Instr) : Nat := i.op.length

/-- Reads the fields of the given kinds off a byte sequence: the values and the bytes left; `none` where bytes are missing. -/
def parseFields : List FieldKind → List Byte → Option (List FieldValue × List Byte)
  | [], bs => some ([], bs)
  | .register :: ks, b :: bs => (parseFields ks bs).map fun p => (.reg (.ofByte b) :: p.1, p.2)
  | .literal :: ks, hi :: lo :: bs => (parseFields ks bs).map fun p => (.word (wordOfBytes hi lo) :: p.1, p.2)
  | .address :: ks, hi :: lo :: bs => (parseFields ks bs).map fun p => (.word (wordOfBytes hi lo) :: p.1, p.2)
  | _, _ => none

/-- What a byte sequence decodes to (30_encoding.md R85): an instruction and the bytes after it, or a rejection by name. -/
inductive Decoded where
  | instr (i : Instr) (rest : List Byte)
  /-- The first byte is assigned to no instruction (R80, R103). -/
  | unassignedOpcode (opcode : Byte)
  /-- The sequence ends before the instruction does; in the machine this is a fetch fault (R85). -/
  | truncated
deriving DecidableEq, Repr

/-- The decoder: total on every byte sequence (30_encoding.md R85). -/
def decode (m : OpcodeMap) : List Byte → Decoded
  | [] => .truncated
  | b :: bs =>
    match m.assigned b with
    | none => .unassignedOpcode b
    | some o =>
      match parseFields o.format.fields bs with
      | none => .truncated
      | some (vs, rest) =>
        match Instr.build o vs with
        | none => .truncated
        | some i => .instr i rest

/-! ## Encoding -/

/-- The bytes of one field (30_encoding.md R76, R82, R86). -/
def FieldValue.bytes : FieldValue → List Byte
  | .reg r => [r.toByte]
  | .word w => [hiByte w, loByte w]

/-- The bytes of an instruction: its opcode byte, then its fields in order (30_encoding.md R77). -/
def encode (m : OpcodeMap) (i : Instr) : List Byte := m.byteOf i.op :: i.fields.flatMap FieldValue.bytes

/-! ## The opcode table's bit strings -/

/-- The low `n` bytes of a number, the least significant first: the first byte of an instruction is bits 7..0 of the host's
numbering. -/
def bytesOfNat : Nat → Nat → List Byte
  | 0, _ => []
  | n + 1, w => BitVec.ofNat 8 w :: bytesOfNat n (w / 256)

/-- The bytes the host's word stands for, every bit from `nbits` up zero, up to the longest instruction (5 bytes). -/
def tableBytes (nbits w : Nat) : List Byte := bytesOfNat (max 5 (nbits / 8)) (w % 2 ^ nbits)

/-- The instruction the decoder reads, under the default map, from an instruction whose bits are `w`. -/
def decodeTableWord (nbits w : Nat) : Option Instr :=
  match decode .default (tableBytes nbits w) with
  | .instr i _ => some i
  | _ => none

end Sys2Proof
end

