-- ==== Sys2Proof/Machine/Types.lean ====
section
/-! DEFINITION. The plain data that State is made of: the register file, the devices, the regions, the faults and the event
record (10_state.md R20 to R29, 20_memory.md R41, R55 to R57, R67, 60_exceptions.md R180, R181). -/

namespace Sys2Proof.Machine

/-- The register file: twelve 16-bit registers, in the order of 10_state.md R20. -/
structure RegFile where
  ip : Word
  ac : Word
  r1 : Word
  r2 : Word
  r3 : Word
  r4 : Word
  r5 : Word
  r6 : Word
  r7 : Word
  r8 : Word
  sp : Word
  fp : Word
deriving DecidableEq, Repr

/-- The bytes of a RAM device: (offset, byte) cells, offsets strictly rising, none equal to what an unlisted byte reads as. -/
abbrev Memory := List Host.Cell

/-- A device attached to the multiplexer and its state (20_memory.md R55, 10_state.md R29). -/
inductive Device where
  /-- Plain RAM of `size` bytes (20_memory.md R56). -/
  | ram (size : Nat) (bytes : Memory)
  /-- The screen: it holds no state the core can see (20_memory.md R57). -/
  | screen
  /-- Any other device: its state is its own history of operations, most recent first (log entry 11). -/
  | external (history : List DeviceOp)
deriving DecidableEq, Repr

/-- A region `{device, start, end, remap}` (10_state.md R28, 20_memory.md R41); `last` is the spec's `end`, and `token` is what
`map` returned for it (20_memory.md R68). -/
structure Region where
  token : Nat
  device : Nat
  start : Word
  last : Word
  remap : Bool
deriving DecidableEq, Repr

/-- Read or write. -/
inductive Access where
  | read | write
deriving DecidableEq, Repr

/-- The five fault kinds (60_exceptions.md R180). -/
inductive FaultKind where
  | unmappedAddress | regionStraddle | deviceRange | illegalOpcode | unknownRegister
deriving DecidableEq, Repr

/-- A fault with the information recorded for it (60_exceptions.md R180). -/
inductive FaultInfo where
  /-- No region contains the address (R182). -/
  | unmappedAddress (addr : Word) (width : Width) (kind : Access)
  /-- A 16-bit access at the last address of its region (R183). -/
  | regionStraddle (addr : Word) (kind : Access) (region : Region)
  /-- An access a device refuses as out of its range (R184). -/
  | deviceRange (offset : Word) (width : Width)
  /-- An opcode byte the map does not assign (R187). -/
  | illegalOpcode (opcode : Byte) (addr : Word)
  /-- A register name the host's port does not know; never raised by a step (R185). -/
  | unknownRegister (name : String)
deriving DecidableEq, Repr

/-- The fault record `{code, kind, info, s}` (60_exceptions.md R181); code and kind follow from the information. -/
structure FaultRecord where
  info : FaultInfo
  start : Word
deriving DecidableEq, Repr

/-- The status register (10_state.md R27), with the record when `Faulted`. -/
inductive Status where
  | running
  | halted
  | faulted (record : FaultRecord)
deriving DecidableEq, Repr

/-- How a transaction ended. The value of an 8-bit read is its zero extension (00_scope.md R10). -/
inductive BusResult where
  | value (v : Word)
  | fault (f : FaultInfo)
deriving DecidableEq, Repr

/-- One transaction as the observer sees it: `(kind, width, address, resolved region, offset, value or fault)` (20_memory.md R67). -/
structure Event where
  kind : Access
  width : Width
  addr : Word
  region : Option Region
  offset : Option Word
  result : BusResult
deriving DecidableEq, Repr

end Sys2Proof.Machine
end

