-- ==== Sys2Proof/Machine/Platform.lean ====
section
/-! DEFINITION. The default parameters, the default platform and image, and the reset value of every register (00_scope.md R9,
10_state.md R33, 20_memory.md R61, 70_reset_and_hazards.md R200, R203). -/

namespace Sys2Proof.Machine

/-- The default parameters (00_scope.md R9; log entries 2, 3, 4 and 15). -/
def defaultParams : Params where
  opcodeMap := .default
  shiftWide := .jsmod32
  markerReload := .overwrite
  screenCommands := []

/-- Every register at reset: `sp` and `fp` 0xFFFE, every other register 0x0000 (10_state.md R33; log entry 7). -/
def resetRegs : RegFile where
  ip := 0x0000
  ac := 0x0000
  r1 := 0x0000
  r2 := 0x0000
  r3 := 0x0000
  r4 := 0x0000
  r5 := 0x0000
  r6 := 0x0000
  r7 := 0x0000
  r8 := 0x0000
  sp := 0xFFFE
  fp := 0xFFFE

/-- The default devices: RAM of 65536 bytes, none of them listed, and the screen (20_memory.md R61; log entry 5). -/
def defaultDevices : List Device := [.ram 65536 [], .screen]

/-- The default regions, most recent first: the screen at [0x3000, 0x30FF] over RAM at [0x0000, 0xFFFF] (20_memory.md R61). -/
def defaultRegions : List Region :=
  [{ token := 1, device := 1, start := 0x3000, last := 0x30FF, remap := true },
   { token := 0, device := 0, start := 0x0000, last := 0xFFFF, remap := true }]

end Sys2Proof.Machine
end

