-- ==== Sys2Proof/Machine/State.lean ====
section
/-! DEFINITION. The state of the machine: everything spec/10_state.md gives it, as plain data, and its value after reset. -/

namespace Sys2Proof.Machine

/-- Every piece of state of the JSVM core and its address space. -/
structure State where
  /-- The register file (10_state.md R20). -/
  regs : RegFile
  /-- The frame-size counter, in bytes, modulo 65536 (10_state.md R25). -/
  counter : Word
  /-- `Running`, `Halted`, or `Faulted` with its record (10_state.md R27). -/
  status : Status
  /-- The region list, most recently mapped first (10_state.md R28). -/
  regions : List Region
  /-- The next token `map` returns (20_memory.md R68; log entry 14). -/
  nextToken : Nat
  /-- The attached devices; a region names one by its place in this list (10_state.md R29). -/
  devices : List Device
  /-- The event record, most recent first; no step reads it (20_memory.md R67; log entry 10). -/
  events : List Event
  /-- The parameters, which no step changes (10_state.md R30; log entry 1). -/
  params : Params
deriving DecidableEq, Repr

/-- The reasons for which the machine would stop with no next state: none. Every fault of 60_exceptions.md R180 is a state of
the machine that the step answers, and a latched core's step changes nothing (R188; log entry 8). Nothing raises a `Fault`,
which is safe: no run is cut short. -/
inductive Fault where
deriving DecidableEq, Repr

/-- The reasons for which an instruction has no meaning in this model. -/
inductive Refusal where
  /-- Raised by an arm of `exec` that has no meaning yet; no arm does so now (safe: it stops where the hardware goes on). -/
  | notModelled (mnemonic : String)
deriving DecidableEq, Repr

/-- The launch state of a run: reset's values, with the parameters and the platform the host sets (70_reset_and_hazards.md R203). -/
def State.launch (params : Params) (regions : List Region) (nextToken : Nat) (devices : List Device) : State where
  regs := resetRegs
  counter := 0
  status := .running
  regions := regions
  nextToken := nextToken
  devices := devices
  events := []
  params := params

/-- The machine right after reset, under the default parameters, platform and image (10_state.md R33). -/
def State.reset : State := .launch defaultParams defaultRegions 2 defaultDevices

end Sys2Proof.Machine
end

