-- ==== Sys2Proof/Machine/Ops.lean ====
section
/-! DEFINITION. The named operations: RAM bytes, the multiplexer and its transactions, the register file, the fetch primitives,
taking a fault and leaving it by reset, and the stack-frame sequencer. -/

namespace Sys2Proof.Machine

/-! ## The bytes of a RAM device -/

/-- What a RAM byte that is not listed reads as: 0x00, the default `Image` (decision D16; log entry 5; unsafe). -/
def Memory.unlisted : Byte := 0x00

/-- The byte at an offset. -/
def Memory.read : Memory → Nat → Byte
  | [], _ => Memory.unlisted
  | (k, v) :: m, o => if k = o then v else Memory.read m o

/-- `m` with byte `b` at offset `o`, in canonical form. -/
def Memory.write : Memory → Nat → Byte → Memory
  | [], o, b => if b = Memory.unlisted then [] else [(o, b)]
  | (k, v) :: m, o, b =>
    if o < k then (if b = Memory.unlisted then (k, v) :: m else (o, b) :: (k, v) :: m)
    else if o = k then (if b = Memory.unlisted then m else (o, b) :: m)
    else (k, v) :: Memory.write m o b

/-- The canonical form from an offset up: offsets strictly rising, no entry equal to what an unlisted byte reads as. -/
def Memory.wfFrom : Nat → Memory → Bool
  | _, [] => true
  | lo, (k, v) :: m => decide (lo ≤ k) && v != Memory.unlisted && Memory.wfFrom (k + 1) m

/-- The canonical form. -/
def Memory.wf (m : Memory) : Bool := Memory.wfFrom 0 m

/-! ## Devices -/

/-- A read of a device: its answer (`none` is `DeviceRange`) and the device after it. `h` is the device's handle
(20_memory.md R55 to R57; log entries 11 and 12). -/
def Device.read (h : Nat) : Device → Word → Width → Option Word × Device
  | .ram n b, o, .one =>
    (if o.toNat ≥ n then none else some ((Memory.read b o.toNat).setWidth 16), .ram n b)
  | .ram n b, o, .two =>
    (if o.toNat + 1 ≥ n then none
      else some (wordOfBytes (Memory.read b o.toNat) (Memory.read b (o.toNat + 1))), .ram n b)
  | .screen, _, _ => (some 0, .screen)
  | .external hist, o, w => ((Config.deviceRead h hist o w).map (Width.data w), .external (.read o w :: hist))

/-- A write to a device: whether it is accepted (`false` is `DeviceRange`) and the device after it. Every device is handed
`v[7:0]` alone by an 8-bit write (20_memory.md R47, R55 to R57; log entries 11 and 12). -/
def Device.write (h : Nat) : Device → Word → Width → Word → Bool × Device
  | .ram n b, o, .one, v =>
    if o.toNat ≥ n then (false, .ram n b) else (true, .ram n (Memory.write b o.toNat (loByte v)))
  | .ram n b, o, .two, v =>
    if o.toNat + 1 ≥ n then (false, .ram n b)
    else (true, .ram n (Memory.write (Memory.write b o.toNat (hiByte v)) (o.toNat + 1) (loByte v)))
  | .screen, _, _, _ => (true, .screen)
  | .external hist, o, w, v => (Config.deviceWrite h hist o w (w.data v), .external (.write o w (w.data v) :: hist))

/-- A RAM device's memory is canonical and lists only bytes the device has. -/
def Device.wf : Device → Bool
  | .ram n b => Memory.wf b && b.all fun c => decide (c.1 < n)
  | .screen => true
  | .external _ => true

/-- The device a handle names; a handle of no attached device reads as a device of no bytes (log entry 13). -/
def State.device (s : State) (h : Nat) : Device := s.devices.getD h (.ram 0 [])

/-- The byte at an offset of the RAM device with handle `h`; other devices hold no bytes. -/
def State.ramByte (s : State) (h : Nat) (o : Nat) : Byte :=
  match s.device h with
  | .ram _ b => Memory.read b o
  | .screen => Memory.unlisted
  | .external _ => Memory.unlisted

/-! ## The multiplexer -/

/-- The region contains address a exactly when `start <= a <= end` (20_memory.md R41). -/
def Region.contains (g : Region) (a : Word) : Bool := decide (g.start ≤ a) && decide (a ≤ g.last)

/-- The first region, most recent first, whose bounds contain a (20_memory.md R43). -/
def resolve (regions : List Region) (a : Word) : Option Region := regions.find? fun g => g.contains a

/-- The local offset presented to the device (20_memory.md R44). -/
def Region.offset (g : Region) (a : Word) : Word := if g.remap then a - g.start else a

/-- Where a transaction goes: a device's local offset, or a fault raised before any device is reached. -/
inductive Target where
  | fault (region : Option Region) (f : FaultInfo)
  | device (region : Region) (offset : Word)
deriving DecidableEq, Repr

/-- Resolution, then the straddle check, then translation (20_memory.md R47, 60_exceptions.md R189). -/
def State.target (s : State) (k : Access) (a : Word) (w : Width) : Target :=
  match resolve s.regions a with
  | none => .fault none (.unmappedAddress a w k)
  | some g => if w = .two ∧ a = g.last then .fault (some g) (.regionStraddle a k g) else .device g (g.offset a)

/-- What one transaction comes to: where it went, how it ended and the devices after it. -/
structure Transaction where
  region : Option Region
  offset : Option Word
  result : BusResult
  devices : List Device
deriving DecidableEq, Repr

/-- The read of `MemRead(a, n)` at the multiplexer, before it is recorded (20_memory.md R47). -/
def State.busRead (s : State) (a : Word) (w : Width) : Transaction :=
  match s.target .read a w with
  | .fault g f => ⟨g, none, .fault f, s.devices⟩
  | .device g o =>
    match (s.device g.device).read g.device o w with
    | (none, d) => ⟨some g, some o, .fault (.deviceRange o w), s.devices.set g.device d⟩
    | (some v, d) => ⟨some g, some o, .value v, s.devices.set g.device d⟩

/-- The write of `MemWrite(a, n, v)` at the multiplexer, before it is recorded (20_memory.md R47). -/
def State.busWrite (s : State) (a : Word) (w : Width) (v : Word) : Transaction :=
  match s.target .write a w with
  | .fault g f => ⟨g, none, .fault f, s.devices⟩
  | .device g o =>
    match (s.device g.device).write g.device o w v with
    | (false, d) => ⟨some g, some o, .fault (.deviceRange o w), s.devices.set g.device d⟩
    | (true, d) => ⟨some g, some o, .value (w.data v), s.devices.set g.device d⟩

/-- The event a transaction is recorded as (20_memory.md R67). -/
def Transaction.event (t : Transaction) (k : Access) (w : Width) (a : Word) : Event :=
  ⟨k, w, a, t.region, t.offset, t.result⟩

/-- The state after a transaction: its devices, and the event recorded. -/
def State.after (s : State) (t : Transaction) (e : Event) : State :=
  { s with devices := t.devices, events := e :: s.events }

/-! ## Results -/

/-- A part of an instruction: done with a value, or a fault raised with the effects so far kept (00_scope.md R11,
60_exceptions.md R186). -/
inductive Result (α : Type) where
  | done (a : α) (s : State)
  | raised (f : FaultInfo) (s : State)
deriving DecidableEq, Repr

/-- One line of pseudocode after another: a fault ends the instruction (00_scope.md R11). -/
def Result.andThen {α β : Type} (r : Result α) (k : α → State → Result β) : Result β :=
  match r with
  | .done a s => k a s
  | .raised f s => .raised f s

/-- A transaction's result as a part of an instruction. -/
def BusResult.at (r : BusResult) (s : State) : Result Word :=
  match r with
  | .value v => .done v s
  | .fault f => .raised f s

/-- `MemRead(a, n)` (20_memory.md R47), recorded as an event (R67). -/
def memRead (a : Word) (w : Width) (s : State) : Result Word :=
  (s.busRead a w).result.at (s.after (s.busRead a w) ((s.busRead a w).event .read w a))

/-- `MemWrite(a, n, v)` (20_memory.md R47), recorded as an event (R67). -/
def memWrite (a : Word) (w : Width) (v : Word) (s : State) : Result Word :=
  (s.busWrite a w v).result.at (s.after (s.busWrite a w v) ((s.busWrite a w v).event .write w a))

/-! ## The register file -/

/-- The register a name reads (10_state.md R20, R21). -/
def RegFile.get (f : RegFile) : Reg → Word
  | .ip => f.ip | .ac => f.ac | .r1 => f.r1 | .r2 => f.r2 | .r3 => f.r3 | .r4 => f.r4
  | .r5 => f.r5 | .r6 => f.r6 | .r7 => f.r7 | .r8 => f.r8 | .sp => f.sp | .fp => f.fp

/-- The register file after a write (10_state.md R21, R22: no register is read-only or hardwired). -/
def RegFile.set (f : RegFile) : Reg → Word → RegFile
  | .ip, v => { f with ip := v } | .ac, v => { f with ac := v } | .r1, v => { f with r1 := v }
  | .r2, v => { f with r2 := v } | .r3, v => { f with r3 := v } | .r4, v => { f with r4 := v }
  | .r5, v => { f with r5 := v } | .r6, v => { f with r6 := v } | .r7, v => { f with r7 := v }
  | .r8, v => { f with r8 := v } | .sp, v => { f with sp := v } | .fp, v => { f with fp := v }

/-- `x[k]` (00_scope.md R11). -/
def State.x (s : State) (r : Reg) : Word := s.regs.get r

/-- `x[k] <- v` (00_scope.md R11). -/
def State.setX (s : State) (r : Reg) (v : Word) : State := { s with regs := s.regs.set r v }

/-- `counter <- v` (10_state.md R25). -/
def State.setCounter (s : State) (v : Word) : State := { s with counter := v }

/-- `status <- v` (10_state.md R27). -/
def State.setStatus (s : State) (v : Status) : State := { s with status := v }

/-! ## Fetching -/

/-- `fetch8()` (40_engine.md R91). -/
def fetch8 (s : State) : Result Byte :=
  (memRead (s.x .ip) .one s).andThen fun v s1 => .done (loByte v) (s1.setX .ip (s1.x .ip + 1))

/-- `fetch16()` (40_engine.md R92). -/
def fetch16 (s : State) : Result Word :=
  (memRead (s.x .ip) .two s).andThen fun v s1 => .done v (s1.setX .ip (s1.x .ip + 2))

/-- `fetchReg()` (40_engine.md R93). -/
def fetchReg (s : State) : Result Reg := (fetch8 s).andThen fun b s1 => .done (.ofByte b) s1

/-- One operand field: `fetchReg()` for R fields, `fetch16()` for L and A fields (40_engine.md R94). -/
def fetchField (k : FieldKind) (s : State) : Result FieldValue :=
  match k with
  | .register => (fetchReg s).andThen fun r s1 => .done (.reg r) s1
  | .literal => (fetch16 s).andThen fun v s1 => .done (.word v) s1
  | .address => (fetch16 s).andThen fun v s1 => .done (.word v) s1

/-- The operand fields of a format, in order (40_engine.md R94). -/
def fetchFields : List FieldKind → State → Result (List FieldValue)
  | [], s => .done [] s
  | k :: ks, s =>
    (fetchField k s).andThen fun v s1 => (fetchFields ks s1).andThen fun vs s2 => .done (v :: vs) s2

/-- The opcode fetch, the choice of the instruction, and its decode phase (40_engine.md R94, R95, R103). The last case cannot
arise: the fields fetched have the format of the instruction. -/
def fetchInstr (s : State) : Result Instr :=
  (fetch8 s).andThen fun b s1 =>
    match s1.params.opcodeMap.assigned b with
    | none => .raised (.illegalOpcode b (s.x .ip)) s1
    | some o =>
      (fetchFields o.format.fields s1).andThen fun vs s2 =>
        match Instr.build o vs with
        | some i => .done i s2
        | none => .raised (.illegalOpcode b (s.x .ip)) s2

/-! ## Taking a fault, and leaving it -/

/-- The kind of a fault (60_exceptions.md R180). -/
def FaultInfo.kind : FaultInfo → FaultKind
  | .unmappedAddress _ _ _ => .unmappedAddress
  | .regionStraddle _ _ _ => .regionStraddle
  | .deviceRange _ _ => .deviceRange
  | .illegalOpcode _ _ => .illegalOpcode
  | .unknownRegister _ => .unknownRegister

/-- The code of a fault kind (60_exceptions.md R180). -/
def FaultKind.code : FaultKind → Nat
  | .unmappedAddress => 1
  | .regionStraddle => 2
  | .deviceRange => 3
  | .illegalOpcode => 4
  | .unknownRegister => 5

/-- The code of a fault record (60_exceptions.md R181). -/
def FaultRecord.code (r : FaultRecord) : Nat := r.info.kind.code

/-- Taking a fault: `status <- Faulted` with the record; nothing is pushed, no register is saved and control goes nowhere
(60_exceptions.md R186). `start` is the address of the instruction's opcode byte (R181). -/
def State.takeFault (s : State) (start : Word) (f : FaultInfo) : State := s.setStatus (.faulted ⟨f, start⟩)

/-- Reset, the only way out of `Faulted` and of `Halted`: the core's own state returns to its reset values; the region list,
the devices and the parameters stay (70_reset_and_hazards.md R200, decision D35; log entry 10 for the event record). -/
def State.resetCore (s : State) : State := { s with regs := resetRegs, counter := 0, status := .running }

/-- The start address of the instruction in its execute phase: `ip` stands at the first byte after it (40_engine.md R94, R98;
DEDUCED, log entry 9). -/
def State.instrStart (s : State) (o : Op) : Word := s.x .ip - BitVec.ofNat 16 o.length

/-- The outcome of an instruction from its execute phase: the state it leaves, a raised fault taken. `s` is the state the
execute phase began in. -/
def complete (o : Op) (s : State) (r : Result Unit) : Host.Outcome State Fault Refusal :=
  match r with
  | .done _ s1 => .next s1
  | .raised f s1 => .next (s1.takeFault (s.instrStart o) f)

/-! ## The stack and the frame sequencer -/

/-- `push(v)` (45_stack.md R156). -/
def push (v : Word) (s : State) : Result Unit :=
  (memWrite (s.x .sp) .two v s).andThen fun _ s1 =>
    .done () ((s1.setX .sp (s1.x .sp - 2)).setCounter (s1.counter + 2))

/-- `pop()` (45_stack.md R157): `sp` is raised before the read, the counter lowered after it. -/
def pop (s : State) : Result Word :=
  (memRead (s.x .sp + 2) .two (s.setX .sp (s.x .sp + 2))).andThen fun v s1 =>
    .done v (s1.setCounter (s1.counter - 2))

/-- Pushes the registers of a list, in order. -/
def pushRegs : List Reg → State → Result Unit
  | [], s => .done () s
  | r :: rs, s => (push (s.x r) s).andThen fun _ s1 => pushRegs rs s1

/-- Pops into the registers of a list, in order. -/
def popRegs : List Reg → State → Result Unit
  | [], s => .done () s
  | r :: rs, s => (pop s).andThen fun v s1 => popRegs rs (s1.setX r v)

/-- `repeat n times: pop()`: each value is read and discarded (46_call_return.md R166, decision D19). -/
def discard : Nat → State → Result Unit
  | 0, s => .done () s
  | n + 1, s => (pop s).andThen fun _ s1 => discard n s1

/-- The registers `pushState()` pushes, in order (46_call_return.md R165). -/
def savedRegs : List Reg := [.r1, .r2, .r3, .r4, .r5, .r6, .r7, .r8, .ip]

/-- `pushState()` (46_call_return.md R165). -/
def pushState (s : State) : Result Unit :=
  (pushRegs savedRegs s).andThen fun _ s1 =>
    (push (s1.counter + 2) s1).andThen fun _ s2 =>
      .done () ((s2.setX .fp (s2.x .sp)).setCounter 0)

/-- The counter after the marker `m` is popped (46_call_return.md R166, parameter `MarkerReload`; log entry 4). -/
def reloadCounter (p : MarkerReload) (m : Word) : Word :=
  match p with
  | .overwrite => m
  | .decrement => m - 2

/-- `popState()` (46_call_return.md R166). -/
def popState (s : State) : Result Unit :=
  (pop (s.setX .sp (s.x .fp))).andThen fun m s1 =>
    (popRegs savedRegs.reverse (s1.setCounter (reloadCounter s1.params.markerReload m))).andThen fun _ s2 =>
      (pop s2).andThen fun n s3 =>
        (discard n.toNat s3).andThen fun _ s4 =>
          .done () (s4.setX .fp (s.x .fp + m))

end Sys2Proof.Machine
end

