-- ==== Sys2Proof/Machine/Operands.lean ====
section
/-! DEFINITION. The operand forms of the execute phase: a register or a literal as a source, and the three ways an instruction
names a word in memory. Source registers are read after every field is fetched (40_engine.md R94), so `ip` reads the address of
the next instruction (R100). -/

namespace Sys2Proof.Machine

/-- A source operand. -/
inductive Source where
  | register (r : Reg)
  | literal (v : Word)
deriving DecidableEq, Repr

/-- The value of a source operand in the execute phase. -/
def Source.value (o : Source) (s : State) : Word :=
  match o with
  | .register r => s.x r
  | .literal v => v

/-- A word in memory as an instruction names it. -/
inductive MemOperand where
  /-- An address field (41_move.md R112 to R114). -/
  | direct (adr : Word)
  /-- The address a register holds (41_move.md R115). -/
  | pointer (rp : Reg)
  /-- A literal base plus the value of a register (41_move.md R116). -/
  | indexed (base : Word) (ro : Reg)
deriving DecidableEq, Repr

/-- The effective address; the indexed sum wraps modulo 65536 (20_memory.md R59, decision D13). -/
def MemOperand.address (o : MemOperand) (s : State) : Word :=
  match o with
  | .direct adr => adr
  | .pointer rp => s.x rp
  | .indexed base ro => wrap16 (base.toNat + (s.x ro).toNat)

/-- A load: `v <- MemRead(address, 2); x[rd] <- v` (41_move.md R113, R115, R116). -/
def loadWord (m : MemOperand) (rd : Reg) (s : State) : Result Unit :=
  (memRead (m.address s) .two s).andThen fun v s1 => .done () (s1.setX rd v)

/-- A store: `MemWrite(address, 2, v)` (41_move.md R112, R114). -/
def storeWord (m : MemOperand) (v : Source) (s : State) : Result Unit :=
  (memWrite (m.address s) .two (v.value s) s).andThen fun _ s1 => .done () s1

/-- A binary ALU operation: its result goes to `ac`, never to an operand register (42_arithmetic.md R117). -/
def intoAc (f : Word → Word → Word) (a b : Source) (s : State) : State := s.setX .ac (f (a.value s) (b.value s))

/-- A conditional branch (44_branch.md R140). -/
def branch (rel : Rel) (value : Source) (target : Word) (s : State) : State :=
  if rel.holds (value.value s) (s.x .ac) then s.setX .ip target else s

end Sys2Proof.Machine
end

