-- ==== Sys2Proof/Machine/Arithmetic.lean ====
section
/-! DEFINITION. Add, subtract, multiply, increment and decrement (42_arithmetic.md R117 to R126). None can fault in its execute phase.
Each meaning is the execute phase of its instruction: the state it is given is the one the decode phase leaves, with `ip` at
the next instruction (40_engine.md R94). -/

namespace Sys2Proof.Machine

/-- `ADD_REG_REG`: add two registers into `ac` (42_arithmetic.md R118). -/
def execAddRegReg (ra : Reg) (rb : Reg) (s : State) : Host.Outcome State Fault Refusal :=
  .next (intoAc aluAdd (.register ra) (.register rb) s)

/-- `ADD_LIT_REG`: add a literal and a register into `ac` (42_arithmetic.md R119). -/
def execAddLitReg (lit : Word) (ra : Reg) (s : State) : Host.Outcome State Fault Refusal :=
  .next (intoAc aluAdd (.literal lit) (.register ra) s)

/-- `SUB_LIT_REG`: register minus literal, into `ac` (decision D4) (42_arithmetic.md R120). -/
def execSubLitReg (lit : Word) (ra : Reg) (s : State) : Host.Outcome State Fault Refusal :=
  .next (intoAc aluSub (.register ra) (.literal lit) s)

/-- `SUB_REG_LIT`: literal minus register, into `ac` (decision D4) (42_arithmetic.md R121). -/
def execSubRegLit (ra : Reg) (lit : Word) (s : State) : Host.Outcome State Fault Refusal :=
  .next (intoAc aluSub (.literal lit) (.register ra) s)

/-- `SUB_REG_REG`: first register minus second, into `ac` (42_arithmetic.md R122). -/
def execSubRegReg (ra : Reg) (rb : Reg) (s : State) : Host.Outcome State Fault Refusal :=
  .next (intoAc aluSub (.register ra) (.register rb) s)

/-- `MUL_LIT_REG`: multiply a literal and a register, low 16 bits into `ac` (42_arithmetic.md R123). -/
def execMulLitReg (lit : Word) (ra : Reg) (s : State) : Host.Outcome State Fault Refusal :=
  .next (intoAc aluMul (.literal lit) (.register ra) s)

/-- `MUL_REG_REG`: multiply two registers, low 16 bits into `ac` (42_arithmetic.md R124). -/
def execMulRegReg (ra : Reg) (rb : Reg) (s : State) : Host.Outcome State Fault Refusal :=
  .next (intoAc aluMul (.register ra) (.register rb) s)

/-- `INC_REG`: increment a register in place (42_arithmetic.md R125). -/
def execIncReg (ra : Reg) (s : State) : Host.Outcome State Fault Refusal :=
  .next (s.setX ra (aluAdd (s.x ra) 1))

/-- `DEC_REG`: decrement a register in place (42_arithmetic.md R126). -/
def execDecReg (ra : Reg) (s : State) : Host.Outcome State Fault Refusal :=
  .next (s.setX ra (aluSub (s.x ra) 1))

end Sys2Proof.Machine
end

