-- ==== Sys2Proof/Machine/Bitwise.lean ====
section
/-! DEFINITION. Shifts, in place, and the logic operations, into `ac` (43_bitwise.md R127 to R138). None can fault in its execute phase.
Each meaning is the execute phase of its instruction: the state it is given is the one the decode phase leaves, with `ip` at
the next instruction (40_engine.md R94). -/

namespace Sys2Proof.Machine

/-- `LSF_REG_LIT`: shift a register left by a literal amount, in place (43_bitwise.md R128). -/
def execLsfRegLit (ra : Reg) (lit : Word) (s : State) : Host.Outcome State Fault Refusal :=
  .next (s.setX ra (aluShl s.params.shiftWide (s.x ra) lit))

/-- `LSF_REG_REG`: shift a register left by the value of another, in place (43_bitwise.md R129). -/
def execLsfRegReg (ra : Reg) (rb : Reg) (s : State) : Host.Outcome State Fault Refusal :=
  .next (s.setX ra (aluShl s.params.shiftWide (s.x ra) (s.x rb)))

/-- `RSF_REG_LIT`: shift a register right by a literal amount, in place (43_bitwise.md R130). -/
def execRsfRegLit (ra : Reg) (lit : Word) (s : State) : Host.Outcome State Fault Refusal :=
  .next (s.setX ra (aluShr s.params.shiftWide (s.x ra) lit))

/-- `RSF_REG_REG`: shift a register right by the value of another, in place (43_bitwise.md R131). -/
def execRsfRegReg (ra : Reg) (rb : Reg) (s : State) : Host.Outcome State Fault Refusal :=
  .next (s.setX ra (aluShr s.params.shiftWide (s.x ra) (s.x rb)))

/-- `AND_REG_LIT`: bitwise and of a register and a literal, into `ac` (43_bitwise.md R132). -/
def execAndRegLit (ra : Reg) (lit : Word) (s : State) : Host.Outcome State Fault Refusal :=
  .next (intoAc aluAnd (.register ra) (.literal lit) s)

/-- `AND_REG_REG`: bitwise and of two registers, into `ac` (43_bitwise.md R133). -/
def execAndRegReg (ra : Reg) (rb : Reg) (s : State) : Host.Outcome State Fault Refusal :=
  .next (intoAc aluAnd (.register ra) (.register rb) s)

/-- `OR_REG_LIT`: bitwise or of a register and a literal, into `ac` (43_bitwise.md R134). -/
def execOrRegLit (ra : Reg) (lit : Word) (s : State) : Host.Outcome State Fault Refusal :=
  .next (intoAc aluOr (.register ra) (.literal lit) s)

/-- `OR_REG_REG`: bitwise or of two registers, into `ac` (43_bitwise.md R135). -/
def execOrRegReg (ra : Reg) (rb : Reg) (s : State) : Host.Outcome State Fault Refusal :=
  .next (intoAc aluOr (.register ra) (.register rb) s)

/-- `XOR_REG_LIT`: bitwise exclusive or of a register and a literal, into `ac` (43_bitwise.md R136). -/
def execXorRegLit (ra : Reg) (lit : Word) (s : State) : Host.Outcome State Fault Refusal :=
  .next (intoAc aluXor (.register ra) (.literal lit) s)

/-- `XOR_REG_REG`: bitwise exclusive or of two registers, into `ac` (43_bitwise.md R137). -/
def execXorRegReg (ra : Reg) (rb : Reg) (s : State) : Host.Outcome State Fault Refusal :=
  .next (intoAc aluXor (.register ra) (.register rb) s)

/-- `NOT`: bitwise complement of a register, into `ac` (43_bitwise.md R138). -/
def execNotReg (ra : Reg) (s : State) : Host.Outcome State Fault Refusal :=
  .next (s.setX .ac (aluNot (s.x ra)))

end Sys2Proof.Machine
end

