-- ==== Sys2Proof/Machine/Branch.lean ====
section
/-! DEFINITION. The twelve conditional branches (44_branch.md R140 to R152). The target is not fetched from or checked, so none can fault in its execute phase.
Each meaning is the execute phase of its instruction: the state it is given is the one the decode phase leaves, with `ip` at
the next instruction (40_engine.md R94). -/

namespace Sys2Proof.Machine

/-- `JNE_LIT`: jump if the literal differs from `ac` (44_branch.md R141). -/
def execJneLit (lit : Word) (adr : Word) (s : State) : Host.Outcome State Fault Refusal :=
  .next (branch .ne (.literal lit) adr s)

/-- `JNE_REG`: jump if the register differs from `ac` (44_branch.md R142). -/
def execJneReg (ra : Reg) (adr : Word) (s : State) : Host.Outcome State Fault Refusal :=
  .next (branch .ne (.register ra) adr s)

/-- `JEQ_LIT`: jump if the literal equals `ac` (44_branch.md R143). -/
def execJeqLit (lit : Word) (adr : Word) (s : State) : Host.Outcome State Fault Refusal :=
  .next (branch .eq (.literal lit) adr s)

/-- `JEQ_REG`: jump if the register equals `ac` (44_branch.md R144). -/
def execJeqReg (ra : Reg) (adr : Word) (s : State) : Host.Outcome State Fault Refusal :=
  .next (branch .eq (.register ra) adr s)

/-- `JLT_LIT`: jump if the literal is less than `ac` (44_branch.md R145). -/
def execJltLit (lit : Word) (adr : Word) (s : State) : Host.Outcome State Fault Refusal :=
  .next (branch .lt (.literal lit) adr s)

/-- `JLT_REG`: jump if the register is less than `ac` (44_branch.md R146). -/
def execJltReg (ra : Reg) (adr : Word) (s : State) : Host.Outcome State Fault Refusal :=
  .next (branch .lt (.register ra) adr s)

/-- `JGT_LIT`: jump if the literal is greater than `ac` (44_branch.md R147). -/
def execJgtLit (lit : Word) (adr : Word) (s : State) : Host.Outcome State Fault Refusal :=
  .next (branch .gt (.literal lit) adr s)

/-- `JGT_REG`: jump if the register is greater than `ac` (44_branch.md R148). -/
def execJgtReg (ra : Reg) (adr : Word) (s : State) : Host.Outcome State Fault Refusal :=
  .next (branch .gt (.register ra) adr s)

/-- `JLE_LIT`: jump if the literal is less than or equal to `ac` (44_branch.md R149). -/
def execJleLit (lit : Word) (adr : Word) (s : State) : Host.Outcome State Fault Refusal :=
  .next (branch .le (.literal lit) adr s)

/-- `JLE_REG`: jump if the register is less than or equal to `ac` (44_branch.md R150). -/
def execJleReg (ra : Reg) (adr : Word) (s : State) : Host.Outcome State Fault Refusal :=
  .next (branch .le (.register ra) adr s)

/-- `JGE_LIT`: jump if the literal is greater than or equal to `ac` (44_branch.md R151). -/
def execJgeLit (lit : Word) (adr : Word) (s : State) : Host.Outcome State Fault Refusal :=
  .next (branch .ge (.literal lit) adr s)

/-- `JGE_REG`: jump if the register is greater than or equal to `ac` (44_branch.md R152). -/
def execJgeReg (ra : Reg) (adr : Word) (s : State) : Host.Outcome State Fault Refusal :=
  .next (branch .ge (.register ra) adr s)

end Sys2Proof.Machine
end

