-- ==== Sys2Proof/Machine/Call.lean ====
section
/-! DEFINITION. Call and return (46_call_return.md R165 to R169).
Each meaning is the execute phase of its instruction: the state it is given is the one the decode phase leaves, with `ip` at
the next instruction (40_engine.md R94). -/

namespace Sys2Proof.Machine

/-- `CAL_LIT`: call a literal address (46_call_return.md R167). -/
def execCalLit (adr : Word) (s : State) : Host.Outcome State Fault Refusal :=
  complete .calLit s ((pushState s).andThen fun _ s1 => .done () (s1.setX .ip adr))

/-- `CAL_REG`: call the address held in a register, read before `pushState()` begins (decision D6) (46_call_return.md R168). -/
def execCalReg (ra : Reg) (s : State) : Host.Outcome State Fault Refusal :=
  complete .calReg s ((pushState s).andThen fun _ s1 => .done () (s1.setX .ip (s.x ra)))

/-- `RET`: return from a call by `popState()` (46_call_return.md R169). -/
def execRet (s : State) : Host.Outcome State Fault Refusal :=
  complete .ret s (popState s)

end Sys2Proof.Machine
end

