-- ==== Sys2Proof/Machine/Halt.lean ====
section
/-! DEFINITION. Halt (47_halt.md R175).
Each meaning is the execute phase of its instruction: the state it is given is the one the decode phase leaves, with `ip` at
the next instruction (40_engine.md R94). -/

namespace Sys2Proof.Machine

/-- `HLT`: stop the core: `status <- Halted` is latched until reset (47_halt.md R175). -/
def execHlt (s : State) : Host.Outcome State Fault Refusal :=
  .next (s.setStatus .halted)

end Sys2Proof.Machine
end

