-- ==== Sys2Proof/Machine/Move.lean ====
section
/-! DEFINITION. The seven moves (41_move.md R110 to R116).
Each meaning is the execute phase of its instruction: the state it is given is the one the decode phase leaves, with `ip` at
the next instruction (40_engine.md R94). -/

namespace Sys2Proof.Machine

/-- `MOV_LIT_REG`: move a literal into a register (41_move.md R110). -/
def execMovLitReg (lit : Word) (rd : Reg) (s : State) : Host.Outcome State Fault Refusal :=
  .next (s.setX rd lit)

/-- `MOV_REG_REG`: copy one register into another (41_move.md R111). -/
def execMovRegReg (rs : Reg) (rd : Reg) (s : State) : Host.Outcome State Fault Refusal :=
  .next (s.setX rd (s.x rs))

/-- `MOV_REG_MEM`: store a register to memory (41_move.md R112). -/
def execMovRegMem (rs : Reg) (adr : Word) (s : State) : Host.Outcome State Fault Refusal :=
  complete .movRegMem s (storeWord (.direct adr) (.register rs) s)

/-- `MOV_MEM_REG`: load a register from memory (41_move.md R113). -/
def execMovMemReg (adr : Word) (rd : Reg) (s : State) : Host.Outcome State Fault Refusal :=
  complete .movMemReg s (loadWord (.direct adr) rd s)

/-- `MOV_LIT_MEM`: store a literal to memory (41_move.md R114). -/
def execMovLitMem (lit : Word) (adr : Word) (s : State) : Host.Outcome State Fault Refusal :=
  complete .movLitMem s (storeWord (.direct adr) (.literal lit) s)

/-- `MOV_REG_PTR_REG`: load through a register holding an address (41_move.md R115). -/
def execMovRegPtrReg (rp : Reg) (rd : Reg) (s : State) : Host.Outcome State Fault Refusal :=
  complete .movRegPtrReg s (loadWord (.pointer rp) rd s)

/-- `MOV_LIT_OFF_REG`: load from a literal base plus a register offset (41_move.md R116). -/
def execMovLitOffReg (base : Word) (ro : Reg) (rd : Reg) (s : State) : Host.Outcome State Fault Refusal :=
  complete .movLitOffReg s (loadWord (.indexed base ro) rd s)

end Sys2Proof.Machine
end

