-- ==== Sys2Proof/Machine/Stack.lean ====
section
/-! DEFINITION. Push and pop (45_stack.md R156 to R161).
Each meaning is the execute phase of its instruction: the state it is given is the one the decode phase leaves, with `ip` at
the next instruction (40_engine.md R94). -/

namespace Sys2Proof.Machine

/-- `PSH_LIT`: push a literal (45_stack.md R159). -/
def execPshLit (lit : Word) (s : State) : Host.Outcome State Fault Refusal :=
  complete .pshLit s (push lit s)

/-- `PSH_REG`: push a register (45_stack.md R160). -/
def execPshReg (ra : Reg) (s : State) : Host.Outcome State Fault Refusal :=
  complete .pshReg s (push (s.x ra) s)

/-- `POP`: pop into a register; with `rd` = `sp` the popped value stays (45_stack.md R161). -/
def execPop (rd : Reg) (s : State) : Host.Outcome State Fault Refusal :=
  complete .pop s ((pop s).andThen fun v s1 => .done () (s1.setX rd v))

end Sys2Proof.Machine
end

