-- ==== Sys2Proof/Machine/Dispatch.lean ====
section
/-! DEFINITION. exec: one arm per instruction, each a direct call of its meaning. -/

namespace Sys2Proof.Machine

def exec (i : Instr) (s : State) : Host.Outcome State Fault Refusal :=
  match i with
  | .movLitReg lit rd => Sys2Proof.Machine.execMovLitReg lit rd s
  | .movRegReg rs rd => Sys2Proof.Machine.execMovRegReg rs rd s
  | .movRegMem rs adr => Sys2Proof.Machine.execMovRegMem rs adr s
  | .movMemReg adr rd => Sys2Proof.Machine.execMovMemReg adr rd s
  | .movLitMem lit adr => Sys2Proof.Machine.execMovLitMem lit adr s
  | .movRegPtrReg rp rd => Sys2Proof.Machine.execMovRegPtrReg rp rd s
  | .movLitOffReg base ro rd => Sys2Proof.Machine.execMovLitOffReg base ro rd s
  | .addRegReg ra rb => Sys2Proof.Machine.execAddRegReg ra rb s
  | .addLitReg lit ra => Sys2Proof.Machine.execAddLitReg lit ra s
  | .subLitReg lit ra => Sys2Proof.Machine.execSubLitReg lit ra s
  | .subRegLit ra lit => Sys2Proof.Machine.execSubRegLit ra lit s
  | .subRegReg ra rb => Sys2Proof.Machine.execSubRegReg ra rb s
  | .mulLitReg lit ra => Sys2Proof.Machine.execMulLitReg lit ra s
  | .mulRegReg ra rb => Sys2Proof.Machine.execMulRegReg ra rb s
  | .incReg ra => Sys2Proof.Machine.execIncReg ra s
  | .decReg ra => Sys2Proof.Machine.execDecReg ra s
  | .lsfRegLit ra lit => Sys2Proof.Machine.execLsfRegLit ra lit s
  | .lsfRegReg ra rb => Sys2Proof.Machine.execLsfRegReg ra rb s
  | .rsfRegLit ra lit => Sys2Proof.Machine.execRsfRegLit ra lit s
  | .rsfRegReg ra rb => Sys2Proof.Machine.execRsfRegReg ra rb s
  | .andRegLit ra lit => Sys2Proof.Machine.execAndRegLit ra lit s
  | .andRegReg ra rb => Sys2Proof.Machine.execAndRegReg ra rb s
  | .orRegLit ra lit => Sys2Proof.Machine.execOrRegLit ra lit s
  | .orRegReg ra rb => Sys2Proof.Machine.execOrRegReg ra rb s
  | .xorRegLit ra lit => Sys2Proof.Machine.execXorRegLit ra lit s
  | .xorRegReg ra rb => Sys2Proof.Machine.execXorRegReg ra rb s
  | .notReg ra => Sys2Proof.Machine.execNotReg ra s
  | .jneLit lit adr => Sys2Proof.Machine.execJneLit lit adr s
  | .jneReg ra adr => Sys2Proof.Machine.execJneReg ra adr s
  | .jeqLit lit adr => Sys2Proof.Machine.execJeqLit lit adr s
  | .jeqReg ra adr => Sys2Proof.Machine.execJeqReg ra adr s
  | .jltLit lit adr => Sys2Proof.Machine.execJltLit lit adr s
  | .jltReg ra adr => Sys2Proof.Machine.execJltReg ra adr s
  | .jgtLit lit adr => Sys2Proof.Machine.execJgtLit lit adr s
  | .jgtReg ra adr => Sys2Proof.Machine.execJgtReg ra adr s
  | .jleLit lit adr => Sys2Proof.Machine.execJleLit lit adr s
  | .jleReg ra adr => Sys2Proof.Machine.execJleReg ra adr s
  | .jgeLit lit adr => Sys2Proof.Machine.execJgeLit lit adr s
  | .jgeReg ra adr => Sys2Proof.Machine.execJgeReg ra adr s
  | .pshLit lit => Sys2Proof.Machine.execPshLit lit s
  | .pshReg ra => Sys2Proof.Machine.execPshReg ra s
  | .pop rd => Sys2Proof.Machine.execPop rd s
  | .calLit adr => Sys2Proof.Machine.execCalLit adr s
  | .calReg ra => Sys2Proof.Machine.execCalReg ra s
  | .ret => Sys2Proof.Machine.execRet s
  | .hlt => Sys2Proof.Machine.execHlt s

end Sys2Proof.Machine
end

