-- ==== Sys2Proof/Machine/Loader.lean ====
section
/-! DEFINITION. The host's program load: writing bytes into devices before the first step (20_memory.md R70, 60_exceptions.md
R197). It is no transaction of a step and is not recorded. -/

namespace Sys2Proof.Machine

/-- One byte loaded at an address, through the multiplexer; where no region contains the address or the device refuses it,
nothing changes (log entry 6). -/
def State.loadByte (s : State) (a : Word) (b : Byte) : State :=
  { s with devices := (s.busWrite a .one (b.setWidth 16)).devices }

/-- Bytes loaded at consecutive addresses, modulo 65536 (20_memory.md R59). -/
def State.load (s : State) (a : Word) : List Byte → State
  | [] => s
  | b :: bs => (s.loadByte a b).load (a + 1) bs

/-- A RAM device with bytes set at consecutive offsets, as far as it has them; other devices hold no bytes to set. -/
def Device.fill : Device → Nat → List Byte → Device
  | d, _, [] => d
  | .ram n m, o, b :: bs => Device.fill (if o < n then .ram n (Memory.write m o b) else .ram n m) (o + 1) bs
  | .screen, _, _ => .screen
  | .external hist, _, _ => .external hist

/-- Bytes loaded into a device directly, from an offset up, whatever the region list says (20_memory.md R70). -/
def State.loadDevice (s : State) (h o : Nat) (bs : List Byte) : State :=
  { s with devices := s.devices.set h ((s.device h).fill o bs) }

end Sys2Proof.Machine
end

