-- ==== Sys2Proof/Machine/Step.lean ====
section
/-! DEFINITION. The step: one instruction, or nothing in a latched core (40_engine.md R95). -/

namespace Sys2Proof.Machine

/-- `step()` (40_engine.md R95). While the core is `Halted` or `Faulted` it changes nothing (R175, R188). Otherwise the opcode
and the operand fields are fetched and the instruction is executed; a fault raised while fetching is taken with the start
address of the instruction. What `step()` returns to the host is read off the status (`State.response`). -/
def step (s : State) : Host.Outcome State Fault Refusal :=
  match s.status with
  | .halted => .next s
  | .faulted _ => .next s
  | .running =>
    match fetchInstr s with
    | .done i s1 => exec i s1
    | .raised f s1 => .next (s1.takeFault (s.x .ip) f)

/-- The state with the instruction whose bits are `w` loaded where the next step fetches it, and the core running: the host's
program load (log entry 6). -/
def State.withFetchWord (s : State) (nbits w : Nat) : State :=
  (s.setStatus .running).load (s.x .ip) (tableBytes nbits w)

end Sys2Proof.Machine
end

