-- ==== Sys2Proof/Machine/HostPort.lean ====
section
/-! DEFINITION. The host port (40_engine.md R90, 60_exceptions.md R197): what the host does between steps. Reset is
`State.resetCore`, loading a program `State.load`. -/

namespace Sys2Proof.Machine

/-! ## Steps and runs -/

/-- What `step()` and `run()` return (60_exceptions.md R197). -/
inductive StepResponse where
  | cont
  | halted
  | faulted (record : FaultRecord)
deriving DecidableEq, Repr

/-- `CONTINUE`, `HALTED` or `FAULTED(record)`, from the status after the step (40_engine.md R95). -/
def State.response (s : State) : StepResponse :=
  match s.status with
  | .running => .cont
  | .halted => .halted
  | .faulted r => .faulted r

/-- `step()` as the host sees it: the state after it and what it returns. -/
def hostStep (s : State) : Host.Outcome (State × StepResponse) Fault Refusal :=
  match step s with
  | .next t => .next (t, t.response)
  | .fault f => .fault f
  | .refused r => .refused r

/-- `run()` for at most `n` steps: `step()` repeated until it returns `HALTED` or `FAULTED` (40_engine.md R97); `none` where it
returned neither in `n` steps. -/
def hostRun : Nat → State → Option (State × StepResponse)
  | 0, _ => none
  | n + 1, s =>
    match hostStep s with
    | .next (t, .cont) => hostRun n t
    | .next (t, r) => some (t, r)
    | _ => none

/-! ## Registers by name -/

/-- The name of a register (10_state.md R20). -/
def Reg.hostName : Reg → String
  | .ip => "ip" | .ac => "ac" | .r1 => "r1" | .r2 => "r2" | .r3 => "r3" | .r4 => "r4"
  | .r5 => "r5" | .r6 => "r6" | .r7 => "r7" | .r8 => "r8" | .sp => "sp" | .fp => "fp"

/-- The register with a name, if it is one of the twelve (10_state.md R31; log entry 19). -/
def regNamed (name : String) : Option Reg := Reg.all.find? fun r => Reg.hostName r == name

/-- An answer to the host: a value, or an error that changes no state of the core. -/
inductive Answer (α : Type) where
  | ok (a : α)
  | error (f : FaultInfo)
deriving DecidableEq, Repr

/-- `get(name)` (10_state.md R31, 60_exceptions.md R185). -/
def State.hostGet (s : State) (name : String) : Answer Word :=
  match regNamed name with
  | some r => .ok (s.x r)
  | none => .error (.unknownRegister name)

/-- `set(name, v)`: stores `wrap16(v)`, or returns the error and changes nothing (10_state.md R31, 60_exceptions.md R185). -/
def State.hostSet (s : State) (name : String) (v : Int) : Answer State :=
  match regNamed name with
  | some r => .ok (s.setX r (wrap16 v))
  | none => .error (.unknownRegister name)

/-- The register dump: the 12 pairs in the order of 10_state.md R20 (R32). -/
def State.registerDump (s : State) : List (String × Word) := Reg.all.map fun r => (Reg.hostName r, s.x r)

/-! ## The region list -/

/-- A device attached to the platform: the state, and the handle that names the device in `map`. -/
def State.attach (s : State) (d : Device) : State × Nat := ({ s with devices := s.devices ++ [d] }, s.devices.length)

/-- `map(device, start, end, remap = 1) -> token`: the new region is checked before all others (20_memory.md R42, R68). -/
def State.mapRegion (s : State) (device : Nat) (start last : Word) (remap : Bool := true) : State × Nat :=
  ({ s with
      regions := { token := s.nextToken, device := device, start := start, last := last, remap := remap } :: s.regions
      nextToken := s.nextToken + 1 }, s.nextToken)

/-- `unmap(token)`: exactly that region is removed; a token of no region changes nothing (20_memory.md R42, R68). -/
def State.unmapRegion (s : State) (token : Nat) : State :=
  { s with regions := s.regions.filter fun g => g.token != token }

/-! ## The memory dump -/

/-- The memory-window dump: `MemRead(wrap16(a + i), 1)` for i = 0..n-1 (20_memory.md R71). No register, counter, status or event
changes; an attached external device still sees its reads (log entry 21). -/
def memoryDump : Nat → Word → State → Answer (List Byte) × State
  | 0, _, s => (.ok [], s)
  | n + 1, a, s =>
    match (s.busRead a .one).result with
    | .fault f => (.error f, { s with devices := (s.busRead a .one).devices })
    | .value v =>
      match memoryDump n (a + 1) { s with devices := (s.busRead a .one).devices } with
      | (.ok bs, s1) => (.ok (loByte v :: bs), s1)
      | (.error f, s1) => (.error f, s1)

/-! ## The observer -/

/-- The event record in the order the transactions were made (20_memory.md R67). -/
def State.trace (s : State) : List Event := s.events.reverse

/-- A 16-bit write that reached the screen: the program's visible output (20_memory.md R57). -/
structure ScreenWrite where
  offset : Word
  word : Word
deriving DecidableEq, Repr

/-- `column = (o mod 16) + 1` (20_memory.md R57). -/
def ScreenWrite.column (w : ScreenWrite) : Nat := w.offset.toNat % 16 + 1

/-- `row = (o / 16) + 1` (20_memory.md R57). -/
def ScreenWrite.row (w : ScreenWrite) : Nat := w.offset.toNat / 16 + 1

/-- The command code: the high byte (20_memory.md R57). -/
def ScreenWrite.command (w : ScreenWrite) : Byte := hiByte w.word

/-- The payload: the low byte (20_memory.md R57). -/
def ScreenWrite.payload (w : ScreenWrite) : Byte := loByte w.word

/-- The name the parameter `ScreenCommands` gives the command, if any (decision D29; log entry 15). -/
def ScreenWrite.commandName (p : Params) (w : ScreenWrite) : Option String :=
  (p.screenCommands.find? fun c => c.1 == w.command).map Prod.snd

/-- Whether a device is the screen. -/
def Device.isScreen : Device → Bool
  | .ram _ _ => false
  | .screen => true
  | .external _ => false

/-- The screen write an event is, if it is one. -/
def State.screenWriteOf (s : State) (e : Event) : Option ScreenWrite :=
  match e.kind, e.width, e.region, e.offset, e.result with
  | .write, .two, some g, some o, .value v => if (s.device g.device).isScreen then some ⟨o, v⟩ else none
  | _, _, _, _, _ => none

/-- The ordered record of screen writes (20_memory.md R67, 70_reset_and_hazards.md R210). -/
def State.screenWrites (s : State) : List ScreenWrite := s.trace.filterMap s.screenWriteOf

end Sys2Proof.Machine
end

