-- ==== Sys2Proof/Safety.lean ====
section
/-! DEFINITION. The terms the claims use: well-formed states, where a word lies, what an instruction leaves unchanged, the frame
invariant, and what stands at `ip`. -/

namespace Sys2Proof.Machine

/-! ## Well-formed states -/

/-- Every region names an attached device and carries a token of its own, older than the next one (20_memory.md R68). -/
def State.regionsWf (s : State) : Bool :=
  s.regions.all (fun g => decide (g.device < s.devices.length) && decide (g.token < s.nextToken)) &&
    decide (s.regions.map Region.token).Nodup

/-- A well-formed state: every RAM device's memory is canonical and within the device, the regions are well formed, and the
opcode map is injective. Reset is well formed and every step keeps it. -/
def State.wf (s : State) : Bool := s.devices.all Device.wf && s.regionsWf && s.params.wf

/-! ## Where a word lies -/

/-- The RAM device and offset of the 16-bit word at an address, where the access reaches RAM with room for both bytes: the
first region containing the address decides alone, and the address is not the region's last (20_memory.md R46 to R48, R56). -/
def State.ramWord (s : State) (a : Word) : Option (Nat × Nat) :=
  match resolve s.regions a with
  | none => none
  | some g =>
    if a = g.last then none
    else match s.device g.device with
      | .ram n _ => if (g.offset a).toNat + 1 < n then some (g.device, (g.offset a).toNat) else none
      | .screen => none
      | .external _ => none

/-- The screen's local offset of the 16-bit word at an address, where the access reaches the screen (20_memory.md R57). -/
def State.screenWord (s : State) (a : Word) : Option Word :=
  match resolve s.regions a with
  | none => none
  | some g =>
    if a = g.last then none
    else match s.device g.device with
      | .ram _ _ => none
      | .screen => some (g.offset a)
      | .external _ => none

/-- The word a 16-bit read of RAM or of the screen gives: two bytes, the high one first, or 0 (20_memory.md R53, R57); `none`
where the access faults or reaches another device. -/
def State.wordAt (s : State) (a : Word) : Option Word :=
  match s.ramWord a, s.screenWord a with
  | some p, _ => some (wordOfBytes (s.ramByte p.1 p.2) (s.ramByte p.1 (p.2 + 1)))
  | none, some _ => some 0
  | none, none => none

/-- The byte an 8-bit read of RAM or of the screen gives, and `none` otherwise. -/
def State.byteAt (s : State) (a : Word) : Option Byte :=
  match resolve s.regions a with
  | none => none
  | some g =>
    match s.device g.device with
    | .ram n b => if (g.offset a).toNat < n then some (Memory.read b (g.offset a).toNat) else none
    | .screen => some 0
    | .external _ => none

/-- The places of the two bytes a 16-bit store at an address goes to: (device, offset) pairs; none where it reaches no device. -/
def State.storedPlaces (s : State) (a : Word) : List (Nat × Nat) :=
  match s.target .write a .two with
  | .fault _ _ => []
  | .device g o => [(g.device, o.toNat), (g.device, o.toNat + 1)]

/-- The slot of a stack word at an address in one region: the region the address resolves to, RAM with room for both bytes. -/
def State.slotIn (s : State) (g : Region) (a : Word) : Bool :=
  decide (resolve s.regions a = some g) && (s.ramWord a).isSome

/-- The k-th slot a call pushes to, from 0: `sp - 2k` (46_call_return.md R170). -/
def State.pushSlot (s : State) (k : Nat) : Word := s.x .sp - BitVec.ofNat 16 (2 * k)

/-- The k-th slot a return pops from, from 1: `fp + 2k` (46_call_return.md R169). -/
def State.popSlot (s : State) (k : Nat) : Word := s.x .fp + BitVec.ofNat 16 (2 * k)

/-- The words a call pushes, in order (46_call_return.md R165, R170). -/
def State.frameWords (s : State) : List Word :=
  [s.x .r1, s.x .r2, s.x .r3, s.x .r4, s.x .r5, s.x .r6, s.x .r7, s.x .r8, s.x .ip, s.counter + 20]

/-! ## Recorded transactions -/

/-- The pushes of a list of words, recorded: `evs`, most recent first, are as many events as there are words, and the k-th of them
to be made is the completed 16-bit write of the k-th word at the k-th slot (45_stack.md R156, 20_memory.md R67). -/
def State.RecordsPushes (s : State) (ws : List Word) (evs : List Event) : Prop :=
  evs.length = ws.length ∧ ∀ k v, ws[k]? = some v → ∃ e, evs.reverse[k]? = some e ∧ e.kind = .write ∧ e.width = .two ∧
    e.addr = s.pushSlot k ∧ e.result = .value v

/-- The transaction of an event reached the device with a handle. -/
def Event.reaches (e : Event) (h : Nat) : Bool := e.offset.isSome && decide (e.region.map Region.device = some h)

/-- How many transactions the execute phase of an instruction makes where it completes (41_move.md R112 to R116, 45_stack.md R159
to R161, 46_call_return.md R165, R166); a return makes one more for each argument word it discards. -/
def dataTransactions (i : Instr) : Nat :=
  if i.op ∈ [.movRegMem, .movMemReg, .movLitMem, .movRegPtrReg, .movLitOffReg, .pshLit, .pshReg, .pop] then 1
  else if i.op ∈ [.calLit, .calReg] then 10
  else if i.op = .ret then 11
  else 0

/-! ## Frames -/

/-- Every register outside a list is unchanged. -/
def SameRegs (except : List Reg) (s t : State) : Prop := ∀ r, r ∉ except → t.x r = s.x r

/-- The region list, the tokens and the parameters are unchanged (20_memory.md R69, 10_state.md R30). -/
def SamePlatform (s t : State) : Prop :=
  t.regions = s.regions ∧ t.nextToken = s.nextToken ∧ t.params = s.params

/-- Every byte of every RAM device outside a list of (device, offset) places reads as before. -/
def SameBytes (except : List (Nat × Nat)) (s t : State) : Prop :=
  ∀ h o, (h, o) ∉ except → t.ramByte h o = s.ramByte h o

/-- Nothing but the registers of a list has changed: no memory, counter, status, device, region, parameter or event. -/
def RegFrame (except : List Reg) (s t : State) : Prop :=
  SameRegs except s t ∧ t.counter = s.counter ∧ t.status = s.status ∧ SamePlatform s t ∧
    t.devices = s.devices ∧ SameBytes [] s t ∧ t.events = s.events

/-- The effect of one 16-bit read at `a` with result `r`: nothing but the registers of a list, the device read and the event. -/
def ReadFrame (except : List Reg) (a : Word) (s t : State) : Prop :=
  SameRegs except s t ∧ SamePlatform s t ∧ SameBytes [] s t ∧
    t.devices = (s.busRead a .two).devices ∧ t.events = (s.busRead a .two).event .read .two a :: s.events

/-- The effect of one 16-bit write of `v` at `a`: nothing but the registers of a list, the bytes stored and the event. The two
bytes stored are v's, high byte first, wherever memory is in its canonical form. -/
def WriteFrame (except : List Reg) (a v : Word) (s t : State) : Prop :=
  SameRegs except s t ∧ SamePlatform s t ∧ SameBytes (s.storedPlaces a) s t ∧
    (s.wf = true → ∀ p, s.ramWord a = some p → t.ramByte p.1 p.2 = hiByte v ∧ t.ramByte p.1 (p.2 + 1) = loByte v) ∧
    t.devices = (s.busWrite a .two v).devices ∧ t.events = (s.busWrite a .two v).event .write .two a :: s.events

/-- The effect of a call: the ten words of the frame pushed and recorded, `fp` at the lowered `sp`, the counter cleared, `ip` at the
target, and nothing else changed (46_call_return.md R165, R167, R168). -/
def Called (s : State) (target : Word) (t : State) : Prop :=
  t.x .ip = target ∧ t.x .sp = s.x .sp - 20 ∧ t.x .fp = s.x .sp - 20 ∧ t.counter = 0 ∧ t.status = s.status ∧
    SameRegs [.ip, .sp, .fp] s t ∧ SamePlatform s t ∧
    SameBytes ((List.range 10).flatMap fun k => s.storedPlaces (s.pushSlot k)) s t ∧
    ∃ evs : List Event, t.events = evs ++ s.events ∧ evs.length = 10 ∧ s.RecordsPushes s.frameWords evs

/-- The frame invariant I: `counter = wrap16(fp - sp)` (46_call_return.md R172). -/
def FrameInvariant (s : State) : Prop := s.counter = s.x .fp - s.x .sp

/-- The register an instruction names as its destination field, if any (40_engine.md R98, R100). -/
def destination : Instr → Option Reg
  | .movLitReg _ rd => some rd
  | .movRegReg _ rd => some rd
  | .movRegMem _ _ => none
  | .movMemReg _ rd => some rd
  | .movLitMem _ _ => none
  | .movRegPtrReg _ rd => some rd
  | .movLitOffReg _ _ rd => some rd
  | .addRegReg _ _ => none
  | .addLitReg _ _ => none
  | .subLitReg _ _ => none
  | .subRegLit _ _ => none
  | .subRegReg _ _ => none
  | .mulLitReg _ _ => none
  | .mulRegReg _ _ => none
  | .incReg ra => some ra
  | .decReg ra => some ra
  | .lsfRegLit ra _ => some ra
  | .lsfRegReg ra _ => some ra
  | .rsfRegLit ra _ => some ra
  | .rsfRegReg ra _ => some ra
  | .andRegLit _ _ => none
  | .andRegReg _ _ => none
  | .orRegLit _ _ => none
  | .orRegReg _ _ => none
  | .xorRegLit _ _ => none
  | .xorRegReg _ _ => none
  | .notReg _ => none
  | .jneLit _ _ => none
  | .jneReg _ _ => none
  | .jeqLit _ _ => none
  | .jeqReg _ _ => none
  | .jltLit _ _ => none
  | .jltReg _ _ => none
  | .jgtLit _ _ => none
  | .jgtReg _ _ => none
  | .jleLit _ _ => none
  | .jleReg _ _ => none
  | .jgeLit _ _ => none
  | .jgeReg _ _ => none
  | .pshLit _ => none
  | .pshReg _ => none
  | .pop rd => some rd
  | .calLit _ => none
  | .calReg _ => none
  | .ret => none
  | .hlt => none

/-- The instructions that may select another `ip` than the fall-through: branches, calls, the return, and a register write that
names `ip` (40_engine.md R98). -/
def mayWriteIp (i : Instr) : Bool :=
  decide (destination i = some .ip) ||
    decide (i.op ∈ [.jneLit, .jneReg, .jeqLit, .jeqReg, .jltLit, .jltReg, .jgtLit, .jgtReg, .jleLit, .jleReg, .jgeLit, .jgeReg,
      .calLit, .calReg, .ret])

/-! ## What stands at an address -/

/-- The bytes of a list stand at an address as the fields of a format are fetched: each register field by one 8-bit read, each
literal or address field by one 16-bit read (40_engine.md R91 to R94), in RAM or the screen. -/
def State.fieldsAt (s : State) : Word → List FieldKind → List Byte → Prop
  | _, [], bs => bs = []
  | a, .register :: ks, b :: bs => s.byteAt a = some b ∧ s.fieldsAt (a + 1) ks bs
  | a, .literal :: ks, hi :: lo :: bs => s.wordAt a = some (wordOfBytes hi lo) ∧ s.fieldsAt (a + 2) ks bs
  | a, .address :: ks, hi :: lo :: bs => s.wordAt a = some (wordOfBytes hi lo) ∧ s.fieldsAt (a + 2) ks bs
  | _, _, _ => False

/-- The bytes `b :: bs` stand at `ip` as an instruction's opcode byte and operand fields. -/
def State.codeAtIp (s : State) (o : Op) (b : Byte) (bs : List Byte) : Prop :=
  s.byteAt (s.x .ip) = some b ∧ s.fieldsAt (s.x .ip + 1) o.format.fields bs

end Sys2Proof.Machine
end

