-- ==== Sys2Proof/Certificates/Slice0/Obligations.lean ====
section
/-! DEFINITION. The statements for the provers, in the order of spec/. -/

open Sys2Proof Sys2Proof.Machine

/-! ## Encoding (30_encoding.md) -/

/-- Decoding an encoded instruction gives it back with the bytes after it, for every instruction, every operand value and every
injective opcode map (R77, R79, R81, R82, R85). -/
def Obligations.DecodeEncodeRoundTrip : Prop :=
  ∀ m : OpcodeMap, m.wf = true → ∀ (i : Instr) (rest : List Byte), decode m (encode m i ++ rest) = .instr i rest

/-- The opcode byte alone gives the length, 1 to 5 bytes (R75, R78). -/
def Obligations.DecodedLengthComesFromTheOpcode : Prop :=
  ∀ (m : OpcodeMap) (bs : List Byte) (i : Instr) (rest : List Byte), decode m bs = .instr i rest →
    ∃ b operands, bs = b :: (operands ++ rest) ∧ m.assigned b = some i.op ∧ 1 + operands.length = i.op.length ∧
      1 ≤ i.op.length ∧ i.op.length ≤ 5

/-- Every byte sequence decodes to the instruction its first byte is assigned to, or is rejected because its first byte is
assigned to none (R80, R84, R85), or is too short for its instruction: that third outcome, `truncated`, is the model's choice, log
entry 16. -/
def Obligations.DecoderIsTotal : Prop :=
  ∀ (m : OpcodeMap) (b : Byte) (bs : List Byte),
    (decode m (b :: bs) = .unassignedOpcode b ↔ ∀ o, m.byteOf o ≠ b) ∧
    ∀ o, m.assigned b = some o →
      (o.length ≤ 1 + bs.length → ∃ i rest, decode m (b :: bs) = .instr i rest ∧ i.op = o) ∧
      (1 + bs.length < o.length → decode m (b :: bs) = .truncated)

/-- A register byte b names register b mod 12 of the twelve in order, whose slot is at byte offset 2(b mod 12) of the 24-byte
store: every byte value names a register (R81). -/
def Obligations.RegisterByteIsReducedModTwelve : Prop :=
  ∀ b : Byte, Reg.all[b.toNat % 12]? = some (Reg.ofByte b) ∧ (Reg.ofByte b).index = b.toNat % 12 ∧
    (Reg.ofByte b).byteOffset = 2 * (b.toNat % 12) ∧ (Reg.ofByte b).byteOffset + 1 < 24

/-- Words written out from the examples of R110, R113, R120, R128, R143, R159, R167 and R175 decode to their instructions. -/
def Obligations.WordsOfTheSpecDecode : Prop :=
  decode .default [0x10, 0x12, 0x34, 0x02] = .instr (.movLitReg 0x1234 .r1) [] ∧
  decode .default [0x13, 0x01, 0x00, 0x03] = .instr (.movMemReg 0x0100 .r2) [] ∧
  decode .default [0x16, 0x00, 0x03, 0x02] = .instr (.subLitReg 0x0003 .r1) [] ∧
  decode .default [0x26, 0x02, 0x00, 0x04] = .instr (.lsfRegLit .r1 0x0004) [] ∧
  decode .default [0x41, 0x00, 0x05, 0x00, 0x20] = .instr (.jeqLit 0x0005 0x0020) [] ∧
  decode .default [0x17, 0x00, 0x01] = .instr (.pshLit 0x0001) [] ∧
  decode .default [0x5E, 0x00, 0x10] = .instr (.calLit 0x0010) [] ∧
  decode .default [0xFF] = .instr .hlt []

/-! ## The multiplexer and its devices (20_memory.md) -/

/-- An address resolves to the first region, most recent first, whose bounds contain it (R41, R43). -/
def Obligations.ResolveTakesTheFirstRegionContaining : Prop :=
  ∀ (regions : List Region) (a : Word),
    (∀ g, resolve regions a = some g ↔ ∃ pre post, regions = pre ++ g :: post ∧
      (g.start.toNat ≤ a.toNat ∧ a.toNat ≤ g.last.toNat) ∧
      ∀ p ∈ pre, ¬ (p.start.toNat ≤ a.toNat ∧ a.toNat ≤ p.last.toNat)) ∧
    (resolve regions a = none ↔ ∀ g ∈ regions, ¬ (g.start.toNat ≤ a.toNat ∧ a.toNat ≤ g.last.toNat))

/-- `map` puts the new region before all others, so that where regions overlap the most recently added answers; `unmap` removes
exactly the region of its token and leaves the others in their order (R42, R68). That a token of no region changes nothing R68
marks as the spec's choice; the form of a token is the model's, log entry 14. -/
def Obligations.MapAndUnmapKeepTheOrder : Prop :=
  (∀ (s : State) (device : Nat) (start last : Word) (remap : Bool) (a : Word),
    (s.mapRegion device start last remap).1.regions =
      ⟨(s.mapRegion device start last remap).2, device, start, last, remap⟩ :: s.regions ∧
    resolve (s.mapRegion device start last remap).1.regions a =
      if start.toNat ≤ a.toNat ∧ a.toNat ≤ last.toNat
      then some ⟨(s.mapRegion device start last remap).2, device, start, last, remap⟩
      else resolve s.regions a) ∧
  ∀ s : State, s.wf = true →
    (∀ pre g post, s.regions = pre ++ g :: post → s.unmapRegion g.token = { s with regions := pre ++ post }) ∧
    (∀ token, (∀ g ∈ s.regions, g.token ≠ token) → s.unmapRegion token = s) ∧
    (∀ device start last remap,
      ((s.mapRegion device start last remap).1.unmapRegion (s.mapRegion device start last remap).2).regions = s.regions)

/-- A read or a write at an address no region contains raises `UnmappedAddress` and reaches no device (R45, R182). -/
def Obligations.UnmappedAddressFaults : Prop :=
  ∀ (s : State) (a : Word) (w : Width), resolve s.regions a = none →
    (memRead a w s = .raised (.unmappedAddress a w .read)
      { s with events := ⟨.read, w, a, none, none, .fault (.unmappedAddress a w .read)⟩ :: s.events }) ∧
    ∀ v, memWrite a w v s = .raised (.unmappedAddress a w .write)
      { s with events := ⟨.write, w, a, none, none, .fault (.unmappedAddress a w .write)⟩ :: s.events }

/-- A 16-bit access at the last address of its region raises `RegionStraddle` and reaches no device; in the default platform
those addresses are 0x30FF, in the screen's region, and 0xFFFF, in RAM's (R48). -/
def Obligations.RegionStraddleFaults : Prop :=
  (∀ (s : State) (g : Region), resolve s.regions g.last = some g →
    (memRead g.last .two s = .raised (.regionStraddle g.last .read g)
      { s with events := ⟨.read, .two, g.last, some g, none, .fault (.regionStraddle g.last .read g)⟩ :: s.events }) ∧
    ∀ v, memWrite g.last .two v s = .raised (.regionStraddle g.last .write g)
      { s with events := ⟨.write, .two, g.last, some g, none, .fault (.regionStraddle g.last .write g)⟩ :: s.events }) ∧
  ∀ (a : Word) (g : Region), resolve State.reset.regions a = some g →
    (a = g.last ↔ (a.toNat = 0x30FF ∧ State.reset.device g.device = .screen) ∨
      (a.toNat = 0xFFFF ∧ State.reset.device g.device = .ram 65536 []))

/-- A RAM access beyond the device's size raises `DeviceRange` and changes nothing but the event record (R56, R184). -/
def Obligations.RamAccessBeyondItsSizeFaults : Prop :=
  ∀ (s : State) (a : Word) (g : Region) (n : Nat) (b : Memory), resolve s.regions a = some g → s.device g.device = .ram n b →
    (n ≤ (g.offset a).toNat →
      (∃ t, memRead a .one s = .raised (.deviceRange (g.offset a) .one) t ∧ RegFrame [] s { t with events := s.events }) ∧
      ∀ v, ∃ t, memWrite a .one v s = .raised (.deviceRange (g.offset a) .one) t ∧ RegFrame [] s { t with events := s.events }) ∧
    (a ≠ g.last → n ≤ (g.offset a).toNat + 1 →
      (∃ t, memRead a .two s = .raised (.deviceRange (g.offset a) .two) t ∧ RegFrame [] s { t with events := s.events }) ∧
      ∀ v, ∃ t, memWrite a .two v s = .raised (.deviceRange (g.offset a) .two) t ∧ RegFrame [] s { t with events := s.events })

/-- A 16-bit read of RAM, at any address, gives its two bytes, the high one first, both from the device the first address
resolves to, and changes nothing but the event record (R46, R47, R53, R58). -/
def Obligations.RamReadIsBigEndian : Prop :=
  ∀ (s : State) (a : Word) (h o : Nat), s.ramWord a = some (h, o) →
    ∃ t, memRead a .two s = .done (wordOfBytes (s.ramByte h o) (s.ramByte h (o + 1))) t ∧
      ∃ e, t = { s with events := e :: s.events } ∧ e.kind = .read ∧ e.width = .two ∧ e.addr = a ∧
        e.result = .value (wordOfBytes (s.ramByte h o) (s.ramByte h (o + 1)))

/-- A 16-bit write of RAM, at any address, stores the high byte and then the low byte, and leaves every other byte of every
device and every register alone (R46, R47, R51, R53). -/
def Obligations.RamWriteStoresTwoBytes : Prop :=
  ∀ (s : State) (a v : Word) (h o : Nat), s.wf = true → s.ramWord a = some (h, o) →
    ∃ t, memWrite a .two v s = .done v t ∧ t.ramByte h o = hiByte v ∧ t.ramByte h (o + 1) = loByte v ∧
      SameBytes [(h, o), (h, o + 1)] s t ∧ SameRegs [] s t ∧ t.counter = s.counter ∧ t.status = s.status ∧ SamePlatform s t

/-- After a 16-bit write of RAM, 8-bit reads of its address and the next give the high and the low byte, where both addresses
resolve to one region (R54). -/
def Obligations.MixedWidthsOnRam : Prop :=
  ∀ (s : State) (a v : Word), s.wf = true → (s.ramWord a).isSome → resolve s.regions (a + 1) = resolve s.regions a →
    ∃ t u1 u2, memWrite a .two v s = .done v t ∧ memRead a .one t = .done ((hiByte v).setWidth 16) u1 ∧
      memRead (a + 1) .one t = .done ((loByte v).setWidth 16) u2

/-- The screen reads as 0, and a 16-bit write to it changes nothing but the record, where it is the next screen write (R57). -/
def Obligations.ScreenReadsZeroAndRecordsWrites : Prop :=
  ∀ (s : State) (a o : Word), s.screenWord a = some o →
    (∃ e, memRead a .two s = .done 0 { s with events := e :: s.events }) ∧
    ∀ v, ∃ e, memWrite a .two v s = .done v { s with events := e :: s.events } ∧
      ({ s with events := e :: s.events } : State).screenWrites = s.screenWrites ++ [⟨o, v⟩]

/-- A transaction carries `v[7:0]` with n = 1 and `v[15:0]` with n = 2 (R47), and one that reaches a device spec/ does not describe
gives what the device answers, over its own history, and changes only that device's history and the event record: the form of such
a device is the model's choice, log entry 11 (R55, R90). -/
def Obligations.ExternalDeviceAnswersForItself : Prop :=
  (∀ v : Word, (Width.data .one v).toNat = v.toNat % 256 ∧ Width.data .two v = v) ∧
  ∀ (s : State) (a : Word) (w : Width) (g : Region) (hist : List DeviceOp), resolve s.regions a = some g →
    (w = .two → a ≠ g.last) → s.device g.device = .external hist →
    (∃ e, memRead a w s =
      (match Config.deviceRead g.device hist (g.offset a) w with
        | some v => BusResult.value (w.data v)
        | none => .fault (.deviceRange (g.offset a) w)).at
        { s with devices := s.devices.set g.device (.external (.read (g.offset a) w :: hist)), events := e :: s.events }) ∧
    ∀ v, ∃ e, memWrite a w v s =
      (if Config.deviceWrite g.device hist (g.offset a) w (w.data v) then BusResult.value (w.data v)
        else .fault (.deviceRange (g.offset a) w)).at
        { s with devices := s.devices.set g.device (.external (.write (g.offset a) w (w.data v) :: hist)), events := e :: s.events }

/-- The offset presented to a region's device is `a - start`, modulo 65536, where `remap` is 1, and `a` itself where it is 0, and
every transaction that does not straddle presents it (R44). In the default platform every address in [0x3000, 0x30FF] reaches the
screen and every other RAM (R61); that platform is the spec's decision D15, log entry 5. -/
def Obligations.TranslationAndDefaultPlatform : Prop :=
  (∀ (g : Region) (a : Word),
    (g.offset a).toNat = if g.remap then (a.toNat + 65536 - g.start.toNat) % 65536 else a.toNat) ∧
  (∀ (s : State) (a : Word) (w : Width) (g : Region), resolve s.regions a = some g → (w = .two → a ≠ g.last) →
    (s.busRead a w).offset = some (g.offset a) ∧ ∀ v, (s.busWrite a w v).offset = some (g.offset a)) ∧
  ∀ a : Word, ∃ g, resolve State.reset.regions a = some g ∧
    (State.reset.device g.device = if 0x3000 ≤ a.toNat ∧ a.toNat ≤ 0x30FF then .screen else .ram 65536 []) ∧
    (g.offset a).toNat = (if 0x3000 ≤ a.toNat ∧ a.toNat ≤ 0x30FF then a.toNat - 0x3000 else a.toNat)

/-! ## The engine (40_engine.md) -/

/-- `fetch8()` gives the byte at `ip` and advances `ip` by 1, modulo 65536; where the read faults `ip` is not advanced (R91). -/
def Obligations.FetchByteAdvancesByOne : Prop :=
  ∀ s : State,
    (∀ v, (s.busRead (s.x .ip) .one).result = .value v →
      ∃ t, fetch8 s = .done (loByte v) t ∧ (t.x .ip).toNat = ((s.x .ip).toNat + 1) % 65536 ∧ SameRegs [.ip] s t) ∧
    (∀ f, (s.busRead (s.x .ip) .one).result = .fault f → ∃ t, fetch8 s = .raised f t ∧ SameRegs [] s t)

/-- `fetch16()` gives the word at `ip` by one 16-bit transaction, in RAM the byte at `ip` first, and advances `ip` by 2, modulo
65536; where the read faults `ip` is not advanced (R92). -/
def Obligations.FetchWordAdvancesByTwo : Prop :=
  ∀ s : State,
    (∀ v, (s.busRead (s.x .ip) .two).result = .value v →
      ∃ t, fetch16 s = .done v t ∧ (t.x .ip).toNat = ((s.x .ip).toNat + 2) % 65536 ∧ SameRegs [.ip] s t ∧
        t.events = (s.busRead (s.x .ip) .two).event .read .two (s.x .ip) :: s.events) ∧
    (∀ h o, s.ramWord (s.x .ip) = some (h, o) →
      (s.busRead (s.x .ip) .two).result = .value (wordOfBytes (s.ramByte h o) (s.ramByte h (o + 1)))) ∧
    (∀ f, (s.busRead (s.x .ip) .two).result = .fault f → ∃ t, fetch16 s = .raised f t ∧ SameRegs [] s t)

/-- Where the bytes at `ip` are those of an instruction, the step of a running core is `exec` of it, with `ip` at the next
instruction and the fetches recorded (R94, R95, R100). -/
def Obligations.StepRunsTheDecodedInstruction : Prop :=
  ∀ (s : State) (i : Instr) (b : Byte) (bs : List Byte), s.status = .running → s.codeAtIp i.op b bs →
    decode s.params.opcodeMap (b :: bs) = .instr i [] →
    ∃ evs : List Event, step s = exec i { s.setX .ip (s.x .ip + BitVec.ofNat 16 i.length) with events := evs ++ s.events } ∧
      evs.length = 1 + i.op.format.fields.length ∧ ∀ e ∈ evs, e.kind = .read

/-- An opcode byte the map does not assign raises `IllegalOpcode` with `ip` = s + 1 and no operand byte fetched: nothing else
changes but the status with its record, the event of the opcode fetch, and what that fetch did to the device it read, which is
nothing where it read RAM or the screen (R103, R187). -/
def Obligations.UnassignedOpcodeFaults : Prop :=
  ∀ (s : State) (v : Word), s.status = .running → (s.busRead (s.x .ip) .one).result = .value v →
    s.params.opcodeMap.assigned (loByte v) = none →
    step s = .next { s.setX .ip (s.x .ip + 1) with
      status := .faulted ⟨.illegalOpcode (loByte v) (s.x .ip), s.x .ip⟩
      devices := (s.busRead (s.x .ip) .one).devices
      events := (s.busRead (s.x .ip) .one).event .read .one (s.x .ip) :: s.events } ∧
    ∀ b, s.byteAt (s.x .ip) = some b → loByte v = b ∧ (s.busRead (s.x .ip) .one).devices = s.devices

/-- A fault in the decode phase leaves every register but `ip`, the counter and every byte of memory unchanged, and is recorded
with the start address. `ip` has advanced past what was fetched before the fault: by nothing where the opcode fetch faulted, by 1
where the opcode byte is unassigned, and by 1 and the sizes of the first j fields where the fetch of the next field faulted; that
fetch is the last event, after the completed fetches of the opcode and of the j fields (R91, R92, R94, R98, R186). -/
def Obligations.DecodePhaseFaultChangesOnlyIp : Prop :=
  ∀ (s : State) (f : FaultInfo) (s1 : State), s.status = .running → fetchInstr s = .raised f s1 →
    ∃ t, step s = .next t ∧ t.status = .faulted ⟨f, s.x .ip⟩ ∧ SameRegs [.ip] s t ∧ t.counter = s.counter ∧
      SamePlatform s t ∧ SameBytes [] s t ∧
      (∀ f', (s.busRead (s.x .ip) .one).result = .fault f' → f = f' ∧ t.x .ip = s.x .ip) ∧
      ∀ v, (s.busRead (s.x .ip) .one).result = .value v →
        (s.params.opcodeMap.assigned (loByte v) = none → t.x .ip = s.x .ip + 1) ∧
        ∀ o, s.params.opcodeMap.assigned (loByte v) = some o →
          ∃ (j : Nat) (e : Event) (evs : List Event), j < o.format.fields.length ∧ t.events = e :: (evs ++ s.events) ∧
            evs.length = 1 + j ∧ (∀ d ∈ evs, ∃ u, d.result = .value u) ∧
            e.kind = .read ∧ e.addr = t.x .ip ∧ e.result = .fault f ∧
            (t.x .ip).toNat = ((s.x .ip).toNat + 1 + ((o.format.fields.take j).map FieldKind.size).sum) % 65536

/-- A step falls through to the byte after its instruction, modulo 65536, unless the instruction is a branch, a call or a return
or names `ip` as its destination; where its execute phase faults too (R94, R98). -/
def Obligations.StepFallsThrough : Prop :=
  ∀ (s s1 t : State) (i : Instr), s.status = .running → fetchInstr s = .done i s1 → step s = .next t → mayWriteIp i = false →
    (t.x .ip).toNat = ((s.x .ip).toNat + i.length) % 65536

/-- A core that is `Halted` or `Faulted` takes no step: nothing changes, and the host is answered the same again (R95, R175,
R188, R199). -/
def Obligations.LatchedCoreTakesNoStep : Prop :=
  ∀ s : State, s.status ≠ .running → step s = .next s ∧ hostStep s = .next (s, s.response) ∧ s.response ≠ .cont

/-- `run()` ends only halted or faulted, and executes nothing after that: more steps change nothing (R97, R210). -/
def Obligations.RunStopsAtHaltOrFault : Prop :=
  ∀ (n : Nat) (s t : State) (r : StepResponse), hostRun n s = some (t, r) →
    t.status ≠ .running ∧ r = t.response ∧ ∀ k, hostRun (n + k) s = some (t, r)

/-! ## Moves (41_move.md) -/

/-- The register moves write their destination and nothing else (R110, R111). -/
def Obligations.RegisterMovesWriteTheirDestination : Prop :=
  ∀ (s : State) (rd : Reg),
    (∀ lit, ∃ t, exec (.movLitReg lit rd) s = .next t ∧ t.x rd = lit ∧ RegFrame [rd] s t) ∧
    (∀ rs, ∃ t, exec (.movRegReg rs rd) s = .next t ∧ t.x rd = s.x rs ∧ RegFrame [rd] s t)

/-- The three loads, each with its effective address: an address field, a register, a literal plus a register modulo 65536
(R59, R113, R115, R116). -/
def Obligations.LoadsReadTheirAddress : Prop :=
  ∀ (s : State) (i : Instr) (a : Word) (rd : Reg),
    (i = .movMemReg a rd ∨ (∃ rp, i = .movRegPtrReg rp rd ∧ a = s.x rp) ∨
      (∃ base ro, i = .movLitOffReg base ro rd ∧ a.toNat = (base.toNat + (s.x ro).toNat) % 65536)) →
    ∀ v, (s.busRead a .two).result = .value v →
      ∃ t, exec i s = .next t ∧ t.x rd = v ∧ t.counter = s.counter ∧ t.status = s.status ∧ ReadFrame [rd] a s t

/-- The two stores, of a register and of a literal (R112, R114). -/
def Obligations.StoresWriteTheirAddress : Prop :=
  ∀ (s : State) (i : Instr) (a v : Word), (i = .movLitMem v a ∨ ∃ rs, i = .movRegMem rs a ∧ v = s.x rs) →
    (s.busWrite a .two v).result = .value v →
      ∃ t, exec i s = .next t ∧ t.counter = s.counter ∧ t.status = s.status ∧ WriteFrame [] a v s t

/-- A load or a store whose transaction faults changes no register, no counter and no byte, and latches `Faulted` with the
record of the fault and of the instruction's start address (R112 to R116, R181, R186), computed as log entry 9 says. -/
def Obligations.FaultingMovesChangeNothingElse : Prop :=
  ∀ (s : State) (i : Instr) (a : Word) (f : FaultInfo),
    (((∃ rd, i = .movMemReg a rd) ∨ (∃ rp rd, i = .movRegPtrReg rp rd ∧ a = s.x rp) ∨
        (∃ base ro rd, i = .movLitOffReg base ro rd ∧ a.toNat = (base.toNat + (s.x ro).toNat) % 65536)) ∧
      (s.busRead a .two).result = .fault f) ∨
    (∃ v, (i = .movLitMem v a ∨ ∃ rs, i = .movRegMem rs a ∧ v = s.x rs) ∧ (s.busWrite a .two v).result = .fault f) →
    ∃ t, exec i s = .next t ∧ t.status = .faulted ⟨f, s.x .ip - BitVec.ofNat 16 i.length⟩ ∧ SameRegs [] s t ∧
      t.counter = s.counter ∧ SamePlatform s t ∧ SameBytes [] s t

/-- What a store writes is what the next fetch of the same address reads (R63, R65, R205). -/
def Obligations.StoredWordIsFetched : Prop :=
  ∀ (s : State) (adr lit : Word), s.wf = true → (s.ramWord adr).isSome →
    ∃ t u, exec (.movLitMem lit adr) s = .next t ∧ fetch16 (t.setX .ip adr) = .done lit u

/-! ## Arithmetic (42_arithmetic.md) -/

/-- Add, subtract and multiply give the exact result modulo 65536 in `ac`, in each operand order, and change nothing else
(R117 to R124). -/
def Obligations.ArithmeticGoesIntoAcModulo65536 : Prop :=
  ∀ (s : State) (i : Instr) (exact : Int),
    ((∃ ra rb, i = .addRegReg ra rb ∧ exact = (s.x ra).toNat + (s.x rb).toNat) ∨
     (∃ lit ra, i = .addLitReg lit ra ∧ exact = lit.toNat + (s.x ra).toNat) ∨
     (∃ lit ra, i = .subLitReg lit ra ∧ exact = (s.x ra).toNat - lit.toNat) ∨
     (∃ ra lit, i = .subRegLit ra lit ∧ exact = lit.toNat - (s.x ra).toNat) ∨
     (∃ ra rb, i = .subRegReg ra rb ∧ exact = (s.x ra).toNat - (s.x rb).toNat) ∨
     (∃ lit ra, i = .mulLitReg lit ra ∧ exact = lit.toNat * (s.x ra).toNat) ∨
     (∃ ra rb, i = .mulRegReg ra rb ∧ exact = (s.x ra).toNat * (s.x rb).toNat)) →
    ∃ t, exec i s = .next t ∧ ((t.x .ac).toNat : Int) = exact % 65536 ∧ RegFrame [.ac] s t

/-- Increment and decrement change their register in place, modulo 65536, and nothing else (R125, R126). -/
def Obligations.IncrementAndDecrementInPlace : Prop :=
  ∀ (s : State) (ra : Reg),
    (∃ t, exec (.incReg ra) s = .next t ∧ (t.x ra).toNat = ((s.x ra).toNat + 1) % 65536 ∧ RegFrame [ra] s t) ∧
    (∃ t, exec (.decReg ra) s = .next t ∧ (t.x ra).toNat = ((s.x ra).toNat + 65535) % 65536 ∧ RegFrame [ra] s t)

/-! ## Shifts and logic (43_bitwise.md) -/

/-- Shifts by less than 16, in place: left modulo 65536, right with zeros entering (R127 to R131). -/
def Obligations.ShiftsBelowSixteenAreExact : Prop :=
  ∀ (s : State) (ra : Reg) (n : Word), n.toNat < 16 →
    (∀ i, (i = .lsfRegLit ra n ∨ ∃ rb, i = .lsfRegReg ra rb ∧ n = s.x rb) →
      ∃ t, exec i s = .next t ∧ (t.x ra).toNat = (s.x ra).toNat * 2 ^ n.toNat % 65536 ∧ RegFrame [ra] s t) ∧
    (∀ i, (i = .rsfRegLit ra n ∨ ∃ rb, i = .rsfRegReg ra rb ∧ n = s.x rb) →
      ∃ t, exec i s = .next t ∧ (t.x ra).toNat = (s.x ra).toNat / 2 ^ n.toNat ∧ RegFrame [ra] s t)

/-- Shifts by 16 or more follow the parameter `ShiftWide`: `jsmod32` shifts by the amount modulo 32, `zero` gives 0, and any
other choice gives its own function's value (R127 to R131; log entry 3). -/
def Obligations.WideShiftsFollowTheParameter : Prop :=
  ∀ (s : State) (ra : Reg) (n : Word), 16 ≤ n.toNat →
    (∀ i, (i = .lsfRegLit ra n ∨ ∃ rb, i = .lsfRegReg ra rb ∧ n = s.x rb) →
      ∃ t, exec i s = .next t ∧ RegFrame [ra] s t ∧
        (s.params.shiftWide = .jsmod32 → (t.x ra).toNat = (s.x ra).toNat * 2 ^ (n.toNat % 32) % 65536) ∧
        (s.params.shiftWide = .zero → t.x ra = 0) ∧
        ∀ k, s.params.shiftWide = .other k → t.x ra = Config.shiftWide k .left (s.x ra) n) ∧
    (∀ i, (i = .rsfRegLit ra n ∨ ∃ rb, i = .rsfRegReg ra rb ∧ n = s.x rb) →
      ∃ t, exec i s = .next t ∧ RegFrame [ra] s t ∧
        (s.params.shiftWide = .jsmod32 → (t.x ra).toNat = (s.x ra).toNat / 2 ^ (n.toNat % 32)) ∧
        (s.params.shiftWide = .zero → t.x ra = 0) ∧
        ∀ k, s.params.shiftWide = .other k → t.x ra = Config.shiftWide k .right (s.x ra) n)

/-- And, or, exclusive or and not, bit by bit, into `ac`, and nothing else (R132 to R138). -/
def Obligations.LogicGoesIntoAcBitByBit : Prop :=
  ∀ (s : State) (i : Instr) (f : Bool → Bool → Bool) (ra : Reg) (a b : Word),
    (((i = .andRegLit ra b ∨ ∃ rb, i = .andRegReg ra rb ∧ b = s.x rb) ∧ a = s.x ra ∧ f = and) ∨
     ((i = .orRegLit ra b ∨ ∃ rb, i = .orRegReg ra rb ∧ b = s.x rb) ∧ a = s.x ra ∧ f = or) ∨
     ((i = .xorRegLit ra b ∨ ∃ rb, i = .xorRegReg ra rb ∧ b = s.x rb) ∧ a = s.x ra ∧ f = xor) ∨
     (i = .notReg ra ∧ a = s.x ra ∧ f = fun x _ => !x)) →
    ∃ t, exec i s = .next t ∧ (∀ k, k < 16 → (t.x .ac).getLsbD k = f (a.getLsbD k) (b.getLsbD k)) ∧ RegFrame [.ac] s t

/-! ## Branches (44_branch.md) -/

/-- The six relations, unsigned, the fetched value on the left: the branch is taken exactly when its relation holds of the
literal and `ac`, and changes nothing but `ip` (R140, R141, R143, R145, R147, R149, R151). -/
def Obligations.LiteralBranchesCompareWithAc : Prop :=
  ∀ (s : State) (i : Instr) (lit adr : Word) (taken : Prop),
    ((i = .jneLit lit adr ∧ (taken ↔ lit.toNat ≠ (s.x .ac).toNat)) ∨ (i = .jeqLit lit adr ∧ (taken ↔ lit.toNat = (s.x .ac).toNat)) ∨
     (i = .jltLit lit adr ∧ (taken ↔ lit.toNat < (s.x .ac).toNat)) ∨ (i = .jgtLit lit adr ∧ (taken ↔ lit.toNat > (s.x .ac).toNat)) ∨
     (i = .jleLit lit adr ∧ (taken ↔ lit.toNat ≤ (s.x .ac).toNat)) ∨ (i = .jgeLit lit adr ∧ (taken ↔ lit.toNat ≥ (s.x .ac).toNat))) →
    ∃ t, exec i s = .next t ∧ (taken → t.x .ip = adr) ∧ (¬ taken → t.x .ip = s.x .ip) ∧ RegFrame [.ip] s t

/-- The same of a register and `ac` (R140, R142, R144, R146, R148, R150, R152). -/
def Obligations.RegisterBranchesCompareWithAc : Prop :=
  ∀ (s : State) (i : Instr) (ra : Reg) (adr : Word) (taken : Prop),
    ((i = .jneReg ra adr ∧ (taken ↔ (s.x ra).toNat ≠ (s.x .ac).toNat)) ∨ (i = .jeqReg ra adr ∧ (taken ↔ (s.x ra).toNat = (s.x .ac).toNat)) ∨
     (i = .jltReg ra adr ∧ (taken ↔ (s.x ra).toNat < (s.x .ac).toNat)) ∨ (i = .jgtReg ra adr ∧ (taken ↔ (s.x ra).toNat > (s.x .ac).toNat)) ∨
     (i = .jleReg ra adr ∧ (taken ↔ (s.x ra).toNat ≤ (s.x .ac).toNat)) ∨ (i = .jgeReg ra adr ∧ (taken ↔ (s.x ra).toNat ≥ (s.x .ac).toNat))) →
    ∃ t, exec i s = .next t ∧ (taken → t.x .ip = adr) ∧ (¬ taken → t.x .ip = s.x .ip) ∧ RegFrame [.ip] s t

/-! ## The stack (45_stack.md) -/

/-- A push writes the value at the address in `sp`, then lowers `sp` by 2 and raises the counter by 2; `PSH_REG sp` pushes the
value `sp` had (R156, R159, R160). -/
def Obligations.PushesWriteThenLowerSp : Prop :=
  ∀ (s : State) (i : Instr) (v : Word), (i = .pshLit v ∨ ∃ ra, i = .pshReg ra ∧ v = s.x ra) →
    (s.busWrite (s.x .sp) .two v).result = .value v →
    ∃ t, exec i s = .next t ∧ t.x .sp = s.x .sp - 2 ∧ t.counter = s.counter + 2 ∧ t.status = s.status ∧
      WriteFrame [.sp] (s.x .sp) v s t

/-- A pop raises `sp` by 2, reads the word there into its register and lowers the counter by 2; with `sp` itself the popped
value stays (R157, R161). -/
def Obligations.PopRaisesSpThenReads : Prop :=
  ∀ (s : State) (rd : Reg) (v : Word), (s.busRead (s.x .sp + 2) .two).result = .value v →
    ∃ t, exec (.pop rd) s = .next t ∧ t.x rd = v ∧ (rd ≠ .sp → t.x .sp = s.x .sp + 2) ∧ t.counter = s.counter - 2 ∧
      t.status = s.status ∧ ReadFrame [rd, .sp] (s.x .sp + 2) s t

/-- A push that faults changes neither `sp` nor the counter; a pop that faults has raised `sp` and not lowered the counter
(R156, R157, R159 to R161, R186). The start address in the record is computed as log entry 9 says. -/
def Obligations.FaultingPushAndPop : Prop :=
  ∀ (s : State) (f : FaultInfo),
    (∀ (i : Instr) (v : Word), (i = .pshLit v ∨ ∃ ra, i = .pshReg ra ∧ v = s.x ra) →
      (s.busWrite (s.x .sp) .two v).result = .fault f →
      ∃ t, exec i s = .next t ∧ t.status = .faulted ⟨f, s.x .ip - BitVec.ofNat 16 i.length⟩ ∧ SameRegs [] s t ∧
        t.counter = s.counter ∧ SameBytes [] s t) ∧
    (∀ rd, (s.busRead (s.x .sp + 2) .two).result = .fault f →
      ∃ t, exec (.pop rd) s = .next t ∧ t.status = .faulted ⟨f, s.x .ip - 2⟩ ∧ t.x .sp = s.x .sp + 2 ∧
        SameRegs [.sp] s t ∧ t.counter = s.counter ∧ SameBytes [] s t)

/-- A push to RAM and then a pop gives the value back, with `sp` and the counter as before; and the source's scenario of three
pushes and three pops from reset (R162; the law is the spec's inference from R156 and R157). -/
def Obligations.PushThenPopRoundTrip : Prop :=
  (∀ (s : State) (v : Word), s.wf = true → (s.ramWord (s.x .sp)).isSome →
    ∃ t u, push v s = .done () t ∧ pop t = .done v u ∧ u.x .sp = s.x .sp ∧ u.counter = s.counter) ∧
  ∃ s1 s2 s3 t1 t2 t3, push 0x0001 State.reset = .done () s1 ∧ push 0x0002 s1 = .done () s2 ∧ push 0x0003 s2 = .done () s3 ∧
    s3.x .sp = 0xFFF8 ∧ pop s3 = .done 0x0003 t1 ∧ pop t1 = .done 0x0002 t2 ∧ pop t2 = .done 0x0001 t3 ∧ t3.x .sp = 0xFFFE

/-! ## Calls and returns (46_call_return.md) -/

/-- A call saves the frame in ten pushes: the k-th of its ten events is the 16-bit write of the k-th word of the frame at slot k.
It sets `fp` to the lowered `sp`, clears the counter and goes to the target, which a register form reads before anything is pushed
(R165, R167, R168). It completes where each slot lies in RAM or the screen, and whenever it completes, whatever devices its slots
reach, this is its effect. -/
def Obligations.CallsPushTheFrameAndJump : Prop :=
  ∀ (s : State) (i : Instr) (target : Word), (i = .calLit target ∨ ∃ ra, i = .calReg ra ∧ target = s.x ra) →
    ((∀ k, k < 10 → (s.wordAt (s.pushSlot k)).isSome) → ∃ t, exec i s = .next t ∧ Called s target t) ∧
    ∀ t, exec i s = .next t → (∀ r, t.status ≠ .faulted r) → Called s target t

/-- The frame in memory after a call whose ten slots lie in one RAM region: `r1`..`r8`, the return address and the marker, which
is the counter before the call plus 20, at S, S - 2, …, S - 18, with `fp` = S - 20 (R165, R170). -/
def Obligations.CallLeavesTheFrameInMemory : Prop :=
  ∀ (s : State) (g : Region) (i : Instr), ((∃ adr, i = .calLit adr) ∨ ∃ ra, i = .calReg ra) → s.wf = true →
    (∀ k, k < 10 → s.slotIn g (s.pushSlot k) = true) →
    ∃ t, exec i s = .next t ∧ t.x .fp = s.x .sp - 20 ∧ ∀ k, k < 10 → t.wordAt (s.pushSlot k) = s.frameWords[k]?

/-- A call whose push to slot k faults, after k pushes, keeps them: their k events are the writes of the first k words of the frame,
the fault's event is the last, and where the k slots lie in one RAM region of a well-formed state the words stand there. `sp` and
the counter count them, `fp` is unchanged and there is no jump (R167, R168, R186). The start address in the record is computed as
log entry 9 says. -/
def Obligations.FaultingCallKeepsItsPushes : Prop :=
  ∀ (s : State) (i : Instr) (k : Nat) (f : FaultInfo), ((∃ adr, i = .calLit adr) ∨ ∃ ra, i = .calReg ra) → k < 10 →
    (∀ j, j < k → (s.wordAt (s.pushSlot j)).isSome) → (∀ v, (s.busWrite (s.pushSlot k) .two v).result = .fault f) →
    ∃ t, exec i s = .next t ∧ t.status = .faulted ⟨f, s.x .ip - BitVec.ofNat 16 i.length⟩ ∧ t.x .sp = s.pushSlot k ∧
      t.counter = s.counter + BitVec.ofNat 16 (2 * k) ∧ SameRegs [.sp] s t ∧ SamePlatform s t ∧
      SameBytes ((List.range k).flatMap fun j => s.storedPlaces (s.pushSlot j)) s t ∧
      (∀ g, s.wf = true → (∀ j, j < k → s.slotIn g (s.pushSlot j) = true) →
        ∀ j, j < k → t.wordAt (s.pushSlot j) = s.frameWords[j]?) ∧
      ∃ (e : Event) (evs : List Event), t.events = e :: (evs ++ s.events) ∧ s.RecordsPushes (s.frameWords.take k) evs ∧
        e.kind = .write ∧ e.width = .two ∧ e.addr = s.pushSlot k ∧ e.result = .fault f

/-- A return from the frame at `fp`: `w k` is the word at fp + 2k. The marker reloads the counter, the return address and
`r8`..`r1` are restored, the argument count n and n further words are popped, and `fp` becomes the old `fp` plus the marker;
`ac` is not restored and nothing is written to memory (R166, R169). -/
def Obligations.ReturnPopsTheFrame : Prop :=
  ∀ (s : State) (w : Nat → Word), (∀ k, 1 ≤ k → k ≤ 11 + (w 11).toNat → s.wordAt (s.popSlot k) = some (w k)) →
    ∃ t, exec .ret s = .next t ∧ t.x .ip = w 2 ∧
      t.x .r8 = w 3 ∧ t.x .r7 = w 4 ∧ t.x .r6 = w 5 ∧ t.x .r5 = w 6 ∧ t.x .r4 = w 7 ∧ t.x .r3 = w 8 ∧ t.x .r2 = w 9 ∧ t.x .r1 = w 10 ∧
      t.x .sp = s.popSlot (11 + (w 11).toNat) ∧ t.x .fp = s.x .fp + w 1 ∧ t.x .ac = s.x .ac ∧
      t.counter = (match s.params.markerReload with | .overwrite => w 1 | .decrement => w 1 - 2) -
        BitVec.ofNat 16 (2 * (10 + (w 11).toNat)) ∧
      t.status = s.status ∧ SamePlatform s t ∧ t.devices = s.devices ∧ SameBytes [] s t ∧
      ∃ evs : List Event, t.events = evs ++ s.events ∧ evs.length = 11 + (w 11).toNat

/-- A return whose k-th pop faults: what was popped before is restored, `sp` = fp + 2k, and `fp` is unchanged (R157, R169,
R186). The start address in the record is computed as log entry 9 says. -/
def Obligations.FaultingReturnKeepsItsPops : Prop :=
  ∀ (s : State) (w : Nat → Word) (k : Nat) (f : FaultInfo), 1 ≤ k → (k ≤ 11 ∨ k ≤ 11 + (w 11).toNat) →
    (∀ j, 1 ≤ j → j < k → s.wordAt (s.popSlot j) = some (w j)) → (s.busRead (s.popSlot k) .two).result = .fault f →
    ∃ t, exec .ret s = .next t ∧ t.status = .faulted ⟨f, s.x .ip - 1⟩ ∧ t.x .sp = s.popSlot k ∧ t.x .fp = s.x .fp ∧
      t.x .ac = s.x .ac ∧
      (∀ j r, savedRegs.reverse[j]? = some r → t.x r = if j + 2 < k then w (j + 2) else s.x r) ∧
      t.counter = (if k = 1 then s.counter
        else (match s.params.markerReload with | .overwrite => w 1 | .decrement => w 1 - 2) - BitVec.ofNat 16 (2 * (k - 2))) ∧
      SamePlatform s t ∧ SameBytes [] s t

/-- A call and then a return, with nothing between them but the fetch of the return: `r1`..`r8` and the return address come
back, `sp` ends above the count word and its n arguments, `fp` comes back where the frame invariant held, and the counter is
as the parameter `MarkerReload` has it (R172, R173; 90_conflicts.md C1, C2). -/
def Obligations.CallThenReturnRestores : Prop :=
  ∀ (s : State) (g : Region) (i : Instr), ((∃ adr, i = .calLit adr) ∨ ∃ ra, i = .calReg ra) → s.wf = true →
    (∀ k, k < 10 → s.slotIn g (s.pushSlot k) = true) →
    ∃ t, exec i s = .next t ∧
      ∀ (n p : Word) (es : List Event), t.wordAt (s.x .sp + 2) = some n →
        (∀ j, j < n.toNat → (t.wordAt (s.x .sp + 4 + BitVec.ofNat 16 (2 * j))).isSome) →
        ∃ u, exec .ret { t.setX .ip p with events := es } = .next u ∧
          (∀ r ∈ savedRegs, u.x r = s.x r) ∧ u.x .sp = s.x .sp + 2 + BitVec.ofNat 16 (2 * n.toNat) ∧
          (FrameInvariant s → u.x .fp = s.x .fp) ∧
          u.counter = (match s.params.markerReload with | .overwrite => s.counter | .decrement => s.counter - 2) -
            BitVec.ofNat 16 (2 * n.toNat)

/-- The frame invariant `counter = fp - sp` is kept by every instruction that completes, but for a return and for one that
names `sp` or `fp` as its destination; a call establishes it (R172, R207). -/
def Obligations.FrameInvariantKept : Prop :=
  ∀ (s t : State) (i : Instr), exec i s = .next t → (∀ r, t.status ≠ .faulted r) →
    ((FrameInvariant s ∧ i ≠ .ret ∧ destination i ≠ some .sp ∧ destination i ≠ some .fp) ∨
      (∃ adr, i = .calLit adr) ∨ ∃ ra, i = .calReg ra) →
    FrameInvariant t

/-! ## Halt (47_halt.md) -/

/-- `HLT` latches `Halted` and changes nothing else (R175). -/
def Obligations.HaltLatchesHalted : Prop :=
  ∀ s : State, ∃ t, exec .hlt s = .next t ∧ t.status = .halted ∧ SameRegs [] s t ∧ t.counter = s.counter ∧
    SamePlatform s t ∧ t.devices = s.devices ∧ SameBytes [] s t ∧ t.events = s.events

/-- A running core becomes `Halted` exactly when the instruction it fetched is `HLT` (R27, R175, R176). -/
def Obligations.OnlyHaltHalts : Prop :=
  ∀ s t : State, s.status = .running → step s = .next t → (t.status = .halted ↔ ∃ s1, fetchInstr s = .done .hlt s1)

/-! ## The whole machine (10_state.md, 20_memory.md, 60_exceptions.md) -/

/-- Every instruction and every step answers a next state: nothing is refused (R27, R95, R186). That no fault stops the model, and
that a latched core's step answers a state, is the model's choice, log entry 8; that `exec` by itself answers in a latched state too
is log entry 22. -/
def Obligations.EveryStepAnswersNext : Prop :=
  (∀ (i : Instr) (s : State), ∃ t, exec i s = .next t) ∧ ∀ s : State, ∃ t, step s = .next t

/-- A step never changes the region list, the tokens or the parameters, nor which devices are attached and how large a RAM
device is (R28, R30, R69). A device spec/ does not describe keeps its history as the older part of its own: the form of such a
device is the model's choice, log entry 11, and the tokens are log entry 14. -/
def Obligations.StepKeepsPlatformAndParameters : Prop :=
  ∀ s t : State, step s = .next t → SamePlatform s t ∧ t.devices.length = s.devices.length ∧
    ∀ h, (∀ n b, s.device h = .ram n b → ∃ b', t.device h = .ram n b') ∧ (s.device h = .screen → t.device h = .screen) ∧
      ∀ hist, s.device h = .external hist → ∃ more, t.device h = .external (more ++ hist)

/-- Every step keeps the state well formed: memory in its canonical form and within its device, region tokens distinct, the
opcode map injective (R28, R56, R79). -/
def Obligations.StepKeepsStateWellFormed : Prop :=
  ∀ s t : State, s.wf = true → step s = .next t → t.wf = true

/-- Reset is well formed and meets the frame invariant (R33, R34). -/
def Obligations.ResetIsWellFormed : Prop :=
  State.reset.wf = true ∧ FrameInvariant State.reset

/-- A fault of a step is recorded with its code, its kind, its information and the address of the opcode byte of its instruction;
it is of the kinds 1 to 4, never `UnknownRegister`; and the record stays through every further step (R181). -/
def Obligations.FaultRecordHoldsTheStartAddress : Prop :=
  ∀ (s t : State) (r : FaultRecord), s.status = .running → step s = .next t → t.status = .faulted r →
    r.start = s.x .ip ∧ 1 ≤ r.code ∧ r.code ≤ 4 ∧ (∀ name, r.info ≠ .unknownRegister name) ∧
      ∀ n, hostRun (n + 1) t = some (t, .faulted r)

/-- A step only adds to the record (R67). The first event it adds in a running core is the opcode fetch; none is an 8-bit write
(R49). Where its instruction completes it adds one event for the opcode, one for each operand field and one for each transaction of
the execute phase, which for a return are as many more than 11 as its 11th pop says. And in every case the transactions that
reached a device spec/ does not describe are all recorded: they are as many as the operations that device saw (log entry 11). -/
def Obligations.StepRecordsItsTransactions : Prop :=
  ∀ s t : State, step s = .next t →
    ∃ evs : List Event, t.events = evs ++ s.events ∧ (∀ e ∈ evs, e.kind = .write → e.width = .two) ∧
      (s.status = .running → ∃ e, evs.getLast? = some e ∧ e.kind = .read ∧ e.width = .one ∧ e.addr = s.x .ip) ∧
      (∀ i s1, s.status = .running → fetchInstr s = .done i s1 → (∀ r, t.status ≠ .faulted r) →
        ∃ n : Nat, evs.length = 1 + i.op.format.fields.length + dataTransactions i + n ∧ (i ≠ .ret → n = 0) ∧
          (i = .ret → ∃ e v, evs.reverse[11]? = some e ∧ e.result = .value v ∧ n = v.toNat)) ∧
      ∀ h hist, s.device h = .external hist →
        ∃ more, t.device h = .external (more ++ hist) ∧ more.length = (evs.filter fun e => e.reaches h).length

/-- No step reads the event record: with another record the step does the same and adds the same events (R67). -/
def Obligations.NoStepReadsTheEventRecord : Prop :=
  ∀ (s t : State) (es : List Event), step s = .next t →
    ∃ evs : List Event, t.events = evs ++ s.events ∧ step { s with events := es } = .next { t with events := evs ++ es }

/-! ## Reset and the host port (10_state.md, 60_exceptions.md, 70_reset_and_hazards.md) -/

/-- The reset value of every piece of state (R9, R33, R61, R201), and that reset leaves the region list, the devices and the
parameters alone (R200). The values of `ip`, `ac`, `r1`..`r8`, the counter, the regions and RAM are the spec's decisions D14 to
D16 (log entries 5 and 7), the parameters its defaults (log entries 2 to 4 and 15), the tokens and the empty record the model's (log
entries 10 and 14). -/
def Obligations.ResetValues : Prop :=
  (∀ r, State.reset.x r = if r = .sp ∨ r = .fp then 0xFFFE else 0x0000) ∧ State.reset.counter = 0 ∧
    State.reset.status = .running ∧ State.reset.events = [] ∧ State.reset.devices = [.ram 65536 [], .screen] ∧
    (∀ h o, State.reset.ramByte h o = 0x00) ∧ State.reset.params = ⟨.default, .jsmod32, .overwrite, []⟩ ∧
    State.reset.regions = [⟨1, 1, 0x3000, 0x30FF, true⟩, ⟨0, 0, 0x0000, 0xFFFF, true⟩] ∧ State.reset.nextToken = 2 ∧
    ∀ s : State, (∀ r, s.resetCore.x r = State.reset.x r) ∧ s.resetCore.counter = 0 ∧ s.resetCore.status = .running ∧
      SamePlatform s s.resetCore ∧ s.resetCore.devices = s.devices

/-- `get` and `set` by name: the register's value, `wrap16` of the value set, and `UnknownRegister` for any other name, with no
state changed; the register dump is the twelve pairs in order (R31, R32, R185). -/
def Obligations.HostGetsAndSetsRegistersByName : Prop :=
  ∀ (s : State) (r : Reg) (v : Int),
    s.hostGet (Reg.hostName r) = .ok (s.x r) ∧
    (∃ t, s.hostSet (Reg.hostName r) v = .ok t ∧ ((t.x r).toNat : Int) = v % 65536 ∧ RegFrame [r] s t) ∧
    (∀ name, (∀ q, Reg.hostName q ≠ name) →
      s.hostGet name = .error (.unknownRegister name) ∧ s.hostSet name v = .error (.unknownRegister name)) ∧
    s.registerDump =
      [("ip", s.x .ip), ("ac", s.x .ac), ("r1", s.x .r1), ("r2", s.x .r2), ("r3", s.x .r3), ("r4", s.x .r4), ("r5", s.x .r5),
       ("r6", s.x .r6), ("r7", s.x .r7), ("r8", s.x .r8), ("sp", s.x .sp), ("fp", s.x .fp)]

/-- A memory dump of bytes in RAM or the screen gives them in order and changes nothing; a dump of which one read faults, after
bytes in RAM or the screen, returns the error; no dump changes a register, the counter, the status or the region list (R71). That
it leaves the event record alone, and returns the error without the bytes before it, is the model's choice, log entries 10 and
21. -/
def Obligations.MemoryDumpReadsAndChangesNothing : Prop :=
  (∀ (n : Nat) (a : Word) (s : State) (bs : List Byte), bs.length = n →
    (∀ k, k < n → s.byteAt (a + BitVec.ofNat 16 k) = bs[k]?) → memoryDump n a s = (.ok bs, s)) ∧
  (∀ (n k : Nat) (a : Word) (s : State) (f : FaultInfo), k < n → (∀ j, j < k → (s.byteAt (a + BitVec.ofNat 16 j)).isSome) →
    (s.busRead (a + BitVec.ofNat 16 k) .one).result = .fault f → (memoryDump n a s).1 = .error f) ∧
  ∀ (n : Nat) (a : Word) (s : State), SameRegs [] s (memoryDump n a s).2 ∧ (memoryDump n a s).2.counter = s.counter ∧
    (memoryDump n a s).2.status = s.status ∧ (memoryDump n a s).2.events = s.events ∧ SamePlatform s (memoryDump n a s).2
end

