-- ==== Sys2Proof/Laws/Memory.lean ====
section
/-! SUPPORT. The bytes of a RAM device: a read after a write, and the canonical form, which every memory operation keeps. -/

namespace Sys2Proof.Machine

/-! ## The data of a transaction -/

@[simp] theorem Width.data_one (v : Word) : Width.data .one v = (loByte v).setWidth 16 := rfl

@[simp] theorem Width.data_two (v : Word) : Width.data .two v = v := rfl

/-! ## The bytes of a RAM device -/

/-- Canonical from `lo` up lists nothing below `lo`. -/
theorem Memory.read_below {lo : Nat} {m : Memory} (h : Memory.wfFrom lo m = true) {o : Nat} (ho : o < lo) :
    Memory.read m o = Memory.unlisted := by
  induction m generalizing lo with
  | nil => rfl
  | cons c m ih =>
    obtain ⟨k, v⟩ := c
    simp only [Memory.wfFrom, Bool.and_eq_true, decide_eq_true_eq] at h
    simp only [Memory.read, if_neg (show k ≠ o by omega)]
    exact ih h.2 (by omega)

theorem Memory.wfFrom_mono {lo lo' : Nat} {m : Memory} (hl : lo' ≤ lo) (h : Memory.wfFrom lo m = true) :
    Memory.wfFrom lo' m = true := by
  cases m with
  | nil => rfl
  | cons c m =>
    obtain ⟨k, v⟩ := c
    simp only [Memory.wfFrom, Bool.and_eq_true, decide_eq_true_eq] at h ⊢
    exact ⟨⟨by omega, h.1.2⟩, h.2⟩

/-- A write keeps the canonical form. -/
theorem Memory.wfFrom_write {lo : Nat} {m : Memory} (h : Memory.wfFrom lo m = true) {o : Nat} (ho : lo ≤ o) (b : Byte) :
    Memory.wfFrom lo (Memory.write m o b) = true := by
  induction m generalizing lo with
  | nil =>
    by_cases hb : b = Memory.unlisted <;> simp [Memory.write, Memory.wfFrom, hb, ho]
  | cons c m ih =>
    obtain ⟨k, v⟩ := c
    simp only [Memory.wfFrom, Bool.and_eq_true, decide_eq_true_eq] at h
    obtain ⟨⟨hk, hv⟩, hm⟩ := h
    unfold Memory.write
    by_cases h1 : o < k
    · by_cases hb : b = Memory.unlisted
      · simp_all [Memory.wfFrom]
      · simp_all [Memory.wfFrom]
    · by_cases h2 : o = k
      · subst h2
        by_cases hb : b = Memory.unlisted
        · simpa [hb] using Memory.wfFrom_mono (by omega) hm
        · simp_all [Memory.wfFrom]
      · simp only [h1, h2, if_false, Memory.wfFrom, Bool.and_eq_true, decide_eq_true_eq]
        exact ⟨⟨hk, hv⟩, ih hm (by omega)⟩

theorem Memory.wf_write {m : Memory} (h : Memory.wf m = true) (o : Nat) (b : Byte) :
    Memory.wf (Memory.write m o b) = true :=
  Memory.wfFrom_write h (Nat.zero_le o) b

theorem Memory.read_write_from {lo : Nat} {m : Memory} (h : Memory.wfFrom lo m = true) (o : Nat) (b : Byte) (q : Nat) :
    Memory.read (Memory.write m o b) q = if q = o then b else Memory.read m q := by
  induction m generalizing lo with
  | nil =>
    by_cases hb : b = Memory.unlisted <;> simp [Memory.write, Memory.read, hb, @eq_comm _ o q]
  | cons c m ih =>
    obtain ⟨k, v⟩ := c
    simp only [Memory.wfFrom, Bool.and_eq_true, decide_eq_true_eq] at h
    obtain ⟨⟨hk, hv⟩, hm⟩ := h
    unfold Memory.write
    by_cases h1 : o < k
    · by_cases hb : b = Memory.unlisted
      · simp only [h1, hb, if_true]
        split
        · next hq =>
          subst hq
          simp only [Memory.read, if_neg (show k ≠ q by omega)]
          exact Memory.read_below hm (by omega)
        · rfl
      · simp [h1, hb, Memory.read, @eq_comm _ o q]
    · by_cases h2 : o = k
      · subst h2
        by_cases hb : b = Memory.unlisted
        · simp only [hb, if_true, Nat.lt_irrefl, if_false]
          split
          · next hq => subst hq; exact Memory.read_below hm (by omega)
          · next hq => simp [Memory.read, Ne.symm hq]
        · simp only [hb, if_false, if_true, Nat.lt_irrefl, Memory.read, @eq_comm _ o q]
          split <;> rfl
      · simp only [h1, h2, if_false, Memory.read]
        by_cases hk2 : k = q
        · subst hk2; simp [Ne.symm h2]
        · simp only [if_neg hk2]; exact ih hm

/-- A write leaves every byte at another offset alone, canonical form or not. -/
theorem Memory.read_write_ne (m : Memory) {o q : Nat} (b : Byte) (h : q ≠ o) :
    Memory.read (Memory.write m o b) q = Memory.read m q := by
  induction m with
  | nil => by_cases hb : b = Memory.unlisted <;> simp [Memory.write, Memory.read, hb, Ne.symm h]
  | cons c m ih =>
    obtain ⟨k, v⟩ := c
    unfold Memory.write
    by_cases h1 : o < k
    · by_cases hb : b = Memory.unlisted <;> simp [h1, hb, Memory.read, Ne.symm h]
    · by_cases h2 : o = k
      · subst h2
        by_cases hb : b = Memory.unlisted <;> simp [hb, Memory.read, Ne.symm h]
      · simp only [h1, h2, if_false, Memory.read, ih]

/-- A read after a write: the byte written at its offset, every other byte as before. -/
theorem Memory.read_write {m : Memory} (h : Memory.wf m = true) (o : Nat) (b : Byte) (q : Nat) :
    Memory.read (Memory.write m o b) q = if q = o then b else Memory.read m q :=
  Memory.read_write_from h o b q

/-- A write lists no offset but its own and those listed before. -/
theorem Memory.mem_write {m : Memory} {o : Nat} {b : Byte} {c : Host.Cell} (h : c ∈ Memory.write m o b) :
    c.1 = o ∨ c ∈ m := by
  induction m with
  | nil =>
    unfold Memory.write at h
    split at h <;> simp_all
  | cons d m ih =>
    obtain ⟨k, v⟩ := d
    unfold Memory.write at h
    split at h
    · split at h
      · exact .inr h
      · rcases List.mem_cons.1 h with h | h
        · exact .inl (by rw [h])
        · exact .inr h
    · split at h
      · split at h
        · exact .inr (List.mem_cons_of_mem _ h)
        · rcases List.mem_cons.1 h with h | h
          · exact .inl (by rw [h])
          · exact .inr (List.mem_cons_of_mem _ h)
      · simp only [List.mem_cons] at h ⊢
        rcases h with h | h
        · exact .inr (.inl h)
        · rcases ih h with h | h
          · exact .inl h
          · exact .inr (.inr h)

/-- A write within a device keeps its cells within it. -/
theorem Memory.below_write {m : Memory} {n o : Nat} {b : Byte} (h : (m.all fun c => decide (c.1 < n)) = true) (ho : o < n) :
    ((Memory.write m o b).all fun c => decide (c.1 < n)) = true := by
  simp only [List.all_eq_true, decide_eq_true_eq] at h ⊢
  intro c hc
  rcases Memory.mem_write hc with h' | h'
  · omega
  · exact h c h'

/-! ## Devices -/

/-- A device read leaves RAM and the screen as they are. -/
theorem Device.read_ram_after (h n : Nat) (b : Memory) (o : Word) (w : Width) : ((Device.ram n b).read h o w).2 = .ram n b := by
  cases w <;> rfl

theorem Device.read_screen (h : Nat) (o : Word) (w : Width) : Device.screen.read h o w = (some 0, .screen) := by
  cases w <;> rfl

theorem Device.write_screen (h : Nat) (o : Word) (w : Width) (v : Word) : Device.screen.write h o w v = (true, .screen) := by
  cases w <;> rfl

/-- A device read keeps the device well formed. -/
theorem Device.wf_read (h : Nat) {d : Device} (hd : d.wf = true) (o : Word) (w : Width) : (d.read h o w).2.wf = true := by
  cases d with
  | ram n b => rw [Device.read_ram_after]; exact hd
  | screen => rw [Device.read_screen]; rfl
  | external hist => cases w <;> rfl

/-- A device write keeps the device well formed. -/
theorem Device.wf_write (h : Nat) {d : Device} (hd : d.wf = true) (o : Word) (w : Width) (v : Word) :
    (d.write h o w v).2.wf = true := by
  cases d with
  | ram n b =>
    obtain ⟨hm, hb⟩ := Bool.and_eq_true_iff.1 hd
    cases w with
    | one =>
      by_cases ho : o.toNat ≥ n
      · rw [show ((Device.ram n b).write h o .one v).2 = .ram n b by simp only [Device.write, if_pos ho]]
        exact hd
      · rw [show ((Device.ram n b).write h o .one v).2 = .ram n (Memory.write b o.toNat (loByte v)) by
          simp only [Device.write, if_neg ho]]
        exact Bool.and_eq_true_iff.2 ⟨Memory.wf_write hm _ _, Memory.below_write hb (by omega)⟩
    | two =>
      by_cases ho : o.toNat + 1 ≥ n
      · rw [show ((Device.ram n b).write h o .two v).2 = .ram n b by simp only [Device.write, if_pos ho]]
        exact hd
      · rw [show ((Device.ram n b).write h o .two v).2 =
            .ram n (Memory.write (Memory.write b o.toNat (hiByte v)) (o.toNat + 1) (loByte v)) by
          simp only [Device.write, if_neg ho]]
        exact Bool.and_eq_true_iff.2 ⟨Memory.wf_write (Memory.wf_write hm _ _) _ _,
          Memory.below_write (Memory.below_write hb (by omega)) (by omega)⟩
  | screen => rw [Device.write_screen]; rfl
  | external hist => cases w <;> rfl

end Sys2Proof.Machine
end

