-- ==== Sys2Proof/Laws/State.lean ====
section
/-! SUPPORT. One lemma per field per update of State, each true by rfl, and the read-over-write laws of the register file. -/

namespace Sys2Proof.Machine

/-! ## The register file -/

@[simp] theorem RegFile.get_set_same (f : RegFile) (r : Reg) (v : Word) : (f.set r v).get r = v := by
  cases r <;> rfl

theorem RegFile.get_set_ne (f : RegFile) {r q : Reg} (v : Word) (h : q ≠ r) : (f.set r v).get q = f.get q := by
  cases r <;> cases q <;> first | rfl | exact absurd rfl h

@[simp] theorem State.x_setX_same (s : State) (r : Reg) (v : Word) : (s.setX r v).x r = v :=
  RegFile.get_set_same s.regs r v

theorem State.x_setX_ne (s : State) {r q : Reg} (v : Word) (h : q ≠ r) : (s.setX r v).x q = s.x q :=
  RegFile.get_set_ne s.regs v h

theorem State.x_setX (s : State) (r q : Reg) (v : Word) : (s.setX r v).x q = if q = r then v else s.x q := by
  split
  · next h => subst h; exact s.x_setX_same _ v
  · next h => exact s.x_setX_ne v h

/-! ## setX -/

@[simp] theorem State.setX_regs (s : State) (r : Reg) (v : Word) : (s.setX r v).regs = s.regs.set r v := rfl
@[simp] theorem State.setX_counter (s : State) (r : Reg) (v : Word) : (s.setX r v).counter = s.counter := rfl
@[simp] theorem State.setX_status (s : State) (r : Reg) (v : Word) : (s.setX r v).status = s.status := rfl
@[simp] theorem State.setX_regions (s : State) (r : Reg) (v : Word) : (s.setX r v).regions = s.regions := rfl
@[simp] theorem State.setX_nextToken (s : State) (r : Reg) (v : Word) : (s.setX r v).nextToken = s.nextToken := rfl
@[simp] theorem State.setX_devices (s : State) (r : Reg) (v : Word) : (s.setX r v).devices = s.devices := rfl
@[simp] theorem State.setX_events (s : State) (r : Reg) (v : Word) : (s.setX r v).events = s.events := rfl
@[simp] theorem State.setX_params (s : State) (r : Reg) (v : Word) : (s.setX r v).params = s.params := rfl
@[simp] theorem State.setX_device (s : State) (r : Reg) (v : Word) (h : Nat) : (s.setX r v).device h = s.device h := rfl
@[simp] theorem State.setX_ramByte (s : State) (r : Reg) (v : Word) (h o : Nat) : (s.setX r v).ramByte h o = s.ramByte h o := rfl
@[simp] theorem State.setX_target (s : State) (r : Reg) (v : Word) (k : Access) (a : Word) (w : Width) :
    (s.setX r v).target k a w = s.target k a w := rfl
@[simp] theorem State.setX_busRead (s : State) (r : Reg) (v : Word) (a : Word) (w : Width) : (s.setX r v).busRead a w = s.busRead a w := rfl
@[simp] theorem State.setX_busWrite (s : State) (r : Reg) (y : Word) (a : Word) (w : Width) (v : Word) :
    (s.setX r y).busWrite a w v = s.busWrite a w v := rfl

/-! ## setCounter -/

@[simp] theorem State.setCounter_regs (s : State) (v : Word) : (s.setCounter v).regs = s.regs := rfl
@[simp] theorem State.setCounter_counter (s : State) (v : Word) : (s.setCounter v).counter = v := rfl
@[simp] theorem State.setCounter_status (s : State) (v : Word) : (s.setCounter v).status = s.status := rfl
@[simp] theorem State.setCounter_regions (s : State) (v : Word) : (s.setCounter v).regions = s.regions := rfl
@[simp] theorem State.setCounter_nextToken (s : State) (v : Word) : (s.setCounter v).nextToken = s.nextToken := rfl
@[simp] theorem State.setCounter_devices (s : State) (v : Word) : (s.setCounter v).devices = s.devices := rfl
@[simp] theorem State.setCounter_events (s : State) (v : Word) : (s.setCounter v).events = s.events := rfl
@[simp] theorem State.setCounter_params (s : State) (v : Word) : (s.setCounter v).params = s.params := rfl
@[simp] theorem State.setCounter_x (s : State) (v : Word) (q : Reg) : (s.setCounter v).x q = s.x q := rfl
@[simp] theorem State.setCounter_device (s : State) (v : Word) (h : Nat) : (s.setCounter v).device h = s.device h := rfl
@[simp] theorem State.setCounter_ramByte (s : State) (v : Word) (h o : Nat) : (s.setCounter v).ramByte h o = s.ramByte h o := rfl
@[simp] theorem State.setCounter_target (s : State) (v : Word) (k : Access) (a : Word) (w : Width) :
    (s.setCounter v).target k a w = s.target k a w := rfl
@[simp] theorem State.setCounter_busRead (s : State) (v : Word) (a : Word) (w : Width) : (s.setCounter v).busRead a w = s.busRead a w := rfl
@[simp] theorem State.setCounter_busWrite (s : State) (y : Word) (a : Word) (w : Width) (v : Word) :
    (s.setCounter y).busWrite a w v = s.busWrite a w v := rfl

/-! ## setStatus -/

@[simp] theorem State.setStatus_regs (s : State) (v : Status) : (s.setStatus v).regs = s.regs := rfl
@[simp] theorem State.setStatus_counter (s : State) (v : Status) : (s.setStatus v).counter = s.counter := rfl
@[simp] theorem State.setStatus_status (s : State) (v : Status) : (s.setStatus v).status = v := rfl
@[simp] theorem State.setStatus_regions (s : State) (v : Status) : (s.setStatus v).regions = s.regions := rfl
@[simp] theorem State.setStatus_nextToken (s : State) (v : Status) : (s.setStatus v).nextToken = s.nextToken := rfl
@[simp] theorem State.setStatus_devices (s : State) (v : Status) : (s.setStatus v).devices = s.devices := rfl
@[simp] theorem State.setStatus_events (s : State) (v : Status) : (s.setStatus v).events = s.events := rfl
@[simp] theorem State.setStatus_params (s : State) (v : Status) : (s.setStatus v).params = s.params := rfl
@[simp] theorem State.setStatus_x (s : State) (v : Status) (q : Reg) : (s.setStatus v).x q = s.x q := rfl
@[simp] theorem State.setStatus_device (s : State) (v : Status) (h : Nat) : (s.setStatus v).device h = s.device h := rfl
@[simp] theorem State.setStatus_ramByte (s : State) (v : Status) (h o : Nat) : (s.setStatus v).ramByte h o = s.ramByte h o := rfl
@[simp] theorem State.setStatus_target (s : State) (v : Status) (k : Access) (a : Word) (w : Width) :
    (s.setStatus v).target k a w = s.target k a w := rfl
@[simp] theorem State.setStatus_busRead (s : State) (v : Status) (a : Word) (w : Width) : (s.setStatus v).busRead a w = s.busRead a w := rfl
@[simp] theorem State.setStatus_busWrite (s : State) (y : Status) (a : Word) (w : Width) (v : Word) :
    (s.setStatus y).busWrite a w v = s.busWrite a w v := rfl

/-! ## after: a recorded transaction -/

@[simp] theorem State.after_regs (s : State) (t : Transaction) (e : Event) : (s.after t e).regs = s.regs := rfl
@[simp] theorem State.after_counter (s : State) (t : Transaction) (e : Event) : (s.after t e).counter = s.counter := rfl
@[simp] theorem State.after_status (s : State) (t : Transaction) (e : Event) : (s.after t e).status = s.status := rfl
@[simp] theorem State.after_regions (s : State) (t : Transaction) (e : Event) : (s.after t e).regions = s.regions := rfl
@[simp] theorem State.after_nextToken (s : State) (t : Transaction) (e : Event) : (s.after t e).nextToken = s.nextToken := rfl
@[simp] theorem State.after_devices (s : State) (t : Transaction) (e : Event) : (s.after t e).devices = t.devices := rfl
@[simp] theorem State.after_events (s : State) (t : Transaction) (e : Event) : (s.after t e).events = e :: s.events := rfl
@[simp] theorem State.after_params (s : State) (t : Transaction) (e : Event) : (s.after t e).params = s.params := rfl
@[simp] theorem State.after_x (s : State) (t : Transaction) (e : Event) (q : Reg) : (s.after t e).x q = s.x q := rfl

/-! ## Taking a fault and reset -/

@[simp] theorem State.takeFault_regs (s : State) (a : Word) (f : FaultInfo) : (s.takeFault a f).regs = s.regs := rfl
@[simp] theorem State.takeFault_counter (s : State) (a : Word) (f : FaultInfo) : (s.takeFault a f).counter = s.counter := rfl
@[simp] theorem State.takeFault_status (s : State) (a : Word) (f : FaultInfo) : (s.takeFault a f).status = .faulted ⟨f, a⟩ := rfl
@[simp] theorem State.takeFault_regions (s : State) (a : Word) (f : FaultInfo) : (s.takeFault a f).regions = s.regions := rfl
@[simp] theorem State.takeFault_nextToken (s : State) (a : Word) (f : FaultInfo) : (s.takeFault a f).nextToken = s.nextToken := rfl
@[simp] theorem State.takeFault_devices (s : State) (a : Word) (f : FaultInfo) : (s.takeFault a f).devices = s.devices := rfl
@[simp] theorem State.takeFault_events (s : State) (a : Word) (f : FaultInfo) : (s.takeFault a f).events = s.events := rfl
@[simp] theorem State.takeFault_params (s : State) (a : Word) (f : FaultInfo) : (s.takeFault a f).params = s.params := rfl
@[simp] theorem State.takeFault_x (s : State) (a : Word) (f : FaultInfo) (q : Reg) : (s.takeFault a f).x q = s.x q := rfl
@[simp] theorem State.resetCore_regs (s : State) : s.resetCore.regs = resetRegs := rfl
@[simp] theorem State.resetCore_counter (s : State) : s.resetCore.counter = 0 := rfl
@[simp] theorem State.resetCore_status (s : State) : s.resetCore.status = .running := rfl
@[simp] theorem State.resetCore_regions (s : State) : s.resetCore.regions = s.regions := rfl
@[simp] theorem State.resetCore_nextToken (s : State) : s.resetCore.nextToken = s.nextToken := rfl
@[simp] theorem State.resetCore_devices (s : State) : s.resetCore.devices = s.devices := rfl
@[simp] theorem State.resetCore_events (s : State) : s.resetCore.events = s.events := rfl
@[simp] theorem State.resetCore_params (s : State) : s.resetCore.params = s.params := rfl

/-! ## Results -/

@[simp] theorem Result.done_andThen {α β : Type} (a : α) (s : State) (k : α → State → Result β) :
    (Result.done a s).andThen k = k a s := rfl

@[simp] theorem Result.raised_andThen {α β : Type} (f : FaultInfo) (s : State) (k : α → State → Result β) :
    (Result.raised f s).andThen k = .raised f s := rfl

/-- Inversion: two parts in sequence are done exactly when each is. -/
theorem Result.andThen_eq_done {α β : Type} {r : Result α} {k : α → State → Result β} {b : β} {t : State} :
    r.andThen k = .done b t ↔ ∃ a s, r = .done a s ∧ k a s = .done b t := by
  cases r <;> simp [Result.andThen]

/-- Inversion: a sequence raises a fault in its first part, or after it. -/
theorem Result.andThen_eq_raised {α β : Type} {r : Result α} {k : α → State → Result β} {f : FaultInfo} {t : State} :
    r.andThen k = .raised f t ↔ r = .raised f t ∨ ∃ a s, r = .done a s ∧ k a s = .raised f t := by
  cases r <;> simp [Result.andThen]

@[simp] theorem BusResult.value_at (v : Word) (s : State) : (BusResult.value v).at s = .done v s := rfl

@[simp] theorem BusResult.fault_at (f : FaultInfo) (s : State) : (BusResult.fault f).at s = .raised f s := rfl

@[simp] theorem complete_done (o : Op) (s t : State) (u : Unit) : complete o s (.done u t) = .next t := rfl

@[simp] theorem complete_raised (o : Op) (s t : State) (f : FaultInfo) :
    complete o s (.raised f t) = .next (t.takeFault (s.instrStart o) f) := rfl

end Sys2Proof.Machine
end

