-- ==== Sys2Proof/Laws/Bus.lean ====
section
/-! SUPPORT. What one transaction does: where it goes, what it answers, which devices and bytes it changes. -/

namespace Sys2Proof.Machine

/-! ## Devices in the device list -/

theorem State.device_eq (s : State) (h : Nat) : s.device h = s.devices.getD h (.ram 0 []) := rfl

/-- The device list with one device replaced, as `State.device` reads it. -/
theorem getD_set_devices (ds : List Device) (h q : Nat) (d : Device) :
    (ds.set h d).getD q (.ram 0 []) = if q = h ∧ h < ds.length then d else ds.getD q (.ram 0 []) := by
  simp only [List.getD_eq_getElem?_getD, List.getElem?_set]
  by_cases hq : h = q
  · subst hq
    by_cases hl : h < ds.length <;> simp [hl]
  · simp [hq, Ne.symm hq]

/-- Putting back the device that is there changes nothing. -/
theorem State.set_device_self (s : State) (h : Nat) : s.devices.set h (s.device h) = s.devices := by
  by_cases hl : h < s.devices.length
  · rw [State.device_eq, List.getD_eq_getElem _ _ hl]
    exact List.set_getElem_self hl
  · exact List.set_eq_of_length_le (by omega)

/-! ## Where a transaction goes -/

theorem State.target_none {s : State} {k : Access} {a : Word} {w : Width} (h : resolve s.regions a = none) :
    s.target k a w = .fault none (.unmappedAddress a w k) := by
  simp [State.target, h]

theorem State.target_straddle {s : State} {k : Access} {a : Word} {g : Region} (h : resolve s.regions a = some g)
    (ha : a = g.last) : s.target k a .two = .fault (some g) (.regionStraddle a k g) := by
  simp [State.target, h, ← ha]

theorem State.target_two {s : State} {k : Access} {a : Word} {g : Region} (h : resolve s.regions a = some g)
    (ha : a ≠ g.last) : s.target k a .two = .device g (g.offset a) := by
  simp [State.target, h, ha]

theorem State.target_one {s : State} {k : Access} {a : Word} {g : Region} (h : resolve s.regions a = some g) :
    s.target k a .one = .device g (g.offset a) := by
  simp [State.target, h]

/-- A target never depends on anything but the region list. -/
theorem State.target_congr {s t : State} (h : t.regions = s.regions) (k : Access) (a : Word) (w : Width) :
    t.target k a w = s.target k a w := by
  simp only [State.target, h]

theorem State.busRead_congr {s t : State} (hr : t.regions = s.regions) (hd : t.devices = s.devices) (a : Word) (w : Width) :
    t.busRead a w = s.busRead a w := by
  have : ∀ h, t.device h = s.device h := fun h => by rw [State.device_eq, State.device_eq, hd]
  simp only [State.busRead, State.target_congr hr, this, hd]

theorem State.busWrite_congr {s t : State} (hr : t.regions = s.regions) (hd : t.devices = s.devices) (a : Word) (w : Width)
    (v : Word) : t.busWrite a w v = s.busWrite a w v := by
  have : ∀ h, t.device h = s.device h := fun h => by rw [State.device_eq, State.device_eq, hd]
  simp only [State.busWrite, State.target_congr hr, this, hd]

/-! ## Which devices a transaction changes -/

/-- A read leaves the devices alone, or replaces one by itself after a read of it. -/
theorem State.busRead_devices (s : State) (a : Word) (w : Width) :
    (s.busRead a w).devices = s.devices ∨
      ∃ h o, (s.busRead a w).devices = s.devices.set h ((s.device h).read h o w).2 := by
  unfold State.busRead
  split
  · exact .inl rfl
  · next g o _ =>
    split
    · next d hd => exact .inr ⟨g.device, o, by rw [hd]⟩
    · next v d hd => exact .inr ⟨g.device, o, by rw [hd]⟩

/-- A write leaves the devices alone, or replaces one by itself after a write to it. -/
theorem State.busWrite_devices (s : State) (a : Word) (w : Width) (v : Word) :
    (s.busWrite a w v).devices = s.devices ∨
      ∃ h o, (s.busWrite a w v).devices = s.devices.set h ((s.device h).write h o w v).2 := by
  unfold State.busWrite
  split
  · exact .inl rfl
  · next g o _ =>
    split
    · next d hd => exact .inr ⟨g.device, o, by rw [hd]⟩
    · next d hd => exact .inr ⟨g.device, o, by rw [hd]⟩

/-- The byte at an offset of a device. -/
def Device.byte (d : Device) (o : Nat) : Byte :=
  match d with
  | .ram _ b => Memory.read b o
  | .screen => Memory.unlisted
  | .external _ => Memory.unlisted

theorem State.ramByte_eq (s : State) (h o : Nat) : s.ramByte h o = (s.device h).byte o := by
  unfold State.ramByte Device.byte
  cases s.device h <;> rfl

theorem Device.byte_read (h : Nat) (d : Device) (o : Word) (w : Width) (q : Nat) : (d.read h o w).2.byte q = d.byte q := by
  cases d with
  | ram n b => rw [Device.read_ram_after]
  | screen => rw [Device.read_screen]
  | external hist => cases w <;> rfl

/-- A 16-bit device write leaves every byte but the two at its offset alone. -/
theorem Device.byte_write_ne (h : Nat) (d : Device) (o v : Word) {q : Nat} (h0 : q ≠ o.toNat) (h1 : q ≠ o.toNat + 1) :
    (d.write h o .two v).2.byte q = d.byte q := by
  cases d with
  | ram n b =>
    by_cases ho : o.toNat + 1 ≥ n
    · simp only [Device.write, if_pos ho]
    · simp only [Device.write, if_neg ho, Device.byte]
      rw [Memory.read_write_ne _ _ h1, Memory.read_write_ne _ _ h0]
  | screen => rw [Device.write_screen]
  | external hist => rfl

/-- A read leaves every byte of every RAM device alone. -/
theorem State.ramByte_after_read {s t : State} {a : Word} {w : Width} (ht : t.devices = (s.busRead a w).devices) (h o : Nat) :
    t.ramByte h o = s.ramByte h o := by
  rw [State.ramByte_eq, State.ramByte_eq, State.device_eq, ht]
  rcases s.busRead_devices a w with hd | ⟨k, p, hd⟩
  · rw [hd]; rfl
  · rw [hd, getD_set_devices]
    split
    · next hk => rw [hk.1, Device.byte_read]
    · rfl

/-- A 16-bit write leaves every byte outside the two places stored to alone. -/
theorem State.ramByte_after_write {s t : State} {a v : Word} (ht : t.devices = (s.busWrite a .two v).devices) {h o : Nat}
    (hp : (h, o) ∉ s.storedPlaces a) : t.ramByte h o = s.ramByte h o := by
  rw [State.ramByte_eq, State.ramByte_eq, State.device_eq, ht]
  unfold State.busWrite
  unfold State.storedPlaces at hp
  split
  · rfl
  · next g p hg =>
    simp only [hg, List.mem_cons, List.not_mem_nil, or_false, not_or, Prod.mk.injEq, not_and] at hp
    have key : ((s.devices.set g.device ((s.device g.device).write g.device p .two v).2).getD h (.ram 0 [])).byte o =
        (s.device h).byte o := by
      rw [getD_set_devices]
      split
      · next hk => rw [hk.1]; exact Device.byte_write_ne _ _ _ _ (hp.1 hk.1) (hp.2 hk.1)
      · rfl
    split
    · next d hd => rw [hd] at key; exact key
    · next d hd => rw [hd] at key; exact key

/-! ## Words and bytes in RAM and the screen -/

/-- The word at an address lies in RAM or is the screen's, in the terms of the multiplexer. -/
theorem State.ramWord_iff {s : State} {a : Word} {h o : Nat} :
    s.ramWord a = some (h, o) ↔ ∃ g n b, resolve s.regions a = some g ∧ a ≠ g.last ∧ s.device g.device = .ram n b ∧
      (g.offset a).toNat + 1 < n ∧ h = g.device ∧ o = (g.offset a).toNat := by
  unfold State.ramWord
  cases hr : resolve s.regions a with
  | none => simp
  | some g =>
    by_cases ha : a = g.last
    · simp [ha]
    · cases hd : s.device g.device with
      | ram n b =>
        by_cases hn : (g.offset a).toNat + 1 < n
        · simp only [ha, if_false, hd, hn, if_true, Option.some.injEq, Prod.mk.injEq]
          constructor
          · rintro ⟨rfl, rfl⟩
            exact ⟨g, n, b, rfl, ha, hd, hn, rfl, rfl⟩
          · rintro ⟨g', _, _, rfl, _, _, _, rfl, rfl⟩
            exact ⟨rfl, rfl⟩
        · simp only [ha, if_false, hd, hn, reduceCtorEq, false_iff]
          rintro ⟨g', n', b', hg, _, hd', hn', _, _⟩
          cases hg
          rw [hd] at hd'
          cases hd'
          exact hn hn'
      | screen => simp [ha, hd]
      | external hist => simp [ha, hd]

theorem State.screenWord_iff {s : State} {a o : Word} :
    s.screenWord a = some o ↔ ∃ g, resolve s.regions a = some g ∧ a ≠ g.last ∧ s.device g.device = .screen ∧ o = g.offset a := by
  unfold State.screenWord
  cases hr : resolve s.regions a with
  | none => simp
  | some g =>
    by_cases ha : a = g.last
    · simp [ha]
    · cases hd : s.device g.device <;> simp [ha, hd, eq_comm]

theorem State.wordAt_some {s : State} {a v : Word} (h : s.wordAt a = some v) :
    (∃ p, s.ramWord a = some p ∧ v = wordOfBytes (s.ramByte p.1 p.2) (s.ramByte p.1 (p.2 + 1))) ∨
      (∃ o, s.screenWord a = some o ∧ v = 0) := by
  unfold State.wordAt at h
  cases hp : s.ramWord a with
  | some p => exact .inl ⟨p, rfl, by simpa [hp] using h.symm⟩
  | none =>
    cases ho : s.screenWord a with
    | some o => exact .inr ⟨o, rfl, by simpa [hp, ho] using h.symm⟩
    | none => simp [hp, ho] at h

/-- A read that reaches a device answers `DeviceRange` or data, and leaves the device as its read does. -/
theorem State.busRead_of_target {s : State} {a : Word} {w : Width} {g : Region} {o : Word}
    (ht : s.target .read a w = .device g o) :
    (s.busRead a w).region = some g ∧ (s.busRead a w).offset = some o ∧
      (s.busRead a w).devices = s.devices.set g.device ((s.device g.device).read g.device o w).2 := by
  simp only [State.busRead, ht]
  split <;> next h => simp [h]

/-- A write that reaches a device answers `DeviceRange` or its own data, and leaves the device as its write does. -/
theorem State.busWrite_of_target {s : State} {a v : Word} {w : Width} {g : Region} {o : Word}
    (ht : s.target .write a w = .device g o) :
    (s.busWrite a w v).region = some g ∧ (s.busWrite a w v).offset = some o ∧
      (s.busWrite a w v).devices = s.devices.set g.device ((s.device g.device).write g.device o w v).2 := by
  simp only [State.busWrite, ht]
  split <;> next h => simp [h]

/-- A write that completes answers its own data (20_memory.md R47). -/
theorem State.busWrite_value {s : State} {a v u : Word} {w : Width} (h : (s.busWrite a w v).result = .value u) :
    u = w.data v := by
  unfold State.busWrite at h
  split at h
  · cases h
  · split at h <;> cases h
    rfl

/-- A 16-bit read of RAM. -/
theorem State.busRead_ram {s : State} {a : Word} {g : Region} {n : Nat} {b : Memory} (hr : resolve s.regions a = some g)
    (ha : a ≠ g.last) (hd : s.device g.device = .ram n b) (hn : (g.offset a).toNat + 1 < n) :
    s.busRead a .two = ⟨some g, some (g.offset a),
      .value (wordOfBytes (s.ramByte g.device (g.offset a).toNat) (s.ramByte g.device ((g.offset a).toNat + 1))), s.devices⟩ := by
  have hself := s.set_device_self g.device
  rw [hd] at hself
  simp only [State.busRead, State.target_two hr ha, hd, Device.read, if_neg (show ¬ (g.offset a).toNat + 1 ≥ n by omega),
    hself, State.ramByte]

/-- A 16-bit write of RAM. -/
theorem State.busWrite_ram {s : State} {a v : Word} {g : Region} {n : Nat} {b : Memory} (hr : resolve s.regions a = some g)
    (ha : a ≠ g.last) (hd : s.device g.device = .ram n b) (hn : (g.offset a).toNat + 1 < n) :
    s.busWrite a .two v = ⟨some g, some (g.offset a), .value v,
      s.devices.set g.device (.ram n (Memory.write (Memory.write b (g.offset a).toNat (hiByte v))
        ((g.offset a).toNat + 1) (loByte v)))⟩ := by
  simp only [State.busWrite, State.target_two hr ha, hd, Device.write, if_neg (show ¬ (g.offset a).toNat + 1 ≥ n by omega),
    Width.data_two]

/-- A 16-bit read of the screen. -/
theorem State.busRead_screen {s : State} {a : Word} {g : Region} (hr : resolve s.regions a = some g)
    (ha : a ≠ g.last) (hd : s.device g.device = .screen) :
    s.busRead a .two = ⟨some g, some (g.offset a), .value 0, s.devices⟩ := by
  have hself := s.set_device_self g.device
  rw [hd] at hself
  simp only [State.busRead, State.target_two hr ha, hd, Device.read, hself]

/-- A 16-bit write of the screen. -/
theorem State.busWrite_screen {s : State} {a v : Word} {g : Region} (hr : resolve s.regions a = some g)
    (ha : a ≠ g.last) (hd : s.device g.device = .screen) :
    s.busWrite a .two v = ⟨some g, some (g.offset a), .value v, s.devices⟩ := by
  have hself := s.set_device_self g.device
  rw [hd] at hself
  simp only [State.busWrite, State.target_two hr ha, hd, Device.write, hself, Width.data_two]

/-- A 16-bit read where `wordAt` says completes with its word and changes no device. -/
theorem State.busRead_wordAt {s : State} {a v : Word} (h : s.wordAt a = some v) :
    (s.busRead a .two).result = .value v ∧ (s.busRead a .two).devices = s.devices := by
  rcases State.wordAt_some h with ⟨⟨q, o⟩, hp, rfl⟩ | ⟨o, ho, rfl⟩
  · obtain ⟨g, n, b, hr, ha, hd, hn, rfl, rfl⟩ := State.ramWord_iff.1 hp
    simp [State.busRead_ram hr ha hd hn]
  · obtain ⟨g, hr, ha, hd, rfl⟩ := State.screenWord_iff.1 ho
    simp [State.busRead_screen hr ha hd]

/-- A 16-bit write where `wordAt` is defined completes. -/
theorem State.busWrite_wordAt {s : State} {a : Word} (h : (s.wordAt a).isSome) (v : Word) :
    (s.busWrite a .two v).result = .value v := by
  obtain ⟨u, hu⟩ := Option.isSome_iff_exists.1 h
  rcases State.wordAt_some hu with ⟨⟨q, o⟩, hp, -⟩ | ⟨o, ho, -⟩
  · obtain ⟨g, n, b, hr, ha, hd, hn, rfl, rfl⟩ := State.ramWord_iff.1 hp
    simp [State.busWrite_ram hr ha hd hn]
  · obtain ⟨g, hr, ha, hd, rfl⟩ := State.screenWord_iff.1 ho
    simp [State.busWrite_screen hr ha hd]

/-- An 8-bit read where `byteAt` says completes with its byte and changes no device. -/
theorem State.busRead_byteAt {s : State} {a : Word} {b : Byte} (h : s.byteAt a = some b) :
    (s.busRead a .one).result = .value (b.setWidth 16) ∧ (s.busRead a .one).devices = s.devices := by
  unfold State.byteAt at h
  split at h
  · simp at h
  · next g hr =>
    have hself := s.set_device_self g.device
    split at h
    · next n m hd =>
      rw [hd] at hself
      split at h
      · next hn =>
        simp only [Option.some.injEq] at h
        simp only [State.busRead, State.target_one hr, hd, Device.read, if_neg (show ¬ (g.offset a).toNat ≥ n by omega), h,
          hself, and_self]
      · simp at h
    · next hd =>
      rw [hd] at hself
      simp only [Option.some.injEq] at h
      subst h
      simp [State.busRead, State.target_one hr, hd, Device.read, hself]
    · simp at h

/-! ## memRead and memWrite -/

theorem memRead_of_value {s : State} {a : Word} {w : Width} {v : Word} (h : (s.busRead a w).result = .value v) :
    memRead a w s = .done v (s.after (s.busRead a w) ((s.busRead a w).event .read w a)) := by
  simp only [memRead, h, BusResult.value_at]

theorem memRead_of_fault {s : State} {a : Word} {w : Width} {f : FaultInfo} (h : (s.busRead a w).result = .fault f) :
    memRead a w s = .raised f (s.after (s.busRead a w) ((s.busRead a w).event .read w a)) := by
  simp only [memRead, h, BusResult.fault_at]

theorem memWrite_of_value {s : State} {a : Word} {w : Width} {u v : Word} (h : (s.busWrite a w v).result = .value u) :
    memWrite a w v s = .done u (s.after (s.busWrite a w v) ((s.busWrite a w v).event .write w a)) := by
  simp only [memWrite, h, BusResult.value_at]

theorem memWrite_of_fault {s : State} {a : Word} {w : Width} {v : Word} {f : FaultInfo}
    (h : (s.busWrite a w v).result = .fault f) :
    memWrite a w v s = .raised f (s.after (s.busWrite a w v) ((s.busWrite a w v).event .write w a)) := by
  simp only [memWrite, h, BusResult.fault_at]

/-- The whole of what a read can be: the recorded transaction, done or raised as the transaction ended. -/
theorem memRead_cases (a : Word) (w : Width) (s : State) :
    (∃ v, (s.busRead a w).result = .value v ∧
      memRead a w s = .done v (s.after (s.busRead a w) ((s.busRead a w).event .read w a))) ∨
    (∃ f, (s.busRead a w).result = .fault f ∧
      memRead a w s = .raised f (s.after (s.busRead a w) ((s.busRead a w).event .read w a))) := by
  cases h : (s.busRead a w).result with
  | value v => exact .inl ⟨v, rfl, memRead_of_value h⟩
  | fault f => exact .inr ⟨f, rfl, memRead_of_fault h⟩

/-- The whole of what a write can be. -/
theorem memWrite_cases (a : Word) (w : Width) (v : Word) (s : State) :
    (∃ u, (s.busWrite a w v).result = .value u ∧
      memWrite a w v s = .done u (s.after (s.busWrite a w v) ((s.busWrite a w v).event .write w a))) ∨
    (∃ f, (s.busWrite a w v).result = .fault f ∧
      memWrite a w v s = .raised f (s.after (s.busWrite a w v) ((s.busWrite a w v).event .write w a))) := by
  cases h : (s.busWrite a w v).result with
  | value u => exact .inl ⟨u, rfl, memWrite_of_value h⟩
  | fault f => exact .inr ⟨f, rfl, memWrite_of_fault h⟩

/-! ## Fault kinds -/

/-- A read faults only as `UnmappedAddress`, `RegionStraddle` or `DeviceRange` (60_exceptions.md R180, R189). -/
theorem State.busRead_fault_kind {s : State} {a : Word} {w : Width} {f : FaultInfo} (h : (s.busRead a w).result = .fault f) :
    f.kind = .unmappedAddress ∨ f.kind = .regionStraddle ∨ f.kind = .deviceRange := by
  unfold State.busRead State.target at h
  split at h
  · next hg =>
    split at hg
    · cases hg; cases h; exact .inl rfl
    · split at hg
      · cases hg; cases h; exact .inr (.inl rfl)
      · cases hg
  · split at h
    · cases h; exact .inr (.inr rfl)
    · cases h

/-- A write faults only as `UnmappedAddress`, `RegionStraddle` or `DeviceRange` (60_exceptions.md R180, R189). -/
theorem State.busWrite_fault_kind {s : State} {a : Word} {w : Width} {v : Word} {f : FaultInfo}
    (h : (s.busWrite a w v).result = .fault f) :
    f.kind = .unmappedAddress ∨ f.kind = .regionStraddle ∨ f.kind = .deviceRange := by
  unfold State.busWrite State.target at h
  split at h
  · next hg =>
    split at hg
    · cases hg; cases h; exact .inl rfl
    · split at hg
      · cases hg; cases h; exact .inr (.inl rfl)
      · cases hg
  · split at h
    · cases h; exact .inr (.inr rfl)
    · cases h

end Sys2Proof.Machine
end

