-- ==== Sys2Proof/Laws/Decode.lean ====
section
/-! SUPPORT. The small lemmas of the decoder and the encoder: bytes and words, register bytes, opcode maps, fields. -/

namespace Sys2Proof

/-! ## Bytes, words and registers -/

/-- The bits of a word: the low byte's, then the high byte's. -/
theorem getLsbD_wordOfBytes (hi lo : Byte) (k : Nat) :
    (wordOfBytes hi lo).getLsbD k = if k < 8 then lo.getLsbD k else hi.getLsbD (k - 8) :=
  BitVec.getLsbD_append

@[simp] theorem wordOfBytes_hiByte_loByte (v : Word) : wordOfBytes (hiByte v) (loByte v) = v := by
  apply BitVec.eq_of_getLsbD_eq
  intro k hk
  rw [getLsbD_wordOfBytes]
  split
  · next h => simp [loByte, h]
  · next h => simp [hiByte, show k - 8 < 8 by omega, show 8 + (k - 8) = k by omega]

@[simp] theorem hiByte_wordOfBytes (hi lo : Byte) : hiByte (wordOfBytes hi lo) = hi := by
  apply BitVec.eq_of_getLsbD_eq
  intro k hk
  simp only [hiByte, BitVec.getLsbD_extractLsb', hk, decide_true, Bool.true_and, getLsbD_wordOfBytes]
  simp

@[simp] theorem loByte_wordOfBytes (hi lo : Byte) : loByte (wordOfBytes hi lo) = lo := by
  apply BitVec.eq_of_getLsbD_eq
  intro k hk
  simp [loByte, hk, getLsbD_wordOfBytes]

@[simp] theorem loByte_setWidth (b : Byte) : loByte (b.setWidth 16) = b := by
  apply BitVec.eq_of_getLsbD_eq
  intro k hk
  simp only [loByte, BitVec.getLsbD_extractLsb', BitVec.getLsbD_setWidth, hk, decide_true, Bool.true_and, Nat.zero_add,
    show k < 16 by omega]

@[simp] theorem Reg.ofByte_toByte (r : Reg) : Reg.ofByte r.toByte = r := by cases r <;> rfl

theorem Reg.index_lt (r : Reg) : r.index < 12 := by cases r <;> decide

theorem Reg.index_ofIndex {n : Nat} (h : n < 12) : (Reg.ofIndex n).index = n := by
  interval_cases n <;> rfl

theorem Reg.mem_all (r : Reg) : r ∈ Reg.all := by cases r <;> decide

/-! ## Opcode maps -/

theorem Op.mem_all (o : Op) : o ∈ Op.all := by cases o <;> decide

/-- A byte that is assigned is the byte of its instruction. -/
theorem OpcodeMap.byteOf_of_assigned {m : OpcodeMap} {b : Byte} {o : Op} (h : m.assigned b = some o) : m.byteOf o = b := by
  simpa using List.find?_some h

theorem OpcodeMap.assigned_eq_none {m : OpcodeMap} {b : Byte} : m.assigned b = none ↔ ∀ o, m.byteOf o ≠ b := by
  simp [OpcodeMap.assigned, Op.mem_all]

theorem OpcodeMap.injective_of_wf {m : OpcodeMap} (h : m.wf = true) {o p : Op} (he : m.byteOf o = m.byteOf p) : o = p := by
  simp only [OpcodeMap.wf, OpcodeMap.injective, Bool.and_eq_true, decide_eq_true_eq] at h
  exact List.inj_on_of_nodup_map h.2 (Op.mem_all o) (Op.mem_all p) he

/-- Under an injective map the byte of an instruction is assigned to it. -/
theorem OpcodeMap.assigned_byteOf {m : OpcodeMap} (h : m.wf = true) (o : Op) : m.assigned (m.byteOf o) = some o := by
  cases ha : m.assigned (m.byteOf o) with
  | none => exact absurd rfl (OpcodeMap.assigned_eq_none.1 ha o)
  | some p => rw [OpcodeMap.injective_of_wf h (OpcodeMap.byteOf_of_assigned ha)]

/-! ## Fields -/

/-- The kinds a field value has: a register, or a word in a literal or an address field. -/
def FieldValue.hasKind : FieldValue → FieldKind → Prop
  | .reg _, .register => True
  | .word _, .literal => True
  | .word _, .address => True
  | _, _ => False

/-- Parsing the bytes of field values of the right kinds gives them back. -/
theorem parseFields_bytes {ks : List FieldKind} {vs : List FieldValue} (h : List.Forall₂ FieldValue.hasKind vs ks)
    (rest : List Byte) : parseFields ks (vs.flatMap FieldValue.bytes ++ rest) = some (vs, rest) := by
  induction h with
  | nil => rfl
  | @cons v k vs ks hk _ ih =>
    cases v <;> cases k <;> simp_all [FieldValue.hasKind, FieldValue.bytes, parseFields]

/-- Parsed fields have the kinds asked for, and take the bytes the kinds take. -/
theorem parseFields_some {ks : List FieldKind} {bs rest : List Byte} {vs : List FieldValue}
    (h : parseFields ks bs = some (vs, rest)) :
    List.Forall₂ FieldValue.hasKind vs ks ∧ ∃ used, bs = used ++ rest ∧ used.length = (ks.map FieldKind.size).sum := by
  induction ks generalizing bs vs with
  | nil => cases h; exact ⟨.nil, [], rfl, rfl⟩
  | cons k ks ih =>
    cases k with
    | register =>
      cases bs with
      | nil => cases h
      | cons b bs =>
        simp only [parseFields, Option.map_eq_some_iff, Prod.exists, Prod.mk.injEq] at h
        obtain ⟨us, r, hp, rfl, rfl⟩ := h
        obtain ⟨hk, used, rfl, hl⟩ := ih hp
        exact ⟨.cons trivial hk, b :: used, rfl, by simp [hl, FieldKind.size]; omega⟩
    | literal | address =>
      match bs, h with
      | hi :: lo :: bs, h =>
        simp only [parseFields, Option.map_eq_some_iff, Prod.exists, Prod.mk.injEq] at h
        obtain ⟨us, r, hp, rfl, rfl⟩ := h
        obtain ⟨hk, used, rfl, hl⟩ := ih hp
        exact ⟨.cons trivial hk, hi :: lo :: used, rfl, by simp [hl, FieldKind.size]; omega⟩

/-- Fields are parsed wherever there are bytes enough for them. -/
theorem parseFields_isSome {ks : List FieldKind} {bs : List Byte} (h : (ks.map FieldKind.size).sum ≤ bs.length) :
    ∃ p, parseFields ks bs = some p := by
  induction ks generalizing bs with
  | nil => exact ⟨_, rfl⟩
  | cons k ks ih =>
    cases k with
    | register =>
      cases bs with
      | nil => simp [FieldKind.size] at h
      | cons b bs =>
        obtain ⟨p, hp⟩ := ih (bs := bs) (by simp [FieldKind.size] at h; omega)
        exact ⟨_, by simp only [parseFields, hp]; rfl⟩
    | literal | address =>
      match bs, h with
      | [], h => simp [FieldKind.size] at h
      | [_], h => simp [FieldKind.size] at h; omega
      | hi :: lo :: bs, h =>
        obtain ⟨p, hp⟩ := ih (bs := bs) (by simp [FieldKind.size] at h; omega)
        exact ⟨_, by simp only [parseFields, hp]; rfl⟩

/-- Values of the kinds an instruction's format has build an instruction of that name. -/
theorem Instr.build_isSome {o : Op} {vs : List FieldValue} (h : List.Forall₂ FieldValue.hasKind vs o.format.fields) :
    ∃ i, Instr.build o vs = some i ∧ i.op = o := by
  cases o <;> simp only [Op.format, Format.fields] at h <;>
    (try cases h with | nil => exact ⟨_, rfl, rfl⟩) <;>
    (rcases h with _ | ⟨h1, h⟩; rename_i v _; cases v <;> simp only [FieldValue.hasKind] at h1) <;>
    (try cases h with | nil => exact ⟨_, rfl, rfl⟩) <;>
    (rcases h with _ | ⟨h2, h⟩; rename_i v _; cases v <;> simp only [FieldValue.hasKind] at h2) <;>
    (try cases h with | nil => exact ⟨_, rfl, rfl⟩) <;>
    (rcases h with _ | ⟨h3, h⟩; rename_i v _; cases v <;> simp only [FieldValue.hasKind] at h3) <;>
    (cases h; exact ⟨_, rfl, rfl⟩)

/-- An instruction is built from its own fields. -/
@[simp] theorem Instr.build_fields (i : Instr) : Instr.build i.op i.fields = some i := by cases i <;> rfl

/-- The fields of an instruction have the kinds of its format. -/
theorem Instr.fields_hasKind (i : Instr) : List.Forall₂ FieldValue.hasKind i.fields i.op.format.fields := by
  cases i <;> simp [Instr.fields, Instr.op, Op.format, Format.fields, FieldValue.hasKind]

/-- Every instruction takes 1 to 5 bytes. -/
theorem Op.length_bounds (o : Op) : 1 ≤ o.length ∧ o.length ≤ 5 := by cases o <;> decide

end Sys2Proof
end

