-- ==== Sys2Proof/Laws/Step.lean ====
section
/-! SUPPORT. What a step can do, said once: a running core reaches its next state by register writes, counter writes and
recorded transactions, and then possibly latches a status. Invariants of the machine follow by induction on `Reaches`. -/

namespace Sys2Proof.Machine

/-- The states a part of an instruction can reach, short of writing the status. -/
inductive Reaches (s : State) : State → Prop where
  | refl : Reaches s s
  | setX {t : State} (r : Reg) (v : Word) : Reaches s t → Reaches s (t.setX r v)
  | setCounter {t : State} (v : Word) : Reaches s t → Reaches s (t.setCounter v)
  | read {t : State} (a : Word) (w : Width) :
      Reaches s t → Reaches s (t.after (t.busRead a w) ((t.busRead a w).event .read w a))
  | write {t : State} (a v : Word) :
      Reaches s t → Reaches s (t.after (t.busWrite a .two v) ((t.busWrite a .two v).event .write .two a))

theorem Reaches.trans {s t u : State} (h1 : Reaches s t) (h2 : Reaches t u) : Reaches s u := by
  induction h2 with
  | refl => exact h1
  | setX r v _ ih => exact .setX r v ih
  | setCounter v _ ih => exact .setCounter v ih
  | read a w _ ih => exact .read a w ih
  | write a v _ ih => exact .write a v ih

theorem Reaches.status {s t : State} (h : Reaches s t) : t.status = s.status := by
  induction h with
  | refl => rfl
  | setX r v _ ih => exact ih
  | setCounter v _ ih => exact ih
  | read a w _ ih => exact ih
  | write a v _ ih => exact ih

theorem Reaches.samePlatform {s t : State} (h : Reaches s t) : SamePlatform s t := by
  induction h with
  | refl => exact ⟨rfl, rfl, rfl⟩
  | setX r v _ ih => exact ih
  | setCounter v _ ih => exact ih
  | read a w _ ih => exact ih
  | write a v _ ih => exact ih

/-- The fault kinds of a transaction. -/
def FaultInfo.ofBus (f : FaultInfo) : Prop :=
  f.kind = .unmappedAddress ∨ f.kind = .regionStraddle ∨ f.kind = .deviceRange

/-- A part of an instruction reaches its state, and raises only a transaction's fault. -/
def Result.From {α : Type} (s : State) (r : Result α) : Prop :=
  match r with
  | .done _ t => Reaches s t
  | .raised f t => Reaches s t ∧ f.ofBus

theorem Result.From.andThen {α β : Type} {s : State} {r : Result α} {k : α → State → Result β} (hr : r.From s)
    (hk : ∀ a t, Reaches s t → (k a t).From s) : (r.andThen k).From s := by
  cases r with
  | done a t => exact hk a t hr
  | raised f t => exact hr

theorem Result.From.trans {α : Type} {s t : State} {r : Result α} (h : Reaches s t) (hr : r.From t) : r.From s := by
  cases r with
  | done a u => exact h.trans hr
  | raised f u => exact ⟨h.trans hr.1, hr.2⟩

theorem memRead_from (a : Word) (w : Width) (s : State) : (memRead a w s).From s := by
  rcases memRead_cases a w s with ⟨v, _, h⟩ | ⟨f, hf, h⟩ <;> rw [h]
  · exact .read a w .refl
  · exact ⟨.read a w .refl, s.busRead_fault_kind hf⟩

theorem memWrite_from (a v : Word) (s : State) : (memWrite a .two v s).From s := by
  rcases memWrite_cases a .two v s with ⟨u, _, h⟩ | ⟨f, hf, h⟩ <;> rw [h]
  · exact .write a v .refl
  · exact ⟨.write a v .refl, s.busWrite_fault_kind hf⟩

theorem fetch8_from (s : State) : (fetch8 s).From s :=
  (memRead_from _ _ s).andThen fun _ _ h => .setX _ _ h

theorem fetch16_from (s : State) : (fetch16 s).From s :=
  (memRead_from _ _ s).andThen fun _ _ h => .setX _ _ h

theorem fetchReg_from (s : State) : (fetchReg s).From s :=
  (fetch8_from s).andThen fun _ _ h => h

theorem fetchField_from (k : FieldKind) (s : State) : (fetchField k s).From s := by
  cases k with
  | register => exact (fetchReg_from s).andThen fun _ _ h => h
  | literal => exact (fetch16_from s).andThen fun _ _ h => h
  | address => exact (fetch16_from s).andThen fun _ _ h => h

theorem fetchFields_from (ks : List FieldKind) (s : State) : (fetchFields ks s).From s := by
  induction ks generalizing s with
  | nil => exact Reaches.refl
  | cons k ks ih =>
    exact (fetchField_from k s).andThen fun _ t h => .andThen (.trans h (ih t)) fun _ _ h => h

theorem push_from (v : Word) (s : State) : (push v s).From s :=
  (memWrite_from _ _ s).andThen fun _ _ h => .setCounter _ (.setX _ _ h)

theorem pop_from (s : State) : (pop s).From s :=
  .andThen (.trans (.setX _ _ .refl) (memRead_from _ _ _)) fun _ _ h => .setCounter _ h

theorem pushRegs_from (rs : List Reg) (s : State) : (pushRegs rs s).From s := by
  induction rs generalizing s with
  | nil => exact Reaches.refl
  | cons r rs ih => exact (push_from _ s).andThen fun _ t h => .trans h (ih t)

theorem popRegs_from (rs : List Reg) (s : State) : (popRegs rs s).From s := by
  induction rs generalizing s with
  | nil => exact Reaches.refl
  | cons r rs ih => exact (pop_from s).andThen fun _ t h => .trans (.setX _ _ h) (ih _)

theorem discard_from (n : Nat) (s : State) : (discard n s).From s := by
  induction n generalizing s with
  | zero => exact Reaches.refl
  | succ n ih => exact (pop_from s).andThen fun _ t h => .trans h (ih t)

theorem pushState_from (s : State) : (pushState s).From s :=
  (pushRegs_from _ s).andThen fun _ t h =>
    .andThen (.trans h (push_from _ t)) fun _ _ h => .setCounter _ (.setX _ _ h)

theorem popState_from (s : State) : (popState s).From s :=
  .andThen (.trans (.setX _ _ .refl) (pop_from _)) fun _ _ h =>
    .andThen (.trans (.setCounter _ h) (popRegs_from _ _)) fun _ t h =>
      .andThen (.trans h (pop_from t)) fun _ t h =>
        .andThen (.trans h (discard_from _ t)) fun _ _ h => .setX _ _ h

theorem loadWord_from (m : MemOperand) (rd : Reg) (s : State) : (loadWord m rd s).From s :=
  (memRead_from _ _ s).andThen fun _ _ h => .setX _ _ h

theorem storeWord_from (m : MemOperand) (v : Source) (s : State) : (storeWord m v s).From s :=
  (memWrite_from _ _ s).andThen fun _ _ h => h

/-- How an instruction's execute phase can end: completed, with a fault taken, or halted. -/
def Ends (o : Op) (s t : State) : Prop :=
  Reaches s t ∨ (∃ t1 f, Reaches s t1 ∧ f.ofBus ∧ t = t1.takeFault (s.instrStart o) f) ∨ (o = .hlt ∧ t = s.setStatus .halted)

theorem complete_ends {o : Op} {s : State} {r : Result Unit} (h : r.From s) : ∃ t, complete o s r = .next t ∧ Ends o s t := by
  cases r with
  | done u t => exact ⟨t, rfl, .inl h⟩
  | raised f t => exact ⟨_, rfl, .inr (.inl ⟨t, f, h.1, h.2, rfl⟩)⟩

theorem branch_reaches (rel : Rel) (v : Source) (a : Word) (s : State) : Reaches s (branch rel v a s) := by
  unfold branch
  split
  · exact .setX _ _ .refl
  · exact .refl

/-- Every instruction answers a next state, and ends in one of the three ways. -/
theorem exec_ends (i : Instr) (s : State) : ∃ t, exec i s = .next t ∧ Ends i.op s t := by
  cases i with
  | movRegMem rs adr => exact complete_ends (storeWord_from _ _ s)
  | movLitMem lit adr => exact complete_ends (storeWord_from _ _ s)
  | movMemReg adr rd => exact complete_ends (loadWord_from _ _ s)
  | movRegPtrReg rp rd => exact complete_ends (loadWord_from _ _ s)
  | movLitOffReg base ro rd => exact complete_ends (loadWord_from _ _ s)
  | pshLit lit => exact complete_ends (push_from _ s)
  | pshReg ra => exact complete_ends (push_from _ s)
  | pop rd => exact complete_ends ((pop_from s).andThen fun _ _ h => .setX _ _ h)
  | calLit adr => exact complete_ends ((pushState_from s).andThen fun _ _ h => .setX _ _ h)
  | calReg ra => exact complete_ends ((pushState_from s).andThen fun _ _ h => .setX _ _ h)
  | ret => exact complete_ends (popState_from s)
  | hlt => exact ⟨_, rfl, .inr (.inr ⟨rfl, rfl⟩)⟩
  | jneLit | jneReg | jeqLit | jeqReg | jltLit | jltReg | jgtLit | jgtReg | jleLit | jleReg | jgeLit | jgeReg =>
    exact ⟨_, rfl, .inl (branch_reaches _ _ _ s)⟩
  | _ => exact ⟨_, rfl, .inl (.setX _ _ .refl)⟩

/-- The decode phase: an instruction, or a fault of a transaction, or an unassigned opcode. -/
theorem fetchInstr_cases (s : State) :
    (∃ i t, fetchInstr s = .done i t ∧ Reaches s t) ∨
      (∃ f t, fetchInstr s = .raised f t ∧ Reaches s t ∧ (f.ofBus ∨ ∃ b, f = .illegalOpcode b (s.x .ip))) := by
  have h8 := fetch8_from s
  unfold fetchInstr
  cases hf : fetch8 s with
  | raised f t => rw [hf] at h8; exact .inr ⟨f, t, rfl, h8.1, .inl h8.2⟩
  | done b s1 =>
    rw [hf] at h8
    simp only [Result.done_andThen]
    split
    · exact .inr ⟨_, s1, rfl, h8, .inr ⟨b, rfl⟩⟩
    · next o _ =>
      have hfs := fetchFields_from o.format.fields s1
      cases hg : fetchFields o.format.fields s1 with
      | raised f t => rw [hg] at hfs; exact .inr ⟨f, t, rfl, Reaches.trans h8 hfs.1, .inl hfs.2⟩
      | done vs s2 =>
        rw [hg] at hfs
        simp only [Result.done_andThen]
        split
        · next i _ => exact .inl ⟨i, s2, rfl, Reaches.trans h8 hfs⟩
        · exact .inr ⟨_, s2, rfl, Reaches.trans h8 hfs, .inr ⟨b, rfl⟩⟩

/-- Inversion of the step: a latched core stays as it is; a running one takes a fault of its decode phase, or executes the
instruction it fetched. -/
theorem step_cases {s t : State} (h : step s = .next t) :
    (s.status ≠ .running ∧ t = s) ∨
    (s.status = .running ∧ ∃ f s1, fetchInstr s = .raised f s1 ∧ Reaches s s1 ∧
      (f.ofBus ∨ ∃ b, f = .illegalOpcode b (s.x .ip)) ∧ t = s1.takeFault (s.x .ip) f) ∨
    (s.status = .running ∧ ∃ i s1, fetchInstr s = .done i s1 ∧ Reaches s s1 ∧ exec i s1 = .next t ∧ Ends i.op s1 t) := by
  unfold step at h
  cases hs : s.status with
  | halted => rw [hs] at h; cases h; exact .inl ⟨by simp, rfl⟩
  | faulted r => rw [hs] at h; cases h; exact .inl ⟨by simp, rfl⟩
  | running =>
    rw [hs] at h
    rcases fetchInstr_cases s with ⟨i, s1, hf, hr⟩ | ⟨f, s1, hf, hr, hk⟩
    · rw [hf] at h
      obtain ⟨u, hu, he⟩ := exec_ends i s1
      have : exec i s1 = .next t := h
      rw [hu] at this
      cases this
      exact .inr (.inr ⟨rfl, i, s1, hf, hr, hu, he⟩)
    · rw [hf] at h
      cases h
      exact .inr (.inl ⟨rfl, f, s1, hf, hr, hk, rfl⟩)

end Sys2Proof.Machine
end

