-- ==== Sys2Proof/Laws/Fetch.lean ====
section
/-! SUPPORT. The fetch primitives and the decode phase: how far `ip` has advanced, and what is fetched where the bytes are known
(40_engine.md R91 to R95). -/

namespace Sys2Proof.Machine

/-! ## How far ip advances -/

theorem fetch8_ip {s t : State} {b : Byte} (h : fetch8 s = .done b t) : t.x .ip = s.x .ip + 1 := by
  obtain ⟨v, u, h1, h2⟩ := Result.andThen_eq_done.1 h
  cases h2
  rcases memRead_cases (s.x .ip) .one s with ⟨_, _, hr⟩ | ⟨_, _, hr⟩ <;> rw [hr] at h1 <;> cases h1
  simp

theorem fetch16_ip {s t : State} {v : Word} (h : fetch16 s = .done v t) : t.x .ip = s.x .ip + 2 := by
  obtain ⟨v, u, h1, h2⟩ := Result.andThen_eq_done.1 h
  cases h2
  rcases memRead_cases (s.x .ip) .two s with ⟨_, _, hr⟩ | ⟨_, _, hr⟩ <;> rw [hr] at h1 <;> cases h1
  simp

/-- One field: `ip` advances by its size, and the value has its kind. -/
theorem fetchField_ip {k : FieldKind} {s t : State} {v : FieldValue} (h : fetchField k s = .done v t) :
    t.x .ip = s.x .ip + BitVec.ofNat 16 k.size ∧ v.hasKind k := by
  cases k with
  | register =>
    obtain ⟨r, u, h1, h2⟩ := Result.andThen_eq_done.1 h
    cases h2
    obtain ⟨b, u, h1, h2⟩ := Result.andThen_eq_done.1 h1
    cases h2
    exact ⟨fetch8_ip h1, trivial⟩
  | literal | address =>
    obtain ⟨r, u, h1, h2⟩ := Result.andThen_eq_done.1 h
    cases h2
    exact ⟨fetch16_ip h1, trivial⟩

/-- The fields of a format. -/
theorem fetchFields_ip {ks : List FieldKind} {s t : State} {vs : List FieldValue} (h : fetchFields ks s = .done vs t) :
    t.x .ip = s.x .ip + BitVec.ofNat 16 (ks.map FieldKind.size).sum ∧ List.Forall₂ FieldValue.hasKind vs ks := by
  induction ks generalizing s vs with
  | nil => cases h; exact ⟨by simp, .nil⟩
  | cons k ks ih =>
    obtain ⟨v, u, h1, h2⟩ := Result.andThen_eq_done.1 h
    obtain ⟨us, w, h3, h4⟩ := Result.andThen_eq_done.1 h2
    cases h4
    obtain ⟨a, b⟩ := fetchField_ip h1
    obtain ⟨c, d⟩ := ih h3
    exact ⟨by rw [c, a, List.map_cons, List.sum_cons, BitVec.ofNat_add, BitVec.add_assoc], .cons b d⟩

/-- After the decode phase `ip` stands at the first byte after the instruction (40_engine.md R94). -/
theorem fetchInstr_ip {s t : State} {i : Instr} (h : fetchInstr s = .done i t) :
    t.x .ip = s.x .ip + BitVec.ofNat 16 i.length := by
  obtain ⟨b, u, h1, h2⟩ := Result.andThen_eq_done.1 h
  split at h2
  · cases h2
  · obtain ⟨vs, w, h3, h4⟩ := Result.andThen_eq_done.1 h2
    obtain ⟨a, c⟩ := fetchFields_ip h3
    split at h4
    · next o _ j hj =>
      cases h4
      obtain ⟨k, hk, ho⟩ := Instr.build_isSome c
      rw [hj] at hk
      cases hk
      rw [a, fetch8_ip h1, Instr.length, ho, Op.length, Format.length, BitVec.ofNat_add, BitVec.add_assoc]
      rfl
    · cases h4

/-! ## The transaction of a fetch -/

/-- A fetch is one read at `ip`: it completes, or its fault is raised and `ip` is not advanced (40_engine.md R91, R92). -/
def Result.FetchedAt {α : Type} (s : State) (r : Result α) : Prop :=
  ∃ e : Event, e.kind = .read ∧ e.addr = s.x .ip ∧
    match r with
    | .done _ t => t.events = e :: s.events ∧ ∃ v, e.result = .value v
    | .raised f t => t.events = e :: s.events ∧ e.result = .fault f ∧ t.x .ip = s.x .ip

theorem memRead_fetchedAt (w : Width) (s : State) : (memRead (s.x .ip) w s).FetchedAt s := by
  refine ⟨(s.busRead (s.x .ip) w).event .read w (s.x .ip), rfl, rfl, ?_⟩
  rcases memRead_cases (s.x .ip) w s with ⟨v, hv, hr⟩ | ⟨f, hf, hr⟩ <;> rw [hr]
  · exact ⟨rfl, v, hv⟩
  · exact ⟨rfl, hf, rfl⟩

/-- What follows a fetch without a transaction of its own. -/
theorem Result.FetchedAt.andThen {α β : Type} {s : State} {r : Result α} {k : α → State → Result β} (h : r.FetchedAt s)
    (hk : ∀ a t, ∃ b u, k a t = .done b u ∧ u.events = t.events) : (r.andThen k).FetchedAt s := by
  obtain ⟨e, h1, h2, h3⟩ := h
  refine ⟨e, h1, h2, ?_⟩
  cases r with
  | done a t =>
    obtain ⟨b, u, hu, he⟩ := hk a t
    rw [Result.done_andThen, hu]
    exact ⟨he.trans h3.1, h3.2⟩
  | raised f t => exact h3

theorem fetch8_fetchedAt (s : State) : (fetch8 s).FetchedAt s :=
  (memRead_fetchedAt .one s).andThen fun _ _ => ⟨_, _, rfl, rfl⟩

theorem fetchField_fetchedAt (k : FieldKind) (s : State) : (fetchField k s).FetchedAt s := by
  have h16 : (fetch16 s).FetchedAt s := (memRead_fetchedAt .two s).andThen fun _ _ => ⟨_, _, rfl, rfl⟩
  cases k with
  | register =>
    exact ((fetch8_fetchedAt s).andThen fun _ _ => ⟨_, _, rfl, rfl⟩).andThen fun _ _ => ⟨_, _, rfl, rfl⟩
  | literal | address => exact h16.andThen fun _ _ => ⟨_, _, rfl, rfl⟩

/-- The fields of a format take one transaction each. -/
theorem fetchFields_events {ks : List FieldKind} {s t : State} {vs : List FieldValue} (h : fetchFields ks s = .done vs t) :
    ∃ evs : List Event, t.events = evs ++ s.events ∧ evs.length = ks.length := by
  induction ks generalizing s vs with
  | nil => cases h; exact ⟨[], rfl, rfl⟩
  | cons k ks ih =>
    obtain ⟨v, u, h1, h2⟩ := Result.andThen_eq_done.1 h
    obtain ⟨us, w, h3, h4⟩ := Result.andThen_eq_done.1 h2
    cases h4
    obtain ⟨e, -, -, he⟩ := fetchField_fetchedAt k s
    rw [h1] at he
    obtain ⟨evs, hv, hl⟩ := ih h3
    exact ⟨evs ++ [e], by rw [hv, he.1, List.append_assoc]; rfl, by simp [hl]⟩

/-- Where the fetch of the fields faults, `ip` has advanced past the fields fetched before (40_engine.md R94). -/
theorem fetchFields_raised {ks : List FieldKind} {s t : State} {f : FaultInfo} (h : fetchFields ks s = .raised f t) :
    ∃ (j : Nat) (e : Event) (evs : List Event), j < ks.length ∧ t.events = e :: evs ++ s.events ∧ evs.length = j ∧
      (∀ d ∈ evs, ∃ u, d.result = .value u) ∧ e.kind = .read ∧ e.addr = t.x .ip ∧ e.result = .fault f ∧
      t.x .ip = s.x .ip + BitVec.ofNat 16 ((ks.take j).map FieldKind.size).sum := by
  induction ks generalizing s with
  | nil => cases h
  | cons k ks ih =>
    obtain ⟨e, hk, ha, he⟩ := fetchField_fetchedAt k s
    cases hr : fetchField k s with
    | raised g u =>
      rw [hr] at he
      simp only [fetchFields, hr, Result.raised_andThen] at h
      cases h
      exact ⟨0, e, [], by simp, he.1, rfl, by simp, hk, by rw [ha, he.2.2], he.2.1, by simp [he.2.2]⟩
    | done v u =>
      rw [hr] at he
      simp only [fetchFields, hr, Result.done_andThen] at h
      cases hs : fetchFields ks u with
      | done vs w => rw [hs] at h; cases h
      | raised g w =>
        rw [hs, Result.raised_andThen] at h
        cases h
        obtain ⟨j, d, evs, h1, h2, h3, h4, h5, h6, h7, h8⟩ := ih hs
        refine ⟨j + 1, d, evs ++ [e], by simpa using h1, by rw [h2, he.1]; simp, by simp [h3], ?_, h5, h6, h7, ?_⟩
        · simpa [or_imp, forall_and, he.2] using h4
        · rw [h8, (fetchField_ip hr).1, List.take_succ_cons, List.map_cons, List.sum_cons, BitVec.ofNat_add, BitVec.add_assoc]

/-- The decode phase makes one transaction for the opcode and one for each field. -/
theorem fetchInstr_events {s t : State} {i : Instr} (h : fetchInstr s = .done i t) :
    ∃ (e : Event) (evs : List Event), t.events = evs ++ e :: s.events ∧ evs.length = i.op.format.fields.length := by
  obtain ⟨b, u, h1, h2⟩ := Result.andThen_eq_done.1 h
  obtain ⟨e, -, -, he⟩ := fetch8_fetchedAt s
  rw [h1] at he
  split at h2
  · cases h2
  · next o _ =>
    obtain ⟨vs, w, h3, h4⟩ := Result.andThen_eq_done.1 h2
    obtain ⟨evs, hv, hl⟩ := fetchFields_events h3
    obtain ⟨k, hk, ho⟩ := Instr.build_isSome (fetchFields_ip h3).2
    rw [hk] at h4
    cases h4
    exact ⟨e, evs, by rw [hv, he.1], by rw [hl, ho]⟩

/-! ## What is fetched -/

/-- The state with `ip` advanced by `n` and events added. -/
def State.fetched (s : State) (n : Nat) (evs : List Event) : State :=
  { s.setX .ip (s.x .ip + BitVec.ofNat 16 n) with events := evs ++ s.events }

theorem State.fetched_ip (s : State) (n : Nat) (evs : List Event) :
    (s.fetched n evs).x .ip = s.x .ip + BitVec.ofNat 16 n :=
  State.x_setX_same s .ip _

theorem State.fetched_zero (s : State) : s.fetched 0 [] = s := by
  simp [State.fetched, State.setX, State.x, RegFile.get, RegFile.set]

theorem State.fetched_fetched (s : State) (n k : Nat) (e f : List Event) :
    (s.fetched n e).fetched k f = s.fetched (n + k) (f ++ e) := by
  simp [State.fetched, State.setX, State.x, RegFile.get, RegFile.set, BitVec.add_assoc, BitVec.ofNat_add]

/-- A byte in RAM or the screen is fetched as it stands (40_engine.md R91). -/
theorem fetch8_byteAt {s : State} {n : Nat} {evs : List Event} {b : Byte}
    (h : s.byteAt (s.x .ip + BitVec.ofNat 16 n) = some b) :
    ∃ e : Event, fetch8 (s.fetched n evs) = .done b (s.fetched (n + 1) (e :: evs)) ∧ e.kind = .read := by
  have hb : (s.fetched n evs).byteAt ((s.fetched n evs).x .ip) = some b := by rw [State.fetched_ip]; exact h
  obtain ⟨h1, h2⟩ := State.busRead_byteAt hb
  refine ⟨((s.fetched n evs).busRead ((s.fetched n evs).x .ip) .one).event .read .one ((s.fetched n evs).x .ip), ?_, rfl⟩
  simp only [fetch8, memRead_of_value h1, Result.done_andThen, loByte_setWidth, State.after, h2]
  rw [show ∀ e : Event, s.fetched (n + 1) (e :: evs) = (s.fetched n evs).fetched 1 [e] from
    fun e => (State.fetched_fetched s n 1 evs [e]).symm]
  simp [State.fetched, State.setX, State.x, RegFile.get, RegFile.set]

/-- A word in RAM or the screen is fetched as it stands, by one transaction (40_engine.md R92). -/
theorem fetch16_wordAt {s : State} {n : Nat} {evs : List Event} {v : Word}
    (h : s.wordAt (s.x .ip + BitVec.ofNat 16 n) = some v) :
    ∃ e : Event, fetch16 (s.fetched n evs) = .done v (s.fetched (n + 2) (e :: evs)) ∧ e.kind = .read := by
  have hb : (s.fetched n evs).wordAt ((s.fetched n evs).x .ip) = some v := by rw [State.fetched_ip]; exact h
  obtain ⟨h1, h2⟩ := State.busRead_wordAt hb
  refine ⟨((s.fetched n evs).busRead ((s.fetched n evs).x .ip) .two).event .read .two ((s.fetched n evs).x .ip), ?_, rfl⟩
  simp only [fetch16, memRead_of_value h1, Result.done_andThen, State.after, h2]
  rw [show ∀ e : Event, s.fetched (n + 2) (e :: evs) = (s.fetched n evs).fetched 2 [e] from
    fun e => (State.fetched_fetched s n 2 evs [e]).symm]
  simp [State.fetched, State.setX, State.x, RegFile.get, RegFile.set]

/-- The bytes of the fields stand in memory: the fields are fetched as the decoder parses them. -/
theorem fetchFields_fieldsAt {s : State} {n : Nat} {evs : List Event} {ks : List FieldKind} {bs : List Byte}
    (h : s.fieldsAt (s.x .ip + BitVec.ofNat 16 n) ks bs) :
    ∃ vs more, parseFields ks bs = some (vs, []) ∧
      fetchFields ks (s.fetched n evs) = .done vs (s.fetched (n + (ks.map FieldKind.size).sum) (more ++ evs)) ∧
      more.length = ks.length ∧ ∀ e ∈ more, e.kind = .read := by
  induction ks generalizing n evs bs with
  | nil =>
    simp only [State.fieldsAt] at h
    subst h
    exact ⟨[], [], rfl, rfl, rfl, by simp⟩
  | cons k ks ih =>
    cases k with
    | register =>
      cases bs with
      | nil => exact h.elim
      | cons b bs =>
        obtain ⟨e, he, hk⟩ := fetch8_byteAt (evs := evs) h.1
        obtain ⟨vs, more, hp, hf, hl, hm⟩ := ih (n := n + 1) (evs := e :: evs) (bs := bs)
          (by rw [BitVec.ofNat_add, ← BitVec.add_assoc]; exact h.2)
        refine ⟨_, more ++ [e], by simp only [parseFields, hp]; rfl, ?_, by simp [hl], by simpa [or_imp, forall_and, hk] using hm⟩
        simp only [fetchFields, fetchField, fetchReg, he, Result.done_andThen, hf]
        simp [FieldKind.size, Nat.add_assoc]
    | literal | address =>
      match bs, h with
      | hi :: lo :: bs, h =>
        obtain ⟨e, he, hk⟩ := fetch16_wordAt (evs := evs) h.1
        obtain ⟨vs, more, hp, hf, hl, hm⟩ := ih (n := n + 2) (evs := e :: evs) (bs := bs)
          (by rw [BitVec.ofNat_add, ← BitVec.add_assoc]; exact h.2)
        refine ⟨_, more ++ [e], by simp only [parseFields, hp]; rfl, ?_, by simp [hl], by simpa [or_imp, forall_and, hk] using hm⟩
        simp only [fetchFields, fetchField, he, Result.done_andThen, hf]
        simp [FieldKind.size, Nat.add_assoc]

end Sys2Proof.Machine
end

