-- ==== Sys2Proof/Laws/Stack.lean ====
section
/-! SUPPORT. What a stored word reads as afterwards, what a transaction on one device leaves as it was, and the spec lemmas of
`push`, `pop` and their repetitions (45_stack.md R156, R157; 46_call_return.md R165, R166). -/

namespace Sys2Proof.Machine

/-! ## Every memory operation keeps the state well formed -/

/-- Writing one device of a well-formed list by a well-formed device keeps the list well formed. -/
theorem all_wf_set {ds : List Device} (h : ds.all Device.wf = true) {k : Nat} {d : Device} (hd : d.wf = true) :
    (ds.set k d).all Device.wf = true := by
  rw [List.all_eq_true] at h ⊢
  intro x hx
  rcases List.mem_or_eq_of_mem_set hx with hx | rfl
  · exact h x hx
  · exact hd

theorem State.wf_device {s : State} (h : s.devices.all Device.wf = true) (k : Nat) : (s.device k).wf = true := by
  rw [State.device_eq]
  by_cases hk : k < s.devices.length
  · rw [List.getD_eq_getElem _ _ hk]
    exact List.all_eq_true.1 h _ (List.getElem_mem hk)
  · rw [List.getD_eq_default _ _ (by omega)]
    rfl

/-- The memory of reset is in its canonical form (10_state.md R33). -/
theorem reset_devices_wf : State.reset.devices.all Device.wf = true := by decide

/-- A read keeps every device well formed. -/
theorem State.wf_busRead {s : State} (h : s.devices.all Device.wf = true) (a : Word) (w : Width) :
    (s.busRead a w).devices.all Device.wf = true := by
  rcases s.busRead_devices a w with hd | ⟨k, o, hd⟩ <;> rw [hd]
  · exact h
  · exact all_wf_set h (Device.wf_read _ (State.wf_device h k) _ _)

/-- A write keeps every device well formed. -/
theorem State.wf_busWrite {s : State} (h : s.devices.all Device.wf = true) (a : Word) (w : Width) (v : Word) :
    (s.busWrite a w v).devices.all Device.wf = true := by
  rcases s.busWrite_devices a w v with hd | ⟨k, o, hd⟩ <;> rw [hd]
  · exact h
  · exact all_wf_set h (Device.wf_write _ (State.wf_device h k) _ _ _)

/-! ## A stored word -/

/-- A word in RAM lies in an attached device. -/
theorem State.attached_of_room {s : State} {h n : Nat} {b : Memory} {o : Nat} (hd : s.device h = .ram n b) (ho : o < n) :
    h < s.devices.length := by
  by_contra hc
  rw [State.device_eq, List.getD_eq_default _ _ (by omega)] at hd
  cases hd
  omega

/-- After a 16-bit write of RAM its two places hold the high and the low byte (20_memory.md R53). -/
theorem State.ramByte_stored {s t : State} {a v : Word} (hs : s.devices.all Device.wf = true) {h o : Nat}
    (hp : s.ramWord a = some (h, o)) (ht : t.devices = (s.busWrite a .two v).devices) :
    t.ramByte h o = hiByte v ∧ t.ramByte h (o + 1) = loByte v := by
  obtain ⟨g, n, b, hr, ha, hd, hn, rfl, rfl⟩ := State.ramWord_iff.1 hp
  have hb : Memory.wf b = true := by
    have := State.wf_device hs g.device
    rw [hd] at this
    simp only [Device.wf, Bool.and_eq_true] at this
    exact this.1
  have hd' : t.device g.device =
      .ram n (Memory.write (Memory.write b (g.offset a).toNat (hiByte v)) ((g.offset a).toNat + 1) (loByte v)) := by
    rw [State.device_eq, ht, State.busWrite_ram hr ha hd hn, getD_set_devices, if_pos ⟨rfl, State.attached_of_room hd hn⟩]
  simp only [State.ramByte, hd']
  rw [Memory.read_write (Memory.wf_write hb _ _), Memory.read_write (Memory.wf_write hb _ _), if_neg (by omega), if_pos rfl,
    Memory.read_write hb, if_pos rfl]
  exact ⟨rfl, rfl⟩

/-- The places a 16-bit store goes to where the word lies in RAM. -/
theorem State.storedPlaces_ram {s : State} {a : Word} {h o : Nat} (hp : s.ramWord a = some (h, o)) :
    s.storedPlaces a = [(h, o), (h, o + 1)] := by
  obtain ⟨g, n, b, hr, ha, hd, hn, rfl, rfl⟩ := State.ramWord_iff.1 hp
  simp only [State.storedPlaces, State.target_two hr ha]

/-! ## The shape of the devices -/

/-- Two states with the same region list and the same devices, but for the bytes of RAM. -/
def SameShape (s t : State) : Prop :=
  t.regions = s.regions ∧
    ∀ h, t.device h = s.device h ∨ ∃ n b b', s.device h = .ram n b ∧ t.device h = .ram n b'

theorem SameShape.refl (s : State) : SameShape s s := ⟨rfl, fun _ => .inl rfl⟩

theorem SameShape.trans {s t u : State} (h1 : SameShape s t) (h2 : SameShape t u) : SameShape s u := by
  refine ⟨h2.1.trans h1.1, fun h => ?_⟩
  rcases h1.2 h with e1 | ⟨n, b, b', e1, e1'⟩
  · rcases h2.2 h with e2 | ⟨n, b, b', e2, e2'⟩
    · exact .inl (e2.trans e1)
    · exact .inr ⟨n, b, b', e1 ▸ e2, e2'⟩
  · rcases h2.2 h with e2 | ⟨n', c, c', e2, e2'⟩
    · exact .inr ⟨n, b, b', e1, e2.trans e1'⟩
    · rw [e1'] at e2
      cases e2
      exact .inr ⟨_, b, c', e1, e2'⟩

/-- Where a word lies depends only on the shape. -/
theorem SameShape.ramWord {s t : State} (h : SameShape s t) (a : Word) : t.ramWord a = s.ramWord a := by
  unfold State.ramWord
  rw [h.1]
  cases resolve s.regions a with
  | none => rfl
  | some g => 
    rcases h.2 g.device with e | ⟨n, b, b', e, e'⟩
    · simp only [e]
    · simp only [e, e']

theorem SameShape.screenWord {s t : State} (h : SameShape s t) (a : Word) : t.screenWord a = s.screenWord a := by
  unfold State.screenWord
  rw [h.1]
  cases resolve s.regions a with
  | none => rfl
  | some g => 
    rcases h.2 g.device with e | ⟨n, b, b', e, e'⟩
    · simp only [e]
    · simp only [e, e']

theorem SameShape.wordAt_isSome {s t : State} (h : SameShape s t) (a : Word) :
    (t.wordAt a).isSome = (s.wordAt a).isSome := by
  unfold State.wordAt
  rw [h.ramWord, h.screenWord]
  cases s.ramWord a <;> cases s.screenWord a <;> rfl

/-- Where a store goes depends only on the region list. -/
theorem State.storedPlaces_congr {s t : State} (h : t.regions = s.regions) (a : Word) : t.storedPlaces a = s.storedPlaces a := by
  unfold State.storedPlaces
  rw [State.target_congr h]

/-- How a write ends depends only on the shape. -/
theorem SameShape.busWrite_result {s t : State} (h : SameShape s t) (a : Word) (w : Width) (v : Word) :
    (t.busWrite a w v).result = (s.busWrite a w v).result := by
  unfold State.busWrite
  rw [State.target_congr h.1]
  split
  · rfl
  · next g o _ =>
    rcases h.2 g.device with e | ⟨n, b, b', e, e'⟩
    · rw [e]
      generalize (s.device g.device).write g.device o w v = p
      obtain ⟨ok, d⟩ := p
      cases ok <;> rfl
    · rw [e, e']
      cases w with
      | one => by_cases ho : o.toNat ≥ n <;> simp only [Device.write, ho, if_true, if_false]
      | two => by_cases ho : o.toNat + 1 ≥ n <;> simp only [Device.write, ho, if_true, if_false]

/-- A 16-bit write where `wordAt` is defined keeps the shape. -/
theorem SameShape.of_write {s t : State} {a v : Word} (hw : (s.wordAt a).isSome) (hr : t.regions = s.regions)
    (ht : t.devices = (s.busWrite a .two v).devices) : SameShape s t := by
  refine ⟨hr, fun h => ?_⟩
  obtain ⟨u, hu⟩ := Option.isSome_iff_exists.1 hw
  rcases State.wordAt_some hu with ⟨⟨q, o⟩, hp, -⟩ | ⟨o, ho, -⟩
  · obtain ⟨g, n, b, hr, ha, hd, hn, rfl, rfl⟩ := State.ramWord_iff.1 hp
    rw [State.device_eq, ht, State.busWrite_ram hr ha hd hn, getD_set_devices]
    split
    · next hk => exact .inr ⟨n, b, _, by rw [hk.1, hd], rfl⟩
    · exact .inl rfl
  · obtain ⟨g, hr, ha, hd, rfl⟩ := State.screenWord_iff.1 ho
    rw [State.device_eq, ht, State.busWrite_screen hr ha hd]
    exact .inl rfl

/-! ## push -/

/-- A push that completes (45_stack.md R156). -/
theorem push_of_value {s : State} {v u : Word} (h : (s.busWrite (s.x .sp) .two v).result = .value u) :
    push v s = .done () (((s.after (s.busWrite (s.x .sp) .two v)
      ((s.busWrite (s.x .sp) .two v).event .write .two (s.x .sp))).setX .sp (s.x .sp - 2)).setCounter (s.counter + 2)) := by
  simp only [push, memWrite_of_value h, Result.done_andThen, State.after_x, State.after_counter]

/-- A push that faults changes nothing but the device written to and the record (45_stack.md R156). -/
theorem push_of_fault {s : State} {v : Word} {f : FaultInfo} (h : (s.busWrite (s.x .sp) .two v).result = .fault f) :
    push v s = .raised f (s.after (s.busWrite (s.x .sp) .two v)
      ((s.busWrite (s.x .sp) .two v).event .write .two (s.x .sp))) := by
  simp only [push, memWrite_of_fault h, Result.raised_andThen]

/-- A push that completes made its write (45_stack.md R156). -/
theorem push_eq_done {s t : State} {v : Word} (h : push v s = .done () t) :
    (s.busWrite (s.x .sp) .two v).result = .value v ∧
      t = ((s.after (s.busWrite (s.x .sp) .two v) ((s.busWrite (s.x .sp) .two v).event .write .two (s.x .sp))).setX .sp
        (s.x .sp - 2)).setCounter (s.counter + 2) := by
  cases hr : (s.busWrite (s.x .sp) .two v).result with
  | value u =>
    rw [push_of_value hr] at h
    cases h
    exact ⟨by rw [State.busWrite_value hr, Width.data_two], rfl⟩
  | fault f => rw [push_of_fault hr] at h; cases h

/-- A state with no events added records no push. -/
theorem State.RecordsPushes.nil (s : State) : s.RecordsPushes [] [] := ⟨rfl, by simp⟩

/-- One more push recorded. -/
theorem State.RecordsPushes.snoc {s : State} {ws : List Word} {evs : List Event} (h : s.RecordsPushes ws evs) {v : Word}
    {e : Event} (hk : e.kind = .write) (hw : e.width = .two) (ha : e.addr = s.pushSlot ws.length) (hr : e.result = .value v) :
    s.RecordsPushes (ws ++ [v]) (e :: evs) := by
  refine ⟨by simp [h.1], fun k u hu => ?_⟩
  rw [List.reverse_cons]
  rcases Nat.lt_trichotomy k ws.length with hlt | rfl | hgt
  · rw [List.getElem?_append_left hlt] at hu
    rw [List.getElem?_append_left (by simpa [h.1] using hlt)]
    exact h.2 k u hu
  · rw [List.getElem?_append_right (le_refl _), Nat.sub_self] at hu
    cases hu
    exact ⟨e, by rw [List.getElem?_append_right (by simp [h.1])]; simp [h.1], hk, hw, ha, hr⟩
  · rw [List.getElem?_eq_none (by simp; omega)] at hu
    cases hu

/-- The state `t` is `s` after the pushes of a list of words, whatever devices they went to. -/
structure Wrote (s : State) (ws : List Word) (t : State) : Prop where
  sp : t.x .sp = s.pushSlot ws.length
  counter : t.counter = s.counter + BitVec.ofNat 16 (2 * ws.length)
  regs : SameRegs [.sp] s t
  status : t.status = s.status
  platform : SamePlatform s t
  bytes : SameBytes ((List.range ws.length).flatMap fun k => s.storedPlaces (s.pushSlot k)) s t
  events : ∃ evs : List Event, t.events = evs ++ s.events ∧ s.RecordsPushes ws evs

theorem Wrote.nil (s : State) : Wrote s [] s :=
  ⟨by simp [State.pushSlot], by simp, fun _ _ => rfl, rfl, ⟨rfl, rfl, rfl⟩, fun _ _ _ => rfl, [], rfl, .nil s⟩

/-- One more push. -/
theorem Wrote.push {s t u : State} {ws : List Word} (h : Wrote s ws t) {v : Word} (hu : push v t = .done () u) :
    Wrote s (ws ++ [v]) u := by
  obtain ⟨hr, rfl⟩ := push_eq_done hu
  refine ⟨?_, ?_, ?_, h.status, h.platform, ?_, ?_⟩
  · simp only [State.setCounter_x, State.x_setX_same, h.sp, State.pushSlot, List.length_append, List.length_singleton]
    rw [show 2 * (ws.length + 1) = 2 * ws.length + 2 by omega, BitVec.ofNat_add]
    simp only [BitVec.sub_eq_add_neg, BitVec.neg_add]
    rw [← BitVec.add_assoc]
    rfl
  · simp only [State.setCounter_counter, h.counter, List.length_append, List.length_singleton]
    rw [show 2 * (ws.length + 1) = 2 * ws.length + 2 by omega, BitVec.ofNat_add, ← BitVec.add_assoc]
    rfl
  · intro r hr
    have hr' : r ≠ .sp := by simpa using hr
    rw [State.setCounter_x, State.x_setX_ne _ _ hr', State.after_x, h.regs r hr]
  · intro k o hk
    rw [List.length_append, List.length_singleton, List.range_succ, List.flatMap_append, List.mem_append, not_or] at hk
    have h2 : (k, o) ∉ t.storedPlaces (t.x .sp) := by
      rw [State.storedPlaces_congr h.platform.1, h.sp]
      simpa using hk.2
    exact (State.ramByte_after_write (s := t) (v := v) rfl h2).trans (h.bytes k o hk.1)
  · obtain ⟨evs, he, hp⟩ := h.events
    exact ⟨_ :: evs, by simp only [State.setCounter_events, State.setX_events, State.after_events, he]; rfl,
      hp.snoc rfl rfl h.sp hr⟩

/-- Pushing the registers of a list pushes the values they had. -/
theorem Wrote.pushRegs {s t u : State} {ws : List Word} (h : Wrote s ws t) {rs : List Reg} (hsp : .sp ∉ rs)
    (hu : pushRegs rs t = .done () u) : Wrote s (ws ++ rs.map s.x) u := by
  induction rs generalizing t ws with
  | nil => cases hu; simpa using h
  | cons r rs ih =>
    simp only [List.mem_cons, not_or] at hsp
    obtain ⟨_, x, h1, h2⟩ := Result.andThen_eq_done.1 hu
    have hx := h.push h1
    rw [h.regs r (by simpa using Ne.symm hsp.1)] at hx
    simpa using ih hx hsp.2 h2

/-- A slot of a region lies in that region's RAM, at its own offset. -/
theorem State.ramWord_of_slotIn {s : State} {g : Region} {a : Word} (h : s.slotIn g a = true) :
    s.ramWord a = some (g.device, (g.offset a).toNat) := by
  simp only [State.slotIn, Bool.and_eq_true, decide_eq_true_eq] at h
  obtain ⟨⟨d, o⟩, hp⟩ := Option.isSome_iff_exists.1 h.2
  obtain ⟨g', n, b, hr, _, _, _, rfl, rfl⟩ := State.ramWord_iff.1 hp
  rw [h.1] at hr
  cases hr
  exact hp

/-- The words of a list stand in the first slots of `s`, if these lie in one RAM region, and every device is well formed, if it
was (46_call_return.md R170). -/
def SlotsHold (s : State) (ws : List Word) (t : State) : Prop :=
  s.devices.all Device.wf = true → t.devices.all Device.wf = true ∧
    ∀ g, ws.length ≤ 10 → (∀ k, k < ws.length → s.slotIn g (s.pushSlot k) = true) →
      ∀ k, k < ws.length → t.wordAt (s.pushSlot k) = ws[k]?

/-- The state `t` is `s` after the pushes of a list of words to slots in RAM or the screen. -/
structure Pushed (s : State) (ws : List Word) (t : State) : Prop extends Wrote s ws t where
  shape : SameShape s t
  held : SlotsHold s ws t

theorem Pushed.nil (s : State) : Pushed s [] s :=
  ⟨.nil s, .refl s, fun h => ⟨h, by simp⟩⟩

/-- One more push leaves the words below it and adds its own. -/
theorem SlotsHold.snoc {s t u : State} {ws : List Word} {v : Word} (hh : SlotsHold s ws t) (hts : SameShape s t)
    (hus : SameShape s u) (hd : u.devices = (t.busWrite (s.pushSlot ws.length) .two v).devices) : SlotsHold s (ws ++ [v]) u := by
  intro hs
  obtain ⟨htw, hh⟩ := hh hs
  refine ⟨by rw [hd]; exact State.wf_busWrite htw _ _ _, fun g hl hg k hk => ?_⟩
  rw [List.length_append, List.length_singleton] at hl hg hk
  have hp : ∀ k, k < ws.length + 1 → s.ramWord (s.pushSlot k) = some (g.device, (g.offset (s.pushSlot k)).toNat) :=
    fun k hk => State.ramWord_of_slotIn (hg k hk)
  have ht : ∀ k, k < ws.length + 1 → t.ramWord (s.pushSlot k) = some (g.device, (g.offset (s.pushSlot k)).toNat) :=
    fun k hk => (hts.ramWord _).trans (hp k hk)
  have hw : u.ramWord (s.pushSlot k) = some (g.device, (g.offset (s.pushSlot k)).toNat) := (hus.ramWord _).trans (hp k hk)
  by_cases hkn : k = ws.length
  · subst hkn
    obtain ⟨b1, b2⟩ := State.ramByte_stored htw (ht _ hk) hd
    simp only [State.wordAt, hw, b1, b2, wordOfBytes_hiByte_loByte]
    simp
  · rw [List.getElem?_append_left (by omega), ← hh g (by omega) (fun j hj => hg j (by omega)) k (by omega)]
    have hoff : (g.offset (s.pushSlot k)).toNat ≠ (g.offset (s.pushSlot ws.length)).toNat ∧
        (g.offset (s.pushSlot k)).toNat ≠ (g.offset (s.pushSlot ws.length)).toNat + 1 ∧
        (g.offset (s.pushSlot k)).toNat + 1 ≠ (g.offset (s.pushSlot ws.length)).toNat := by
      unfold Region.offset State.pushSlot
      split <;> simp only [BitVec.toNat_sub, BitVec.toNat_ofNat] <;> omega
    have hb : ∀ o, o ≠ (g.offset (s.pushSlot ws.length)).toNat → o ≠ (g.offset (s.pushSlot ws.length)).toNat + 1 →
        u.ramByte g.device o = t.ramByte g.device o := by
      intro o h1 h2
      refine State.ramByte_after_write hd ?_
      rw [State.storedPlaces_ram (ht ws.length (by omega))]
      simp [h1, h2]
    simp only [State.wordAt, hw, ht k hk]
    rw [hb _ hoff.1 hoff.2.1, hb _ hoff.2.2 (by omega)]

/-- One more push, to a slot in RAM or the screen. -/
theorem Pushed.push {s t : State} {ws : List Word} (h : Pushed s ws t) (hw : (s.wordAt (s.pushSlot ws.length)).isSome)
    (v : Word) : ∃ u, push v t = .done () u ∧ Pushed s (ws ++ [v]) u := by
  have hw' : (t.wordAt (t.x .sp)).isSome := by rw [h.sp, h.shape.wordAt_isSome]; exact hw
  obtain ⟨u, hu⟩ : ∃ u, Machine.push v t = .done () u := ⟨_, push_of_value (State.busWrite_wordAt hw' v)⟩
  obtain ⟨-, he⟩ := push_eq_done hu
  have hr : u.regions = t.regions := by rw [he]; rfl
  have hd : u.devices = (t.busWrite (t.x .sp) .two v).devices := by rw [he]; rfl
  have hs := h.shape.trans (.of_write hw' hr hd)
  exact ⟨u, hu, h.toWrote.push hu, hs, h.held.snoc h.shape hs (by rw [hd, h.sp])⟩

/-- A 16-bit write that faults changes no device but the history of one that spec/ does not describe. -/
theorem State.device_after_fault {s t : State} {a v : Word} {f : FaultInfo} (hf : (s.busWrite a .two v).result = .fault f)
    (ht : t.devices = (s.busWrite a .two v).devices) (h : Nat) :
    t.device h = s.device h ∨ ∃ hist hist', s.device h = .external hist ∧ t.device h = .external hist' := by
  rw [State.device_eq t, ht]
  unfold State.busWrite at hf ⊢
  split
  · exact .inl rfl
  · next g p hg =>
    rw [hg] at hf
    split
    · next d hd =>
      rw [getD_set_devices]
      split
      · next hk =>
        rw [hk.1]
        cases hdev : s.device g.device with
        | ram n b =>
          simp only [hdev, Device.write] at hd
          split at hd <;> cases hd
          exact .inl rfl
        | screen => simp only [hdev, Device.write] at hd; cases hd
        | external hist =>
          simp only [hdev, Device.write, Prod.mk.injEq] at hd
          exact .inr ⟨hist, _, rfl, hd.2.symm⟩
      · exact .inl rfl
    · next d hd => simp only [hd] at hf; cases hf

/-- A 16-bit write that faults changes no byte of RAM. -/
theorem State.ramByte_after_fault {s t : State} {a v : Word} {f : FaultInfo} (hf : (s.busWrite a .two v).result = .fault f)
    (ht : t.devices = (s.busWrite a .two v).devices) (h o : Nat) : t.ramByte h o = s.ramByte h o := by
  unfold State.ramByte
  rcases State.device_after_fault hf ht h with e | ⟨_, _, e, e'⟩
  · rw [e]
  · rw [e, e']

/-- The region list and the devices are the same, but for the histories of devices that spec/ does not describe. -/
def SameData (s t : State) : Prop :=
  t.regions = s.regions ∧
    ∀ h, t.device h = s.device h ∨ ∃ hist hist', s.device h = .external hist ∧ t.device h = .external hist'

theorem SameData.ramByte {s t : State} (h : SameData s t) (k o : Nat) : t.ramByte k o = s.ramByte k o := by
  unfold State.ramByte
  rcases h.2 k with e | ⟨_, _, e, e'⟩
  · rw [e]
  · rw [e, e']

theorem SameData.wordAt {s t : State} (h : SameData s t) (a : Word) : t.wordAt a = s.wordAt a := by
  have hr : t.ramWord a = s.ramWord a := by
    unfold State.ramWord
    rw [h.1]
    cases resolve s.regions a with
    | none => rfl
    | some g =>
      rcases h.2 g.device with e | ⟨_, _, e, e'⟩
      · simp only [e]
      · simp only [e, e']
  have hs : t.screenWord a = s.screenWord a := by
    unfold State.screenWord
    rw [h.1]
    cases resolve s.regions a with
    | none => rfl
    | some g =>
      rcases h.2 g.device with e | ⟨_, _, e, e'⟩
      · simp only [e]
      · simp only [e, e']
  simp only [State.wordAt, hr, hs, h.ramByte]

/-- A push that faults leaves all data, every register, the counter and the platform as they were, and is recorded. -/
theorem push_eq_raised {s t : State} {v : Word} {f : FaultInfo} (h : Machine.push v s = .raised f t) :
    SameRegs [] s t ∧ t.counter = s.counter ∧ SamePlatform s t ∧ SameData s t ∧
      ∃ e : Event, t.events = e :: s.events ∧ e.kind = .write ∧ e.width = .two ∧ e.addr = s.x .sp ∧ e.result = .fault f := by
  cases hr : (s.busWrite (s.x .sp) .two v).result with
  | value u => rw [push_of_value hr] at h; cases h
  | fault g =>
    rw [push_of_fault hr] at h
    cases h
    exact ⟨fun _ _ => rfl, rfl, ⟨rfl, rfl, rfl⟩, ⟨rfl, State.device_after_fault hr rfl⟩, _, rfl, rfl, rfl, rfl, hr⟩

/-- The next push faults. -/
theorem Pushed.fault {s t : State} {ws : List Word} (h : Pushed s ws t) {v : Word} {f : FaultInfo}
    (hf : (s.busWrite (s.pushSlot ws.length) .two v).result = .fault f) : ∃ u, Machine.push v t = .raised f u := by
  have hf' : (t.busWrite (t.x .sp) .two v).result = .fault f := by rw [h.sp, h.shape.busWrite_result]; exact hf
  exact ⟨_, push_of_fault hf'⟩

/-- Pushing the registers of a list, all to slots in RAM or the screen. -/
theorem Pushed.pushRegs {s t : State} {ws : List Word} (h : Pushed s ws t) {rs : List Reg} (hsp : .sp ∉ rs)
    (hw : ∀ k, ws.length ≤ k → k < ws.length + rs.length → (s.wordAt (s.pushSlot k)).isSome) :
    ∃ u, pushRegs rs t = .done () u ∧ Pushed s (ws ++ rs.map s.x) u := by
  induction rs generalizing ws t with
  | nil => exact ⟨t, rfl, by simpa using h⟩
  | cons r rs ih =>
    simp only [List.mem_cons, not_or] at hsp
    obtain ⟨u, hu, hp⟩ := h.push (hw _ (le_refl _) (by simp)) (s.x r)
    obtain ⟨w, hw', hq⟩ := ih hp hsp.2 fun k hk hk' => hw k (by simp at hk; omega) (by simp at hk' ⊢; omega)
    exact ⟨w, by simp only [Machine.pushRegs, h.regs r (by simpa using Ne.symm hsp.1), hu, Result.done_andThen, hw'],
      by simpa using hq⟩

/-- Pushing the registers of a list, where the push to one slot faults: the pushes before it, and the one that faults. -/
theorem Pushed.pushRegs_fault {s t : State} {ws : List Word} {k : Nat} (h : Pushed s ws t) {rs : List Reg} (hsp : .sp ∉ rs)
    {f : FaultInfo} (hk : ws.length ≤ k) (hk' : k < ws.length + rs.length)
    (hw : ∀ j, ws.length ≤ j → j < k → (s.wordAt (s.pushSlot j)).isSome)
    (hf : ∀ v, (s.busWrite (s.pushSlot k) .two v).result = .fault f) :
    ∃ x v u, Machine.pushRegs rs t = .raised f u ∧ Pushed s ((ws ++ rs.map s.x).take k) x ∧ Machine.push v x = .raised f u := by
  induction rs generalizing ws t with
  | nil => simp only [List.length_nil] at hk'; omega
  | cons r rs ih =>
    simp only [List.mem_cons, not_or] at hsp
    by_cases he : ws.length = k
    · subst he
      obtain ⟨u, hu⟩ := h.fault (hf (t.x r))
      exact ⟨t, _, u, by simp only [Machine.pushRegs, hu, Result.raised_andThen], by simpa using h, hu⟩
    · obtain ⟨u, hu, hp⟩ := h.push (hw _ (le_refl _) (by omega)) (s.x r)
      obtain ⟨x, v, w, hw', hq, hv⟩ := ih hp hsp.2 (by simp; omega) (by simp at hk' ⊢; omega)
        fun j hj hj' => hw j (by simp at hj; omega) hj'
      exact ⟨x, v, w,
        by simp only [Machine.pushRegs, h.regs r (by simpa using Ne.symm hsp.1), hu, Result.done_andThen, hw'],
        by simpa using hq, hv⟩

/-! ## pop -/

/-- The state after a pop of a word in RAM or the screen: no device is changed (45_stack.md R157). -/
theorem pop_of_wordAt {s : State} {v : Word} (h : s.wordAt (s.x .sp + 2) = some v) :
    ∃ e : Event, pop s = .done v { (s.setX .sp (s.x .sp + 2)).setCounter (s.counter - 2) with events := e :: s.events } := by
  obtain ⟨h1, h2⟩ := State.busRead_wordAt h
  refine ⟨(s.busRead (s.x .sp + 2) .two).event .read .two (s.x .sp + 2), ?_⟩
  have h1' : ((s.setX .sp (s.x .sp + 2)).busRead (s.x .sp + 2) .two).result = .value v := h1
  simp only [pop, memRead_of_value h1', Result.done_andThen, State.after, State.setX_busRead, h2]
  rfl

/-- A pop that faults has raised `sp` and not lowered the counter (45_stack.md R157). -/
theorem pop_of_fault {s : State} {f : FaultInfo} (h : (s.busRead (s.x .sp + 2) .two).result = .fault f) :
    pop s = .raised f ((s.setX .sp (s.x .sp + 2)).after (s.busRead (s.x .sp + 2) .two)
      ((s.busRead (s.x .sp + 2) .two).event .read .two (s.x .sp + 2))) := by
  have h' : ((s.setX .sp (s.x .sp + 2)).busRead (s.x .sp + 2) .two).result = .fault f := h
  simp only [pop, memRead_of_fault h', Result.raised_andThen, State.setX_busRead]

/-- Words read alike in two states with the same regions and devices. -/
theorem State.wordAt_congr {s t : State} (hr : t.regions = s.regions) (hd : t.devices = s.devices) (a : Word) :
    t.wordAt a = s.wordAt a := by
  have : ∀ h, t.device h = s.device h := fun h => by rw [State.device_eq, State.device_eq, hd]
  simp only [State.wordAt, State.ramWord, State.screenWord, State.ramByte, hr, this]

/-- The address of the n-th word above `sp`. -/
def State.above (s : State) (n : Nat) : Word := s.x .sp + BitVec.ofNat 16 (2 * n)

/-- The state `t` is `s` after `n` pops, with the registers of a list written. -/
structure Popped (s : State) (rs : List Reg) (n : Nat) (t : State) : Prop where
  sp : t.x .sp = s.above n
  counter : t.counter = s.counter - BitVec.ofNat 16 (2 * n)
  regs : SameRegs (.sp :: rs) s t
  status : t.status = s.status
  platform : SamePlatform s t
  devices : t.devices = s.devices
  events : ∃ evs : List Event, t.events = evs ++ s.events ∧ evs.length = n

theorem Popped.zero (s : State) : Popped s [] 0 s :=
  ⟨by simp [State.above], by simp, fun _ _ => rfl, rfl, ⟨rfl, rfl, rfl⟩, rfl, [], rfl, rfl⟩

/-- Writing a register that is not `sp`. -/
theorem Popped.setX {s t : State} {rs : List Reg} {n : Nat} (h : Popped s rs n t) {r : Reg} (hr : r ≠ .sp) (v : Word) :
    Popped s (r :: rs) n (t.setX r v) := by
  refine ⟨by rw [State.x_setX_ne _ _ (Ne.symm hr)]; exact h.sp, h.counter, ?_, h.status, h.platform, h.devices, h.events⟩
  intro q hq
  simp only [List.mem_cons, not_or] at hq
  rw [State.x_setX_ne _ _ hq.2.1]
  exact h.regs q (by simp only [List.mem_cons, not_or]; exact ⟨hq.1, hq.2.2⟩)

theorem State.above_succ (s : State) (n : Nat) : s.above (n + 1) = s.above n + 2 := by
  simp only [State.above]
  rw [show 2 * (n + 1) = 2 * n + 2 by omega, BitVec.ofNat_add, ← BitVec.add_assoc]
  rfl

/-- One more pop. -/
theorem Popped.pop {s t : State} {rs : List Reg} {n : Nat} (h : Popped s rs n t) {v : Word}
    (hw : s.wordAt (s.above (n + 1)) = some v) : ∃ u, pop t = .done v u ∧ Popped s rs (n + 1) u ∧ SameRegs [.sp] t u := by
  have hw' : t.wordAt (t.x .sp + 2) = some v := by
    rw [h.sp, ← State.above_succ, State.wordAt_congr h.platform.1 h.devices]
    exact hw
  obtain ⟨e, he⟩ := pop_of_wordAt hw'
  have hx : ∀ q, q ≠ .sp → (State.x { (t.setX .sp (t.x .sp + 2)).setCounter (t.counter - 2) with events := e :: t.events } q) =
      t.x q := fun q hq => State.x_setX_ne t _ hq
  refine ⟨_, he, ⟨?_, ?_, ?_, h.status, h.platform, h.devices, ?_⟩, fun q hq => hx q (by simpa using hq)⟩
  · rw [State.above_succ, ← h.sp]
    exact State.x_setX_same t .sp (t.x .sp + 2)
  · show t.counter - 2 = _
    rw [h.counter, show 2 * (n + 1) = 2 * n + 2 by omega, BitVec.ofNat_add]
    simp only [BitVec.sub_eq_add_neg, BitVec.neg_add, ← BitVec.add_assoc]
    rfl
  · intro q hq
    rw [hx q fun hs => hq (by simp [hs])]
    exact h.regs q hq
  · obtain ⟨evs, hv, hl⟩ := h.events
    exact ⟨e :: evs, by simp only [hv]; rfl, by simp [hl]⟩

/-- The state `t` is `s` after `n` pops, with the registers of a list written, and one pop that faulted. -/
structure PopStopped (s : State) (rs : List Reg) (n : Nat) (t : State) : Prop where
  sp : t.x .sp = s.above (n + 1)
  counter : t.counter = s.counter - BitVec.ofNat 16 (2 * n)
  regs : SameRegs (.sp :: rs) s t
  platform : SamePlatform s t
  bytes : SameBytes [] s t

/-- The next pop faults. -/
theorem Popped.fault {s t : State} {rs : List Reg} {n : Nat} (h : Popped s rs n t) {f : FaultInfo}
    (hf : (s.busRead (s.above (n + 1)) .two).result = .fault f) :
    ∃ u, Machine.pop t = .raised f u ∧ PopStopped s rs n u ∧ SameRegs [.sp] t u := by
  have hf' : (t.busRead (t.x .sp + 2) .two).result = .fault f := by
    rw [h.sp, ← State.above_succ, State.busRead_congr h.platform.1 h.devices]
    exact hf
  refine ⟨_, pop_of_fault hf', ⟨?_, h.counter, ?_, h.platform, ?_⟩, ?_⟩
  · rw [State.after_x, State.x_setX_same, h.sp, State.above_succ]
  · intro q hq
    have hs : q ≠ .sp := fun hs => hq (by simp [hs])
    rw [State.after_x, State.x_setX_ne _ _ hs]
    exact h.regs q hq
  · intro k o _
    rw [State.ramByte_after_read (s := t) rfl, State.ramByte_eq, State.ramByte_eq, State.device_eq, h.devices]
    rfl
  · intro q hq
    rw [State.after_x, State.x_setX_ne _ _ (by simpa using hq)]

/-- Popping into the registers of a list: the j-th takes the j-th word popped. -/
theorem Popped.popRegs {s t : State} {ws : List Reg} {n : Nat} (h : Popped s ws n t) {rs : List Reg} (hsp : .sp ∉ rs)
    (hnd : rs.Nodup) {w : Nat → Word} (hw : ∀ k, n < k → k ≤ n + rs.length → s.wordAt (s.above k) = some (w k)) :
    ∃ u, popRegs rs t = .done () u ∧ Popped s (rs.reverse ++ ws) (n + rs.length) u ∧ SameRegs (.sp :: rs) t u ∧
      ∀ j r, rs[j]? = some r → u.x r = w (n + j + 1) := by
  induction rs generalizing n t ws with
  | nil => exact ⟨t, rfl, h, fun _ _ => rfl, by simp⟩
  | cons r rs ih =>
    simp only [List.mem_cons, not_or] at hsp
    simp only [List.nodup_cons] at hnd
    obtain ⟨u, hu, hp, hq⟩ := h.pop (hw (n + 1) (by omega) (by simp))
    obtain ⟨x, hx, hp', hq', hv⟩ := ih (hp.setX (Ne.symm hsp.1) (w (n + 1))) hsp.2 hnd.2 fun k hk hk' =>
      hw k (by omega) (by simp only [List.length_cons]; omega)
    refine ⟨x, by simp only [Machine.popRegs, hu, Result.done_andThen, hx], ?_, ?_, ?_⟩
    · rw [List.length_cons, show n + (rs.length + 1) = n + 1 + rs.length by omega, List.reverse_cons, List.append_assoc]
      exact hp'
    · intro q hm
      simp only [List.mem_cons, not_or] at hm
      rw [hq' q (by simp only [List.mem_cons, not_or]; exact ⟨hm.1, hm.2.2⟩), State.x_setX_ne _ _ hm.2.1]
      exact hq q (by simpa using hm.1)
    · intro j q hj
      cases j with
      | zero =>
        simp only [List.getElem?_cons_zero, Option.some.injEq] at hj
        subst hj
        rw [hq' r (by simp only [List.mem_cons, not_or]; exact ⟨Ne.symm hsp.1, hnd.1⟩), State.x_setX_same]
      | succ j =>
        rw [hv j q (by simpa using hj)]
        congr 1
        omega

/-- Popping into the registers of a list, where one pop faults: the registers before it are written. -/
theorem Popped.popRegs_fault {s t : State} {ws : List Reg} {n k : Nat} (h : Popped s ws n t) {rs : List Reg} (hsp : .sp ∉ rs)
    (hnd : rs.Nodup) {w : Nat → Word} {f : FaultInfo} (hk : n < k) (hk' : k ≤ n + rs.length)
    (hw : ∀ j, n < j → j < k → s.wordAt (s.above j) = some (w j)) (hf : (s.busRead (s.above k) .two).result = .fault f) :
    ∃ u, Machine.popRegs rs t = .raised f u ∧ u.x .sp = s.above k ∧
      u.counter = s.counter - BitVec.ofNat 16 (2 * (k - 1)) ∧ SamePlatform s u ∧ SameBytes [] s u ∧
      SameRegs (.sp :: rs) t u ∧ ∀ j r, rs[j]? = some r → u.x r = if n + j + 1 < k then w (n + j + 1) else t.x r := by
  induction rs generalizing n t ws with
  | nil => simp only [List.length_nil] at hk'; omega
  | cons r rs ih =>
    simp only [List.mem_cons, not_or] at hsp
    simp only [List.nodup_cons] at hnd
    by_cases he : k = n + 1
    · subst he
      obtain ⟨u, hu, hp, hq⟩ := h.fault hf
      refine ⟨u, by simp only [Machine.popRegs, hu, Result.raised_andThen], hp.sp, by simpa using hp.counter, hp.platform,
        hp.bytes, fun q hm => hq q (by simp only [List.mem_cons, not_or] at hm; simpa using hm.1), ?_⟩
      intro j q hj
      rw [if_neg (by omega)]
      refine hq q ?_
      have : q ∈ r :: rs := List.mem_of_getElem? hj
      intro hs
      simp only [List.mem_cons, List.not_mem_nil, or_false] at hs
      subst hs
      simp only [List.mem_cons] at this
      exact this.elim hsp.1 hsp.2
    · obtain ⟨u, hu, hp, hq⟩ := h.pop (hw (n + 1) (by omega) (by omega))
      obtain ⟨x, hx, h1, h2, h3, h4, h5, h6⟩ := ih (hp.setX (Ne.symm hsp.1) (w (n + 1))) hsp.2 hnd.2 (by omega)
        (by simp only [List.length_cons] at hk'; omega) fun j hj hj' => hw j (by omega) hj'
      refine ⟨x, by simp only [Machine.popRegs, hu, Result.done_andThen, hx], h1, h2, h3, h4, ?_, ?_⟩
      · intro q hm
        simp only [List.mem_cons, not_or] at hm
        rw [h5 q (by simp only [List.mem_cons, not_or]; exact ⟨hm.1, hm.2.2⟩), State.x_setX_ne _ _ hm.2.1]
        exact hq q (by simpa using hm.1)
      · intro j q hj
        cases j with
        | zero =>
          simp only [List.getElem?_cons_zero, Option.some.injEq] at hj
          subst hj
          rw [h5 r (by simp only [List.mem_cons, not_or]; exact ⟨Ne.symm hsp.1, hnd.1⟩), State.x_setX_same, if_pos (by omega)]
        | succ j =>
          have hj' : rs[j]? = some q := by simpa using hj
          rw [h6 j q hj', show n + 1 + j + 1 = n + (j + 1) + 1 by omega]
          split
          · rfl
          · have hne : q ≠ r := fun hqr => hnd.1 (hqr ▸ List.mem_of_getElem? hj')
            have hns : q ≠ .sp := fun hqs => hsp.2 (hqs ▸ List.mem_of_getElem? hj')
            rw [State.x_setX_ne _ _ hne]
            exact hq q (by simpa using hns)

/-- Popping and discarding words. -/
theorem Popped.discard {s t : State} {ws : List Reg} {n : Nat} (h : Popped s ws n t) (m : Nat)
    (hw : ∀ k, n < k → k ≤ n + m → (s.wordAt (s.above k)).isSome) :
    ∃ u, discard m t = .done () u ∧ Popped s ws (n + m) u ∧ SameRegs [.sp] t u := by
  induction m generalizing n t with
  | zero => exact ⟨t, rfl, h, fun _ _ => rfl⟩
  | succ m ih =>
    obtain ⟨v, hv⟩ := Option.isSome_iff_exists.1 (hw (n + 1) (by omega) (by omega))
    obtain ⟨u, hu, hp, hq⟩ := h.pop hv
    obtain ⟨x, hx, hp', hq'⟩ := ih hp fun k hk hk' => hw k (by omega) (by omega)
    refine ⟨x, by simp only [Machine.discard, hu, Result.done_andThen, hx], ?_, fun q hm => (hq' q hm).trans (hq q hm)⟩
    rw [show n + (m + 1) = n + 1 + m by omega]
    exact hp'

/-- Popping and discarding words, where one pop faults. -/
theorem Popped.discard_fault {s t : State} {ws : List Reg} {n k : Nat} (h : Popped s ws n t) (m : Nat) {f : FaultInfo}
    (hk : n < k) (hk' : k ≤ n + m) (hw : ∀ j, n < j → j < k → (s.wordAt (s.above j)).isSome)
    (hf : (s.busRead (s.above k) .two).result = .fault f) :
    ∃ u, Machine.discard m t = .raised f u ∧ PopStopped s ws (k - 1) u ∧ SameRegs [.sp] t u := by
  induction m generalizing n t with
  | zero => omega
  | succ m ih =>
    by_cases he : k = n + 1
    · subst he
      obtain ⟨u, hu, hp, hq⟩ := h.fault hf
      exact ⟨u, by simp only [Machine.discard, hu, Result.raised_andThen], hp, hq⟩
    · obtain ⟨v, hv⟩ := Option.isSome_iff_exists.1 (hw (n + 1) (by omega) (by omega))
      obtain ⟨u, hu, hp, hq⟩ := h.pop hv
      obtain ⟨x, hx, hp', hq'⟩ := ih hp (by omega) (by omega) fun j hj hj' => hw j (by omega) hj'
      exact ⟨x, by simp only [Machine.discard, hu, Result.done_andThen, hx], hp', fun q hm => (hq' q hm).trans (hq q hm)⟩

end Sys2Proof.Machine
end

