-- ==== Sys2Proof/Laws/Operands.lean ====
section
/-! SUPPORT. One spec lemma for each shared operation of the execute phase: `wrap16`, a register write, a load, a store, a
branch, each with what it leaves unchanged. -/

namespace Sys2Proof.Machine

/-- `wrap16` is the non-negative remainder modulo 65536 (00_scope.md R10). -/
theorem toNat_wrap16 (v : Int) : ((wrap16 v).toNat : Int) = v % 65536 := by
  simp only [wrap16, BitVec.toNat_ofInt]
  omega

theorem toNat_wrap16_nat (v : Nat) : (wrap16 (v : Int)).toNat = v % 65536 := by
  have := toNat_wrap16 v
  omega

/-- A register write changes that register alone. -/
theorem setX_frame (s : State) (r : Reg) (v : Word) : RegFrame [r] s (s.setX r v) :=
  ⟨fun q hq => State.x_setX_ne _ _ (by simpa using hq), rfl, rfl, ⟨rfl, rfl, rfl⟩, rfl, fun _ _ _ => rfl, rfl⟩

/-- Every relation, as a proposition about the two values (44_branch.md R140). -/
theorem Rel.holds_iff (rel : Rel) (v ac : Word) : rel.holds v ac = true ↔
    match rel with
    | .ne => v.toNat ≠ ac.toNat
    | .eq => v.toNat = ac.toNat
    | .lt => v.toNat < ac.toNat
    | .gt => v.toNat > ac.toNat
    | .le => v.toNat ≤ ac.toNat
    | .ge => v.toNat ≥ ac.toNat := by
  cases rel <;> exact decide_eq_true_iff

/-- A branch goes to its target exactly when its relation holds, and changes nothing but `ip` (44_branch.md R140). -/
theorem branch_spec (rel : Rel) (v : Source) (a : Word) (s : State) :
    (branch rel v a s).x .ip = (if rel.holds (v.value s) (s.x .ac) then a else s.x .ip) ∧ RegFrame [.ip] s (branch rel v a s) := by
  unfold branch
  split
  · exact ⟨by simp, setX_frame _ _ _⟩
  · exact ⟨rfl, fun _ _ => rfl, rfl, rfl, ⟨rfl, rfl, rfl⟩, rfl, fun _ _ _ => rfl, rfl⟩

/-- A load whose read completes (41_move.md R113, R115, R116). -/
theorem loadWord_of_value {m : MemOperand} {s : State} {v : Word} (h : (s.busRead (m.address s) .two).result = .value v)
    (rd : Reg) : ∃ t, loadWord m rd s = .done () t ∧ t.x rd = v ∧ t.counter = s.counter ∧ t.status = s.status ∧
      ReadFrame [rd] (m.address s) s t := by
  refine ⟨_, by simp only [loadWord, memRead_of_value h, Result.done_andThen]; rfl, ?_⟩
  refine ⟨State.x_setX_same _ _ _, rfl, rfl, fun q hq => ?_, ⟨rfl, rfl, rfl⟩, ?_, rfl, rfl⟩
  · exact State.x_setX_ne _ _ (by simpa using hq)
  · exact fun k o _ => State.ramByte_after_read (s := s) rfl k o

/-- A store whose write completes (41_move.md R112, R114). -/
theorem storeWord_of_value {m : MemOperand} {v : Source} {s : State} {u : Word}
    (h : (s.busWrite (m.address s) .two (v.value s)).result = .value u) :
    ∃ t, storeWord m v s = .done () t ∧ t.counter = s.counter ∧ t.status = s.status ∧
      WriteFrame [] (m.address s) (v.value s) s t := by
  refine ⟨_, by simp only [storeWord, memWrite_of_value h, Result.done_andThen]; rfl, ?_⟩
  refine ⟨rfl, rfl, fun _ _ => rfl, ⟨rfl, rfl, rfl⟩, fun k o hp => ?_, fun hs p hp => ?_, rfl, rfl⟩
  · exact State.ramByte_after_write (s := s) (v := v.value s) rfl hp
  · simp only [State.wf, Bool.and_eq_true] at hs
    exact State.ramByte_stored hs.1.1 hp rfl

/-- A load whose read faults changes no register and no byte (60_exceptions.md R186). -/
theorem loadWord_of_fault {m : MemOperand} {s : State} {f : FaultInfo} (h : (s.busRead (m.address s) .two).result = .fault f)
    (rd : Reg) : ∃ t, loadWord m rd s = .raised f t ∧ SameRegs [] s t ∧ t.counter = s.counter ∧ SamePlatform s t ∧
      SameBytes [] s t := by
  refine ⟨_, by simp only [loadWord, memRead_of_fault h, Result.raised_andThen]; rfl, ?_⟩
  exact ⟨fun _ _ => rfl, rfl, ⟨rfl, rfl, rfl⟩, fun k o _ => State.ramByte_after_read (s := s) rfl k o⟩

/-- A store whose write faults changes no register and no byte (60_exceptions.md R186). -/
theorem storeWord_of_fault {m : MemOperand} {v : Source} {s : State} {f : FaultInfo}
    (h : (s.busWrite (m.address s) .two (v.value s)).result = .fault f) :
    ∃ t, storeWord m v s = .raised f t ∧ SameRegs [] s t ∧ t.counter = s.counter ∧ SamePlatform s t ∧ SameBytes [] s t := by
  refine ⟨_, by simp only [storeWord, memWrite_of_fault h, Result.raised_andThen]; rfl, ?_⟩
  exact ⟨fun _ _ => rfl, rfl, ⟨rfl, rfl, rfl⟩, fun k o _ => State.ramByte_after_fault h rfl k o⟩

end Sys2Proof.Machine
end

