-- ==== Sys2Proof/Laws/Frame.lean ====
section
/-! SUPPORT. What `pushState()` pushes, in every way it can end (46_call_return.md R165, R170). -/

namespace Sys2Proof.Machine

/-- The words of the frame: the nine registers and the marker. -/
theorem State.frameWords_eq (s : State) : s.frameWords = savedRegs.map s.x ++ [s.counter + 20] := rfl

/-- After the nine register pushes the marker is the counter before the call plus 20. -/
theorem Wrote.marker {s t : State} (h : Wrote s (savedRegs.map s.x) t) : t.counter + 2 = s.counter + 20 := by
  rw [h.counter, BitVec.add_assoc]
  rfl

/-- `pushState()` that completes has pushed the frame, to whatever devices. -/
theorem pushState_eq_done {s t : State} (h : pushState s = .done () t) :
    ∃ u, Wrote s s.frameWords u ∧ t = (u.setX .fp (u.x .sp)).setCounter 0 := by
  obtain ⟨_, x, h1, h2⟩ := Result.andThen_eq_done.1 h
  obtain ⟨_, u, h3, h4⟩ := Result.andThen_eq_done.1 h2
  cases h4
  have hx := (Wrote.nil s).pushRegs (by decide) h1
  rw [List.nil_append] at hx
  rw [hx.marker] at h3
  exact ⟨u, hx.push h3, rfl⟩

/-- The frame pushed, `fp` and the counter set and `ip` at the target: the effect of a call. -/
theorem Wrote.called {s u : State} {target : Word} (h : Wrote s s.frameWords u) :
    Called s target (((u.setX .fp (u.x .sp)).setCounter 0).setX .ip target) := by
  have hsp : u.x .sp = s.x .sp - 20 := h.sp
  obtain ⟨evs, he, hp⟩ := h.events
  refine ⟨by simp, ?_, ?_, rfl, h.status, ?_, h.platform, h.bytes, evs, he, hp.1, hp⟩
  · rw [State.x_setX_ne _ _ (by decide), State.setCounter_x, State.x_setX_ne _ _ (by decide), hsp]
  · rw [State.x_setX_ne _ _ (by decide), State.setCounter_x, State.x_setX_same, hsp]
  · intro r hr
    simp only [List.mem_cons, not_or, List.not_mem_nil, not_false_eq_true, and_true] at hr
    rw [State.x_setX_ne _ _ hr.1, State.setCounter_x, State.x_setX_ne _ _ hr.2.2, h.regs r (by simpa using hr.2.1)]

/-- `pushState()` with its ten slots in RAM or the screen completes. -/
theorem pushState_of_wordAt {s : State} (hw : ∀ k, k < 10 → (s.wordAt (s.pushSlot k)).isSome) :
    ∃ u, pushState s = .done () ((u.setX .fp (u.x .sp)).setCounter 0) ∧ Pushed s s.frameWords u := by
  obtain ⟨t, ht, hp⟩ := (Pushed.nil s).pushRegs (rs := savedRegs) (by decide)
    fun k _ hk => hw k (by simp [savedRegs] at hk; omega)
  rw [List.nil_append] at hp
  obtain ⟨u, hu, hq⟩ := hp.push (by simpa [savedRegs] using hw 9 (by decide)) (s.counter + 20)
  exact ⟨u, by simp only [pushState, ht, Result.done_andThen, hp.toWrote.marker, hu], hq⟩

/-- `pushState()` whose push to slot k faults has pushed the k words of the frame before it. -/
theorem pushState_of_fault {s : State} {k : Nat} {f : FaultInfo} (hk : k < 10)
    (hw : ∀ j, j < k → (s.wordAt (s.pushSlot j)).isSome) (hf : ∀ v, (s.busWrite (s.pushSlot k) .two v).result = .fault f) :
    ∃ x v u, pushState s = .raised f u ∧ Pushed s (s.frameWords.take k) x ∧ push v x = .raised f u := by
  by_cases hk9 : k < 9
  · obtain ⟨x, v, u, hu, hp, hv⟩ := (Pushed.nil s).pushRegs_fault (rs := savedRegs) (by decide) (Nat.zero_le k)
      (by simpa [savedRegs] using hk9) (fun j _ hj => hw j hj) hf
    refine ⟨x, v, u, by simp only [pushState, hu, Result.raised_andThen], ?_, hv⟩
    rw [State.frameWords_eq, List.take_append_of_le_length (by simp [savedRegs]; omega)]
    exact hp
  · obtain rfl : k = 9 := by omega
    obtain ⟨t, ht, hp⟩ := (Pushed.nil s).pushRegs (rs := savedRegs) (by decide)
      fun k _ hk => hw k (by simpa [savedRegs] using hk)
    rw [List.nil_append] at hp
    obtain ⟨u, hu⟩ := hp.fault (hf (t.counter + 2))
    exact ⟨t, _, u, by simp only [pushState, ht, Result.done_andThen, hu, Result.raised_andThen], hp, hu⟩

end Sys2Proof.Machine
end

