-- ==== Sys2Proof/Laws/PerInstr.lean ====
section
/-! SUPPORT. The statement made of every instruction, one lemma per constructor: its encoding has the length the opcode table gives
it (30_encoding.md R77, R78). -/

namespace Sys2Proof.Laws.EncodedLength

/-- The encoding of an instruction takes as many bytes as its name alone says, 1 to 5. -/
def Statement (i : Instr) : Prop := ∀ m : OpcodeMap, (encode m i).length = i.length ∧ 1 ≤ i.length ∧ i.length ≤ 5

theorem movLitReg (lit : Word) (rd : Reg) : Statement (.movLitReg lit rd) := fun _ => ⟨rfl, Op.length_bounds _⟩
theorem movRegReg (rs : Reg) (rd : Reg) : Statement (.movRegReg rs rd) := fun _ => ⟨rfl, Op.length_bounds _⟩
theorem movRegMem (rs : Reg) (adr : Word) : Statement (.movRegMem rs adr) := fun _ => ⟨rfl, Op.length_bounds _⟩
theorem movMemReg (adr : Word) (rd : Reg) : Statement (.movMemReg adr rd) := fun _ => ⟨rfl, Op.length_bounds _⟩
theorem movLitMem (lit : Word) (adr : Word) : Statement (.movLitMem lit adr) := fun _ => ⟨rfl, Op.length_bounds _⟩
theorem movRegPtrReg (rp : Reg) (rd : Reg) : Statement (.movRegPtrReg rp rd) := fun _ => ⟨rfl, Op.length_bounds _⟩
theorem movLitOffReg (base : Word) (ro : Reg) (rd : Reg) : Statement (.movLitOffReg base ro rd) := fun _ => ⟨rfl, Op.length_bounds _⟩
theorem addRegReg (ra : Reg) (rb : Reg) : Statement (.addRegReg ra rb) := fun _ => ⟨rfl, Op.length_bounds _⟩
theorem addLitReg (lit : Word) (ra : Reg) : Statement (.addLitReg lit ra) := fun _ => ⟨rfl, Op.length_bounds _⟩
theorem subLitReg (lit : Word) (ra : Reg) : Statement (.subLitReg lit ra) := fun _ => ⟨rfl, Op.length_bounds _⟩
theorem subRegLit (ra : Reg) (lit : Word) : Statement (.subRegLit ra lit) := fun _ => ⟨rfl, Op.length_bounds _⟩
theorem subRegReg (ra : Reg) (rb : Reg) : Statement (.subRegReg ra rb) := fun _ => ⟨rfl, Op.length_bounds _⟩
theorem mulLitReg (lit : Word) (ra : Reg) : Statement (.mulLitReg lit ra) := fun _ => ⟨rfl, Op.length_bounds _⟩
theorem mulRegReg (ra : Reg) (rb : Reg) : Statement (.mulRegReg ra rb) := fun _ => ⟨rfl, Op.length_bounds _⟩
theorem incReg (ra : Reg) : Statement (.incReg ra) := fun _ => ⟨rfl, Op.length_bounds _⟩
theorem decReg (ra : Reg) : Statement (.decReg ra) := fun _ => ⟨rfl, Op.length_bounds _⟩
theorem lsfRegLit (ra : Reg) (lit : Word) : Statement (.lsfRegLit ra lit) := fun _ => ⟨rfl, Op.length_bounds _⟩
theorem lsfRegReg (ra : Reg) (rb : Reg) : Statement (.lsfRegReg ra rb) := fun _ => ⟨rfl, Op.length_bounds _⟩
theorem rsfRegLit (ra : Reg) (lit : Word) : Statement (.rsfRegLit ra lit) := fun _ => ⟨rfl, Op.length_bounds _⟩
theorem rsfRegReg (ra : Reg) (rb : Reg) : Statement (.rsfRegReg ra rb) := fun _ => ⟨rfl, Op.length_bounds _⟩
theorem andRegLit (ra : Reg) (lit : Word) : Statement (.andRegLit ra lit) := fun _ => ⟨rfl, Op.length_bounds _⟩
theorem andRegReg (ra : Reg) (rb : Reg) : Statement (.andRegReg ra rb) := fun _ => ⟨rfl, Op.length_bounds _⟩
theorem orRegLit (ra : Reg) (lit : Word) : Statement (.orRegLit ra lit) := fun _ => ⟨rfl, Op.length_bounds _⟩
theorem orRegReg (ra : Reg) (rb : Reg) : Statement (.orRegReg ra rb) := fun _ => ⟨rfl, Op.length_bounds _⟩
theorem xorRegLit (ra : Reg) (lit : Word) : Statement (.xorRegLit ra lit) := fun _ => ⟨rfl, Op.length_bounds _⟩
theorem xorRegReg (ra : Reg) (rb : Reg) : Statement (.xorRegReg ra rb) := fun _ => ⟨rfl, Op.length_bounds _⟩
theorem notReg (ra : Reg) : Statement (.notReg ra) := fun _ => ⟨rfl, Op.length_bounds _⟩
theorem jneLit (lit : Word) (adr : Word) : Statement (.jneLit lit adr) := fun _ => ⟨rfl, Op.length_bounds _⟩
theorem jneReg (ra : Reg) (adr : Word) : Statement (.jneReg ra adr) := fun _ => ⟨rfl, Op.length_bounds _⟩
theorem jeqLit (lit : Word) (adr : Word) : Statement (.jeqLit lit adr) := fun _ => ⟨rfl, Op.length_bounds _⟩
theorem jeqReg (ra : Reg) (adr : Word) : Statement (.jeqReg ra adr) := fun _ => ⟨rfl, Op.length_bounds _⟩
theorem jltLit (lit : Word) (adr : Word) : Statement (.jltLit lit adr) := fun _ => ⟨rfl, Op.length_bounds _⟩
theorem jltReg (ra : Reg) (adr : Word) : Statement (.jltReg ra adr) := fun _ => ⟨rfl, Op.length_bounds _⟩
theorem jgtLit (lit : Word) (adr : Word) : Statement (.jgtLit lit adr) := fun _ => ⟨rfl, Op.length_bounds _⟩
theorem jgtReg (ra : Reg) (adr : Word) : Statement (.jgtReg ra adr) := fun _ => ⟨rfl, Op.length_bounds _⟩
theorem jleLit (lit : Word) (adr : Word) : Statement (.jleLit lit adr) := fun _ => ⟨rfl, Op.length_bounds _⟩
theorem jleReg (ra : Reg) (adr : Word) : Statement (.jleReg ra adr) := fun _ => ⟨rfl, Op.length_bounds _⟩
theorem jgeLit (lit : Word) (adr : Word) : Statement (.jgeLit lit adr) := fun _ => ⟨rfl, Op.length_bounds _⟩
theorem jgeReg (ra : Reg) (adr : Word) : Statement (.jgeReg ra adr) := fun _ => ⟨rfl, Op.length_bounds _⟩
theorem pshLit (lit : Word) : Statement (.pshLit lit) := fun _ => ⟨rfl, Op.length_bounds _⟩
theorem pshReg (ra : Reg) : Statement (.pshReg ra) := fun _ => ⟨rfl, Op.length_bounds _⟩
theorem pop (rd : Reg) : Statement (.pop rd) := fun _ => ⟨rfl, Op.length_bounds _⟩
theorem calLit (adr : Word) : Statement (.calLit adr) := fun _ => ⟨rfl, Op.length_bounds _⟩
theorem calReg (ra : Reg) : Statement (.calReg ra) := fun _ => ⟨rfl, Op.length_bounds _⟩
theorem ret : Statement .ret := fun _ => ⟨rfl, Op.length_bounds _⟩
theorem hlt : Statement .hlt := fun _ => ⟨rfl, Op.length_bounds _⟩

end Sys2Proof.Laws.EncodedLength
end

