-- ==== Sys2Proof/Laws/Record.lean ====
section
/-! SUPPORT. The event record (20_memory.md R67). It is written and never read: every part of an instruction, with another record,
does the same and adds the same events. And what it holds: the transactions of each part of an instruction, counted, and every
transaction that reached a device. -/

namespace Sys2Proof.Machine

/-- Two results that agree but for the record each started from: `s.events` and `es`. -/
def Result.Parallel {α : Type} (s : State) (es : List Event) (r r' : Result α) : Prop :=
  match r with
  | .done a t => ∃ evs : List Event, t.events = evs ++ s.events ∧ r' = .done a { t with events := evs ++ es }
  | .raised f t => ∃ evs : List Event, t.events = evs ++ s.events ∧ r' = .raised f { t with events := evs ++ es }

theorem Result.Parallel.andThen {α β : Type} {s : State} {es : List Event} {r r' : Result α} {k k' : α → State → Result β}
    (h : Result.Parallel s es r r')
    (hk : ∀ a t evs, Result.Parallel t (evs ++ es) (k a t) (k' a { t with events := evs ++ es })) :
    Result.Parallel s es (r.andThen k) (r'.andThen k') := by
  cases r with
  | done a t =>
    obtain ⟨evs, h1, rfl⟩ := h
    have := hk a t evs
    simp only [Result.done_andThen]
    cases hr : k a t with
    | done b u =>
      rw [hr] at this
      obtain ⟨more, h2, h3⟩ := this
      exact ⟨more ++ evs, by rw [h2, h1, List.append_assoc], by rw [h3, List.append_assoc]⟩
    | raised b u =>
      rw [hr] at this
      obtain ⟨more, h2, h3⟩ := this
      exact ⟨more ++ evs, by rw [h2, h1, List.append_assoc], by rw [h3, List.append_assoc]⟩
  | raised f t =>
    obtain ⟨evs, h1, rfl⟩ := h
    exact ⟨evs, h1, rfl⟩

theorem memRead_parallel (a : Word) (w : Width) (s : State) (es : List Event) :
    Result.Parallel s es (memRead a w s) (memRead a w { s with events := es }) := by
  unfold memRead
  rw [show State.busRead { s with events := es } a w = s.busRead a w from State.busRead_congr rfl rfl a w]
  cases (s.busRead a w).result <;> exact ⟨[_], rfl, rfl⟩

theorem memWrite_parallel (a : Word) (w : Width) (v : Word) (s : State) (es : List Event) :
    Result.Parallel s es (memWrite a w v s) (memWrite a w v { s with events := es }) := by
  unfold memWrite
  rw [show State.busWrite { s with events := es } a w v = s.busWrite a w v from State.busWrite_congr rfl rfl a w v]
  cases (s.busWrite a w v).result <;> exact ⟨[_], rfl, rfl⟩

theorem fetch8_parallel (s : State) (es : List Event) : Result.Parallel s es (fetch8 s) (fetch8 { s with events := es }) :=
  (memRead_parallel (s.x .ip) .one s es).andThen fun _ _ _ => ⟨[], rfl, rfl⟩

theorem fetch16_parallel (s : State) (es : List Event) : Result.Parallel s es (fetch16 s) (fetch16 { s with events := es }) :=
  (memRead_parallel (s.x .ip) .two s es).andThen fun _ _ _ => ⟨[], rfl, rfl⟩

theorem fetchReg_parallel (s : State) (es : List Event) :
    Result.Parallel s es (fetchReg s) (fetchReg { s with events := es }) :=
  (fetch8_parallel s es).andThen fun _ _ _ => ⟨[], rfl, rfl⟩

theorem fetchField_parallel (k : FieldKind) (s : State) (es : List Event) :
    Result.Parallel s es (fetchField k s) (fetchField k { s with events := es }) := by
  cases k with
  | register => exact (fetchReg_parallel s es).andThen fun _ _ _ => ⟨[], rfl, rfl⟩
  | literal => exact (fetch16_parallel s es).andThen fun _ _ _ => ⟨[], rfl, rfl⟩
  | address => exact (fetch16_parallel s es).andThen fun _ _ _ => ⟨[], rfl, rfl⟩

theorem fetchFields_parallel (ks : List FieldKind) (s : State) (es : List Event) :
    Result.Parallel s es (fetchFields ks s) (fetchFields ks { s with events := es }) := by
  induction ks generalizing s es with
  | nil => exact ⟨[], rfl, rfl⟩
  | cons k ks ih => exact (fetchField_parallel k s es).andThen fun _ t _ => (ih t _).andThen fun _ _ _ => ⟨[], rfl, rfl⟩

theorem fetchInstr_parallel (s : State) (es : List Event) :
    Result.Parallel s es (fetchInstr s) (fetchInstr { s with events := es }) := by
  refine (fetch8_parallel s es).andThen fun b t evs => ?_
  cases t.params.opcodeMap.assigned b with
  | none => exact ⟨[], rfl, rfl⟩
  | some o =>
    refine (fetchFields_parallel o.format.fields t _).andThen fun vs u evs => ?_
    cases Instr.build o vs <;> exact ⟨[], rfl, rfl⟩

theorem push_parallel (v : Word) (s : State) (es : List Event) :
    Result.Parallel s es (push v s) (push v { s with events := es }) :=
  (memWrite_parallel (s.x .sp) .two v s es).andThen fun _ _ _ => ⟨[], rfl, rfl⟩

theorem pop_parallel (s : State) (es : List Event) : Result.Parallel s es (pop s) (pop { s with events := es }) :=
  (memRead_parallel (s.x .sp + 2) .two (s.setX .sp (s.x .sp + 2)) es).andThen fun _ _ _ => ⟨[], rfl, rfl⟩

theorem pushRegs_parallel (rs : List Reg) (s : State) (es : List Event) :
    Result.Parallel s es (pushRegs rs s) (pushRegs rs { s with events := es }) := by
  induction rs generalizing s es with
  | nil => exact ⟨[], rfl, rfl⟩
  | cons r rs ih => exact (push_parallel (s.x r) s es).andThen fun _ t _ => ih t _

theorem popRegs_parallel (rs : List Reg) (s : State) (es : List Event) :
    Result.Parallel s es (popRegs rs s) (popRegs rs { s with events := es }) := by
  induction rs generalizing s es with
  | nil => exact ⟨[], rfl, rfl⟩
  | cons r rs ih => exact (pop_parallel s es).andThen fun v t _ => ih (t.setX r v) _

theorem discard_parallel (n : Nat) (s : State) (es : List Event) :
    Result.Parallel s es (discard n s) (discard n { s with events := es }) := by
  induction n generalizing s es with
  | zero => exact ⟨[], rfl, rfl⟩
  | succ n ih => exact (pop_parallel s es).andThen fun _ t _ => ih t _

theorem pushState_parallel (s : State) (es : List Event) :
    Result.Parallel s es (pushState s) (pushState { s with events := es }) :=
  (pushRegs_parallel _ s es).andThen fun _ t _ => (push_parallel (t.counter + 2) t _).andThen fun _ _ _ => ⟨[], rfl, rfl⟩

theorem popState_parallel (s : State) (es : List Event) :
    Result.Parallel s es (popState s) (popState { s with events := es }) :=
  (pop_parallel (s.setX .sp (s.x .fp)) es).andThen fun m t _ =>
    (popRegs_parallel _ (t.setCounter (reloadCounter t.params.markerReload m)) _).andThen fun _ t _ =>
      (pop_parallel t _).andThen fun n t _ => (discard_parallel n.toNat t _).andThen fun _ _ _ => ⟨[], rfl, rfl⟩

theorem loadWord_parallel (m : MemOperand) (rd : Reg) (s : State) (es : List Event) :
    Result.Parallel s es (loadWord m rd s) (loadWord m rd { s with events := es }) := by
  cases m <;> exact (memRead_parallel _ .two s es).andThen fun _ _ _ => ⟨[], rfl, rfl⟩

theorem storeWord_parallel (m : MemOperand) (v : Source) (s : State) (es : List Event) :
    Result.Parallel s es (storeWord m v s) (storeWord m v { s with events := es }) := by
  cases m <;> cases v <;> exact (memWrite_parallel _ .two _ s es).andThen fun _ _ _ => ⟨[], rfl, rfl⟩

/-! ## How many transactions an instruction makes -/

/-- A result that, where it is done, has added a number of events. -/
def Result.Adds {α : Type} (s : State) (n : Nat) (r : Result α) : Prop :=
  ∀ a t, r = .done a t → ∃ evs : List Event, t.events = evs ++ s.events ∧ evs.length = n

theorem Result.Adds.done {α : Type} {s t : State} (a : α) (h : t.events = s.events) : Result.Adds s 0 (.done a t) := by
  intro b u hu
  cases hu
  exact ⟨[], h, rfl⟩

theorem Result.Adds.andThen {α β : Type} {s : State} {n m : Nat} {r : Result α} {k : α → State → Result β} (h : r.Adds s n)
    (hk : ∀ a t, (k a t).Adds t m) : (r.andThen k).Adds s (m + n) := by
  intro b u hu
  obtain ⟨a, t, h1, h2⟩ := Result.andThen_eq_done.1 hu
  obtain ⟨evs, he, hl⟩ := h a t h1
  obtain ⟨more, hm, hl'⟩ := hk a t b u h2
  exact ⟨more ++ evs, by rw [hm, he, List.append_assoc], by simp [hl, hl']⟩

theorem memRead_adds (a : Word) (w : Width) (s : State) : (memRead a w s).Adds s 1 := by
  intro b t h
  rcases memRead_cases a w s with ⟨_, _, hr⟩ | ⟨_, _, hr⟩ <;> rw [hr] at h <;> cases h
  exact ⟨[_], rfl, rfl⟩

theorem memWrite_adds (a : Word) (w : Width) (v : Word) (s : State) : (memWrite a w v s).Adds s 1 := by
  intro b t h
  rcases memWrite_cases a w v s with ⟨_, _, hr⟩ | ⟨_, _, hr⟩ <;> rw [hr] at h <;> cases h
  exact ⟨[_], rfl, rfl⟩

theorem push_adds (v : Word) (s : State) : (push v s).Adds s 1 :=
  (memWrite_adds _ _ _ s).andThen (m := 0) fun _ _ => .done _ rfl

theorem pop_adds (s : State) : (pop s).Adds s 1 :=
  (memRead_adds (s.x .sp + 2) .two (s.setX .sp (s.x .sp + 2))).andThen (m := 0) fun _ _ => .done _ rfl

theorem popRegs_adds (rs : List Reg) (s : State) : (popRegs rs s).Adds s rs.length := by
  induction rs generalizing s with
  | nil => exact .done _ rfl
  | cons r rs ih => exact (pop_adds s).andThen fun v t => ih (t.setX r v)

theorem discard_adds (n : Nat) (s : State) : (discard n s).Adds s n := by
  induction n generalizing s with
  | zero => exact .done _ rfl
  | succ n ih => exact (pop_adds s).andThen fun _ t => ih t

theorem pushRegs_adds (rs : List Reg) (s : State) : (pushRegs rs s).Adds s rs.length := by
  induction rs generalizing s with
  | nil => exact .done _ rfl
  | cons r rs ih => exact (push_adds _ s).andThen fun _ t => ih t

theorem pushState_adds (s : State) : (pushState s).Adds s 10 :=
  (pushRegs_adds _ s).andThen (m := 1) fun _ t => (push_adds _ t).andThen (m := 0) fun _ _ => .done _ rfl

theorem loadWord_adds (m : MemOperand) (rd : Reg) (s : State) : (loadWord m rd s).Adds s 1 :=
  (memRead_adds _ _ s).andThen (m := 0) fun _ _ => .done _ rfl

theorem storeWord_adds (m : MemOperand) (v : Source) (s : State) : (storeWord m v s).Adds s 1 :=
  (memWrite_adds _ _ _ s).andThen (m := 0) fun _ _ => .done _ rfl

/-- A pop that completes: the event of its read holds the word popped. -/
theorem pop_event {s t : State} {v : Word} (h : pop s = .done v t) : ∃ e : Event, t.events = e :: s.events ∧ e.result = .value v := by
  obtain ⟨u, x, h1, h2⟩ := Result.andThen_eq_done.1 h
  cases h2
  rcases memRead_cases (s.x .sp + 2) .two (s.setX .sp (s.x .sp + 2)) with ⟨w, hw, hr⟩ | ⟨_, _, hr⟩ <;> rw [hr] at h1 <;> cases h1
  exact ⟨_, rfl, hw⟩

/-- `popState()` that completes: ten pops, the pop of the count, and as many more as the count says (46_call_return.md R166). -/
theorem popState_events {s t : State} (h : popState s = .done () t) :
    ∃ (e : Event) (n : Word) (more first : List Event), t.events = more ++ e :: (first ++ s.events) ∧ first.length = 10 ∧
      e.result = .value n ∧ more.length = n.toNat := by
  obtain ⟨m, t1, h1, h⟩ := Result.andThen_eq_done.1 h
  obtain ⟨_, t2, h2, h⟩ := Result.andThen_eq_done.1 h
  obtain ⟨n, t3, h3, h⟩ := Result.andThen_eq_done.1 h
  obtain ⟨_, t4, h4, h⟩ := Result.andThen_eq_done.1 h
  cases h
  obtain ⟨e1, hl1, hn1⟩ := pop_adds _ _ _ h1
  obtain ⟨e2, hl2, hn2⟩ := popRegs_adds _ _ _ _ h2
  obtain ⟨e, he, hv⟩ := pop_event h3
  obtain ⟨more, hl4, hn4⟩ := discard_adds _ _ _ _ h4
  refine ⟨e, n, more, e2 ++ e1, ?_, by simp [hn1, hn2, savedRegs], hv, hn4⟩
  rw [State.setX_events, hl4, he, hl2, State.setCounter_events, hl1, State.setX_events, List.append_assoc]

/-- An instruction that completes adds the transactions of its rule, a return those of its discarded words too. -/
theorem exec_events {i : Instr} {s t : State} (h : exec i s = .next t) (hf : ∀ r, t.status ≠ .faulted r) :
    (i ≠ .ret → ∃ evs : List Event, t.events = evs ++ s.events ∧ evs.length = dataTransactions i) ∧
    (i = .ret → ∃ (e : Event) (n : Word) (more first : List Event), t.events = more ++ e :: (first ++ s.events) ∧
      first.length = 10 ∧ e.result = .value n ∧ more.length = n.toNat) := by
  have hc : ∀ {o : Op} {n : Nat} {r : Result Unit}, r.Adds s n → complete o s r = .next t →
      ∃ evs : List Event, t.events = evs ++ s.events ∧ evs.length = n := by
    intro o n r hr hx
    cases r with
    | done a u => cases hx; exact hr a _ rfl
    | raised f u => cases hx; exact absurd rfl (hf _)
  have hb : ∀ {rel v adr}, (branch rel v adr s).events = s.events := by
    intro rel v adr
    unfold branch
    split <;> rfl
  cases i with
  | ret =>
    refine ⟨fun hn => absurd rfl hn, fun _ => ?_⟩
    have hx : complete .ret s (popState s) = .next t := h
    cases hr : popState s with
    | done a u => rw [hr] at hx; cases hx; exact popState_events hr
    | raised f u => rw [hr] at hx; cases hx; exact absurd rfl (hf _)
  | movRegMem rs adr => exact ⟨fun _ => hc (storeWord_adds _ _ s) h, fun hn => by cases hn⟩
  | movLitMem lit adr => exact ⟨fun _ => hc (storeWord_adds _ _ s) h, fun hn => by cases hn⟩
  | movMemReg adr rd => exact ⟨fun _ => hc (loadWord_adds _ _ s) h, fun hn => by cases hn⟩
  | movRegPtrReg rp rd => exact ⟨fun _ => hc (loadWord_adds _ _ s) h, fun hn => by cases hn⟩
  | movLitOffReg base ro rd => exact ⟨fun _ => hc (loadWord_adds _ _ s) h, fun hn => by cases hn⟩
  | pshLit lit => exact ⟨fun _ => hc (push_adds _ s) h, fun hn => by cases hn⟩
  | pshReg ra => exact ⟨fun _ => hc (push_adds _ s) h, fun hn => by cases hn⟩
  | pop rd => exact ⟨fun _ => hc ((pop_adds s).andThen (m := 0) fun v u => .done (t := u.setX rd v) () rfl) h, fun hn => by cases hn⟩
  | calLit adr =>
    exact ⟨fun _ => hc ((pushState_adds s).andThen (m := 0) fun _ u => .done (t := u.setX .ip adr) () rfl) h, fun hn => by cases hn⟩
  | calReg ra =>
    exact ⟨fun _ => hc ((pushState_adds s).andThen (m := 0) fun _ u => .done (t := u.setX .ip (s.x ra)) () rfl) h, fun hn => by cases hn⟩
  | jneLit | jneReg | jeqLit | jeqReg | jltLit | jltReg | jgtLit | jgtReg | jleLit | jleReg | jgeLit | jgeReg =>
    cases h
    exact ⟨fun _ => ⟨[], hb, rfl⟩, fun hn => by cases hn⟩
  | _ => cases h; exact ⟨fun _ => ⟨[], rfl, rfl⟩, fun hn => by cases hn⟩

/-! ## Every transaction that reaches a device is recorded -/

/-- The events added from `s` to `t` that reached a device spec/ does not describe are as many as the operations it saw. -/
def SeenByDevices (s t : State) : Prop :=
  ∃ evs : List Event, t.events = evs ++ s.events ∧ ∀ h hist, s.device h = .external hist →
    ∃ more, t.device h = .external (more ++ hist) ∧ more.length = (evs.filter fun e => e.reaches h).length

theorem SeenByDevices.refl (s : State) : SeenByDevices s s := ⟨[], rfl, fun _ _ h => ⟨[], h, rfl⟩⟩

theorem SeenByDevices.trans {s t u : State} (h1 : SeenByDevices s t) (h2 : SeenByDevices t u) : SeenByDevices s u := by
  obtain ⟨e1, he1, hd1⟩ := h1
  obtain ⟨e2, he2, hd2⟩ := h2
  refine ⟨e2 ++ e1, by rw [he2, he1, List.append_assoc], fun h hist hh => ?_⟩
  obtain ⟨m1, hm1, hl1⟩ := hd1 h hist hh
  obtain ⟨m2, hm2, hl2⟩ := hd2 h _ hm1
  exact ⟨m2 ++ m1, by rw [hm2, List.append_assoc], by simp [hl1, hl2]⟩

/-- One device replaced by itself after one operation, and the event of it. -/
theorem seenByDevices_of_set {s t : State} {e : Event} {k : Nat} {d : Device} (he : t.events = e :: s.events)
    (ht : t.devices = s.devices.set k d) (hr : ∀ h, e.reaches h = decide (k = h))
    (hd : ∀ hist, s.device k = .external hist → ∃ op, d = .external (op :: hist)) : SeenByDevices s t := by
  refine ⟨[e], he, fun h hist hh => ?_⟩
  have hlen : h < s.devices.length := by
    by_contra hc
    rw [State.device_eq, List.getD_eq_default _ _ (by omega)] at hh
    cases hh
  rw [State.device_eq, ht, getD_set_devices]
  by_cases hk : h = k
  · subst hk
    obtain ⟨op, rfl⟩ := hd hist hh
    exact ⟨[op], by simp [hlen], by simp [hr]⟩
  · exact ⟨[], by rw [if_neg (by simp [hk])]; exact hh, by simp [hr, Ne.symm hk]⟩

theorem seenByDevices_read (s : State) (a : Word) (w : Width) :
    SeenByDevices s (s.after (s.busRead a w) ((s.busRead a w).event .read w a)) := by
  cases ht : s.target .read a w with
  | fault g f =>
    refine ⟨[_], rfl, fun h hist hh => ⟨[], ?_, ?_⟩⟩
    · rw [State.device_eq]
      simp only [State.after, State.busRead, ht]
      exact hh
    · simp [Event.reaches, Transaction.event, State.busRead, ht]
  | device g o =>
    obtain ⟨h1, h2, h3⟩ := State.busRead_of_target ht
    refine seenByDevices_of_set (k := g.device) rfl h3 ?_ ?_
    · intro h
      simp [Event.reaches, Transaction.event, h1, h2]
    · intro hist hh
      rw [hh]
      exact ⟨_, rfl⟩

theorem seenByDevices_write (s : State) (a v : Word) (w : Width) :
    SeenByDevices s (s.after (s.busWrite a w v) ((s.busWrite a w v).event .write w a)) := by
  cases ht : s.target .write a w with
  | fault g f =>
    refine ⟨[_], rfl, fun h hist hh => ⟨[], ?_, ?_⟩⟩
    · rw [State.device_eq]
      simp only [State.after, State.busWrite, ht]
      exact hh
    · simp [Event.reaches, Transaction.event, State.busWrite, ht]
  | device g o =>
    obtain ⟨h1, h2, h3⟩ := State.busWrite_of_target ht
    refine seenByDevices_of_set (k := g.device) rfl h3 ?_ ?_
    · intro h
      simp [Event.reaches, Transaction.event, h1, h2]
    · intro hist hh
      rw [hh]
      exact ⟨_, rfl⟩

theorem Reaches.seenByDevices {s t : State} (h : Reaches s t) : SeenByDevices s t := by
  induction h with
  | refl => exact .refl s
  | setX r v _ ih => exact ih
  | setCounter v _ ih => exact ih
  | read a w _ ih => exact ih.trans (seenByDevices_read _ a w)
  | write a v _ ih => exact ih.trans (seenByDevices_write _ a v .two)

end Sys2Proof.Machine
end

