-- ==== Sys2Proof/Tests/Slice0.lean ====
section
/-! SUPPORT. The tests: ill-formed parameters refused, words written out from spec/ decoded, one step of each instruction with
the result its rule's example gives, and for every statement with hypotheses a state and operands that meet them. -/

namespace Sys2Proof.Tests

open Sys2Proof Sys2Proof.Machine

/-! ## Well-formedness -/

/-- A map of 45 rows. -/
def shortMap : OpcodeMap := ⟨OpcodeMap.default.rows.take 45⟩

/-- A map that gives `RET` and `HLT` one byte. -/
def sharedMap : OpcodeMap := ⟨OpcodeMap.default.rows.take 45 ++ [0x60]⟩

theorem test_wf_default : OpcodeMap.default.wf = true := by decide
theorem test_wf_refuses_missing_row : shortMap.complete = false ∧ shortMap.wf = false := by decide
theorem test_wf_refuses_shared_byte : sharedMap.injective = false ∧ sharedMap.wf = false := by decide
theorem test_wf_params : defaultParams.wf = true ∧ Params.wf { defaultParams with opcodeMap := sharedMap } = false := by decide
theorem test_wf_refuses_zero_cell : Memory.wf [(4, 0x00)] = false := by decide
theorem test_wf_refuses_falling_cells : Memory.wf [(4, 0x01), (3, 0x01)] = false ∧ Memory.wf [(4, 0x01), (4, 0x02)] = false := by decide
theorem test_wf_refuses_cell_outside : Device.wf (.ram 4 [(4, 0x01)]) = false ∧ Device.wf (.ram 5 [(4, 0x01)]) = true := by decide

/-! ## Decoding: words written out from the encodings of 30_encoding.md R79 -/

/-- The bytes decode to the instruction, with nothing left, and the instruction encodes to the bytes. -/
def means (bs : List Byte) (i : Instr) : Bool := decode .default bs == .instr i [] && encode .default i == bs

theorem test_decode_moves :
    means [0x10, 0x12, 0x34, 0x02] (.movLitReg 0x1234 .r1) = true ∧
    means [0x11, 0x02, 0x03] (.movRegReg .r1 .r2) = true ∧
    means [0x12, 0x02, 0x01, 0x00] (.movRegMem .r1 0x0100) = true ∧
    means [0x13, 0x01, 0x00, 0x03] (.movMemReg 0x0100 .r2) = true ∧
    means [0x1B, 0x00, 0x41, 0x30, 0x00] (.movLitMem 0x0041 0x3000) = true ∧
    means [0x1C, 0x05, 0x06] (.movRegPtrReg .r4 .r5) = true ∧
    means [0x1D, 0x00, 0xFE, 0x03, 0x04] (.movLitOffReg 0x00FE .r2 .r3) = true := by decide

theorem test_decode_arithmetic :
    means [0x14, 0x02, 0x03] (.addRegReg .r1 .r2) = true ∧
    means [0x3F, 0x00, 0x05, 0x02] (.addLitReg 0x0005 .r1) = true ∧
    means [0x16, 0x00, 0x03, 0x02] (.subLitReg 0x0003 .r1) = true ∧
    means [0x1E, 0x02, 0x00, 0x03] (.subRegLit .r1 0x0003) = true ∧
    means [0x1F, 0x02, 0x03] (.subRegReg .r1 .r2) = true ∧
    means [0x20, 0x01, 0x00, 0x02] (.mulLitReg 0x0100 .r1) = true ∧
    means [0x21, 0x02, 0x03] (.mulRegReg .r1 .r2) = true ∧
    means [0x35, 0x02] (.incReg .r1) = true ∧
    means [0x36, 0x02] (.decReg .r1) = true := by decide

theorem test_decode_bitwise :
    means [0x26, 0x02, 0x00, 0x04] (.lsfRegLit .r1 0x0004) = true ∧
    means [0x27, 0x02, 0x03] (.lsfRegReg .r1 .r2) = true ∧
    means [0x2A, 0x02, 0x00, 0x04] (.rsfRegLit .r1 0x0004) = true ∧
    means [0x2B, 0x02, 0x03] (.rsfRegReg .r1 .r2) = true ∧
    means [0x2E, 0x02, 0x00, 0xFF] (.andRegLit .r1 0x00FF) = true ∧
    means [0x2F, 0x02, 0x03] (.andRegReg .r1 .r2) = true ∧
    means [0x30, 0x02, 0x00, 0x0F] (.orRegLit .r1 0x000F) = true ∧
    means [0x31, 0x02, 0x03] (.orRegReg .r1 .r2) = true ∧
    means [0x32, 0x02, 0xFF, 0xFF] (.xorRegLit .r1 0xFFFF) = true ∧
    means [0x33, 0x02, 0x02] (.xorRegReg .r1 .r1) = true ∧
    means [0x34, 0x02] (.notReg .r1) = true := by decide

theorem test_decode_branches :
    means [0x15, 0x00, 0x05, 0x00, 0x20] (.jneLit 0x0005 0x0020) = true ∧
    means [0x40, 0x03, 0x00, 0x04] (.jneReg .r2 0x0004) = true ∧
    means [0x41, 0x00, 0x05, 0x00, 0x20] (.jeqLit 0x0005 0x0020) = true ∧
    means [0x3E, 0x02, 0x01, 0x00] (.jeqReg .r1 0x0100) = true ∧
    means [0x43, 0x00, 0x03, 0x00, 0x40] (.jltLit 0x0003 0x0040) = true ∧
    means [0x42, 0x02, 0x00, 0x40] (.jltReg .r1 0x0040) = true ∧
    means [0x45, 0x00, 0x03, 0x00, 0x40] (.jgtLit 0x0003 0x0040) = true ∧
    means [0x44, 0x02, 0x00, 0x40] (.jgtReg .r1 0x0040) = true ∧
    means [0x47, 0x00, 0x03, 0x00, 0x40] (.jleLit 0x0003 0x0040) = true ∧
    means [0x46, 0x02, 0x00, 0x40] (.jleReg .r1 0x0040) = true ∧
    means [0x49, 0x00, 0x03, 0x00, 0x40] (.jgeLit 0x0003 0x0040) = true ∧
    means [0x48, 0x02, 0x00, 0x40] (.jgeReg .r1 0x0040) = true := by decide

theorem test_decode_stack_call_halt :
    means [0x17, 0x00, 0x01] (.pshLit 0x0001) = true ∧
    means [0x18, 0x02] (.pshReg .r1) = true ∧
    means [0x1A, 0x02] (.pop .r1) = true ∧
    means [0x5E, 0x00, 0x10] (.calLit 0x0010) = true ∧
    means [0x5F, 0x04] (.calReg .r3) = true ∧
    means [0x60] .ret = true ∧
    means [0xFF] .hlt = true := by decide

/-- The register bytes 12, 255 and 250 name `ip`, `r2` and `sp` (30_encoding.md R81). -/
theorem test_decode_register_bytes :
    decode .default [0x11, 0x0C, 0xFF] = .instr (.movRegReg .ip .r2) [] ∧
    decode .default [0x1A, 0xFA, 0x99] = .instr (.pop .sp) [0x99] := by decide

theorem test_decode_rejects :
    decode .default [0x19, 0x00] = .unassignedOpcode 0x19 ∧ decode .default [0x10, 0x12, 0x34] = .truncated ∧
    decode .default [] = .truncated := by decide

/-- The 210 bytes the default map leaves unassigned (30_encoding.md R80). -/
theorem test_unassigned_bytes :
    ∀ b : Byte, (OpcodeMap.default.assigned b).isNone = decide (b.toNat ≤ 0x0F ∨ b.toNat = 0x19 ∨ (0x22 ≤ b.toNat ∧ b.toNat ≤ 0x25) ∨
      (0x28 ≤ b.toNat ∧ b.toNat ≤ 0x29) ∨ (0x2C ≤ b.toNat ∧ b.toNat ≤ 0x2D) ∨ (0x37 ≤ b.toNat ∧ b.toNat ≤ 0x3D) ∨
      (0x4A ≤ b.toNat ∧ b.toNat ≤ 0x5D) ∨ (0x61 ≤ b.toNat ∧ b.toNat ≤ 0xFE)) := by decide

/-- The host's words: the first byte is bits 7..0; operand bits above the row's are zero. -/
theorem test_decodeTableWord :
    decodeTableWord 32 0x02341210 = some (.movLitReg 0x1234 .r1) ∧ decodeTableWord 8 0xFF = some .hlt ∧
    decodeTableWord 8 0x5E = some (.calLit 0x0000) ∧ decodeTableWord 8 0x00 = none := by decide

/-! ## One step of each instruction, from the example of its rule -/

/-- The reset machine with registers set and bytes loaded. -/
def machine (regs : List (Reg × Word)) (code : List (Word × List Byte)) : State :=
  regs.foldl (fun s p => s.setX p.1 p.2) (code.foldl (fun s p => s.load p.1 p.2) State.reset)

/-- The state after a step. -/
def stepped (s : State) : State :=
  match step s with
  | .next t => t
  | .fault _ => s
  | .refused _ => s

/-- The values of some registers after a step of `machine`. -/
def regsAfter (regs : List (Reg × Word)) (code : List (Word × List Byte)) (probes : List Reg) : List Word :=
  probes.map (stepped (machine regs code)).x

/-- Some bytes of the RAM device after a step of `machine`. -/
def bytesAfter (regs : List (Reg × Word)) (code : List (Word × List Byte)) (probes : List Nat) : List Byte :=
  probes.map ((stepped (machine regs code)).ramByte 0)

theorem test_step_movLitReg : regsAfter [] [(0, [0x10, 0x12, 0x34, 0x02])] [.r1, .ip] = [0x1234, 0x0004] := by decide
theorem test_step_movRegReg : regsAfter [(.r1, 0x00AB)] [(0, [0x11, 0x02, 0x03])] [.r2, .ip] = [0x00AB, 0x0003] := by decide
theorem test_step_movRegMem :
    bytesAfter [(.r1, 0x1234)] [(0, [0x12, 0x02, 0x01, 0x00])] [0x00FF, 0x0100, 0x0101, 0x0102] = [0x00, 0x12, 0x34, 0x00] := by decide
theorem test_step_movMemReg :
    regsAfter [] [(0, [0x13, 0x01, 0x00, 0x03]), (0x0100, [0x12, 0x34])] [.r2, .ip] = [0x1234, 0x0004] := by decide
theorem test_step_movLitMem :
    (stepped (machine [] [(0, [0x1B, 0x00, 0x41, 0x30, 0x00])])).screenWrites = [⟨0x00, 0x0041⟩] ∧
    ScreenWrite.column ⟨0x00, 0x0041⟩ = 1 ∧ ScreenWrite.row ⟨0x00, 0x0041⟩ = 1 := by decide
theorem test_step_movRegPtrReg :
    regsAfter [(.r4, 0x0200)] [(0, [0x1C, 0x05, 0x06]), (0x0200, [0x5A, 0x90])] [.r5, .ip] = [0x5A90, 0x0003] := by decide
theorem test_step_movLitOffReg :
    regsAfter [(.r2, 0x0002)] [(0, [0x1D, 0x00, 0xFE, 0x03, 0x04]), (0x0100, [0x12, 0x34])] [.r3, .ip] = [0x1234, 0x0005] := by decide
theorem test_step_addRegReg : regsAfter [(.r1, 0xFFFF), (.r2, 0x0002)] [(0, [0x14, 0x02, 0x03])] [.ac, .r1, .r2] = [0x0001, 0xFFFF, 0x0002] := by decide
theorem test_step_addLitReg : regsAfter [(.r1, 0x000A)] [(0, [0x3F, 0x00, 0x05, 0x02])] [.ac, .r1] = [0x000F, 0x000A] := by decide
theorem test_step_subLitReg : regsAfter [(.r1, 0x0001)] [(0, [0x16, 0x00, 0x03, 0x02])] [.ac, .r1] = [0xFFFE, 0x0001] := by decide
theorem test_step_subRegLit : regsAfter [(.r1, 0x0001)] [(0, [0x1E, 0x02, 0x00, 0x03])] [.ac, .r1] = [0x0002, 0x0001] := by decide
theorem test_step_subRegReg : regsAfter [(.r1, 0x0005), (.r2, 0x0007)] [(0, [0x1F, 0x02, 0x03])] [.ac] = [0xFFFE] := by decide
theorem test_step_mulLitReg : regsAfter [(.r1, 0x0123)] [(0, [0x20, 0x01, 0x00, 0x02])] [.ac] = [0x2300] := by decide
theorem test_step_mulRegReg : regsAfter [(.r1, 0xFFFF), (.r2, 0xFFFF)] [(0, [0x21, 0x02, 0x03])] [.ac] = [0x0001] := by decide
theorem test_step_incReg : regsAfter [(.r1, 0xFFFF)] [(0, [0x35, 0x02])] [.r1, .ac, .ip] = [0x0000, 0x0000, 0x0002] := by decide
theorem test_step_decReg : regsAfter [(.r1, 0x0000)] [(0, [0x36, 0x02])] [.r1, .ac, .ip] = [0xFFFF, 0x0000, 0x0002] := by decide
theorem test_step_lsfRegLit : regsAfter [(.r1, 0x1234)] [(0, [0x26, 0x02, 0x00, 0x04])] [.r1, .ac] = [0x2340, 0x0000] := by decide
theorem test_step_lsfRegReg : regsAfter [(.r1, 0x8001), (.r2, 0x0001)] [(0, [0x27, 0x02, 0x03])] [.r1, .r2] = [0x0002, 0x0001] := by decide
/-- Under `jsmod32` amounts 16..31 give 0 and amount 32 gives the value (43_bitwise.md R127). -/
theorem test_step_wide_shifts :
    regsAfter [(.r1, 0x1234)] [(0, [0x26, 0x02, 0x00, 0x10])] [.r1] = [0x0000] ∧
    regsAfter [(.r1, 0x1234)] [(0, [0x2A, 0x02, 0x00, 0x20])] [.r1] = [0x1234] := by decide
theorem test_step_rsfRegLit : regsAfter [(.r1, 0x1234)] [(0, [0x2A, 0x02, 0x00, 0x04])] [.r1, .ac] = [0x0123, 0x0000] := by decide
theorem test_step_rsfRegReg : regsAfter [(.r1, 0x8000), (.r2, 0x000F)] [(0, [0x2B, 0x02, 0x03])] [.r1] = [0x0001] := by decide
theorem test_step_andRegLit : regsAfter [(.r1, 0x1234)] [(0, [0x2E, 0x02, 0x00, 0xFF])] [.ac, .r1] = [0x0034, 0x1234] := by decide
theorem test_step_andRegReg : regsAfter [(.r1, 0xF0F0), (.r2, 0x0FF0)] [(0, [0x2F, 0x02, 0x03])] [.ac] = [0x00F0] := by decide
theorem test_step_orRegLit : regsAfter [(.r1, 0x1230)] [(0, [0x30, 0x02, 0x00, 0x0F])] [.ac] = [0x123F] := by decide
theorem test_step_orRegReg : regsAfter [(.r1, 0xF000), (.r2, 0x000F)] [(0, [0x31, 0x02, 0x03])] [.ac] = [0xF00F] := by decide
theorem test_step_xorRegLit : regsAfter [(.r1, 0x1234)] [(0, [0x32, 0x02, 0xFF, 0xFF])] [.ac] = [0xEDCB] := by decide
theorem test_step_xorRegReg : regsAfter [(.r1, 0x5555), (.ac, 0x0001)] [(0, [0x33, 0x02, 0x02])] [.ac] = [0x0000] := by decide
theorem test_step_notReg : regsAfter [(.r1, 0x1234)] [(0, [0x34, 0x02])] [.ac, .r1] = [0xEDCB, 0x1234] := by decide
theorem test_step_jneLit : regsAfter [(.ip, 0x0010), (.ac, 0x0006)] [(0x0010, [0x15, 0x00, 0x05, 0x00, 0x20])] [.ip] = [0x0020] := by decide
theorem test_step_jneReg : regsAfter [(.ip, 0x0009), (.r2, 0x0003), (.ac, 0x0001)] [(0x0009, [0x40, 0x03, 0x00, 0x04])] [.ip] = [0x0004] := by decide
theorem test_step_jeqLit :
    regsAfter [(.ip, 0x0010), (.ac, 0x0005)] [(0x0010, [0x41, 0x00, 0x05, 0x00, 0x20])] [.ip] = [0x0020] ∧
    regsAfter [(.ip, 0x0010), (.ac, 0x0006)] [(0x0010, [0x41, 0x00, 0x05, 0x00, 0x20])] [.ip] = [0x0015] := by decide
theorem test_step_jeqReg : regsAfter [(.r1, 0x0007), (.ac, 0x0007)] [(0, [0x3E, 0x02, 0x01, 0x00])] [.ip] = [0x0100] := by decide
theorem test_step_jltLit : regsAfter [(.ac, 0x0005)] [(0, [0x43, 0x00, 0x03, 0x00, 0x40])] [.ip] = [0x0040] := by decide
theorem test_step_jltReg : regsAfter [(.r1, 0x0002), (.ac, 0x0003)] [(0, [0x42, 0x02, 0x00, 0x40])] [.ip] = [0x0040] := by decide
theorem test_step_jgtLit : regsAfter [(.ac, 0x0005)] [(0, [0x45, 0x00, 0x03, 0x00, 0x40])] [.ip] = [0x0005] := by decide
theorem test_step_jgtReg : regsAfter [(.r1, 0x8000), (.ac, 0x7FFF)] [(0, [0x44, 0x02, 0x00, 0x40])] [.ip] = [0x0040] := by decide
theorem test_step_jleLit : regsAfter [(.ac, 0x0003)] [(0, [0x47, 0x00, 0x03, 0x00, 0x40])] [.ip] = [0x0040] := by decide
theorem test_step_jleReg : regsAfter [(.r1, 0x0004), (.ac, 0x0003)] [(0, [0x46, 0x02, 0x00, 0x40])] [.ip] = [0x0004] := by decide
theorem test_step_jgeLit : regsAfter [(.ac, 0x0003)] [(0, [0x49, 0x00, 0x03, 0x00, 0x40])] [.ip] = [0x0040] := by decide
theorem test_step_jgeReg : regsAfter [(.r1, 0x0002), (.ac, 0x0003)] [(0, [0x48, 0x02, 0x00, 0x40])] [.ip] = [0x0004] := by decide
theorem test_step_pshLit :
    regsAfter [] [(0, [0x17, 0x00, 0x01])] [.sp, .ip] = [0xFFFC, 0x0003] ∧
    bytesAfter [] [(0, [0x17, 0x00, 0x01])] [0xFFFE, 0xFFFF] = [0x00, 0x01] ∧
    (stepped (machine [] [(0, [0x17, 0x00, 0x01])])).counter = 2 := by decide
theorem test_step_pshReg :
    regsAfter [(.r1, 0xBEEF)] [(0, [0x18, 0x02])] [.sp] = [0xFFFC] ∧
    bytesAfter [(.r1, 0xBEEF)] [(0, [0x18, 0x02])] [0xFFFE, 0xFFFF] = [0xBE, 0xEF] := by decide
theorem test_step_pop :
    regsAfter [(.sp, 0xFFFC)] [(0, [0x1A, 0x02]), (0xFFFE, [0x00, 0x01])] [.r1, .sp] = [0x0001, 0xFFFE] := by decide
/-- `POP sp` leaves the popped value in `sp` (45_stack.md R161). -/
theorem test_step_pop_sp : regsAfter [(.sp, 0xFFFC)] [(0, [0x1A, 0x0A]), (0xFFFE, [0x12, 0x34])] [.sp] = [0x1234] := by decide

/-- The state before the call of the example of 46_call_return.md R167: `r1`..`r8` are 1 to 8, the counter is 4. -/
def beforeCall : State :=
  (machine [(.ip, 0x0006), (.sp, 0xFFFA), (.r1, 1), (.r2, 2), (.r3, 3), (.r4, 4), (.r5, 5), (.r6, 6), (.r7, 7), (.r8, 8)]
    [(0x0006, [0x5E, 0x00, 0x10]), (0x0010, [0x60]), (0xFFFC, [0x00, 0x01, 0x00, 0x07])]).setCounter 4

theorem test_step_calLit_registers :
    [Reg.ip, .sp, .fp].map (stepped beforeCall).x = [0x0010, 0xFFE6, 0xFFE6] ∧ (stepped beforeCall).counter = 0 := by decide
theorem test_step_calLit_frame :
    [0xFFFA, 0xFFF8, 0xFFEC, 0xFFEA, 0xFFE8].map (stepped beforeCall).wordAt =
      [some 0x0001, some 0x0002, some 0x0008, some 0x0009, some 0x0018] := by decide
theorem test_step_calReg : regsAfter [(.r3, 0x0040)] [(0, [0x5F, 0x04])] [.ip, .sp, .fp] = [0x0040, 0xFFEA, 0xFFEA] := by decide
/-- The return of the example of 46_call_return.md R169: one word is discarded. -/
theorem test_step_ret :
    [Reg.ip, .r1, .r8, .sp, .fp].map (stepped (stepped beforeCall)).x = [0x0009, 0x0001, 0x0008, 0xFFFE, 0xFFFE] := by decide
theorem test_step_hlt :
    (stepped (machine [(.ip, 0x000D)] [(0x000D, [0xFF])])).status = .halted ∧
    regsAfter [(.ip, 0x000D)] [(0x000D, [0xFF])] [.ip] = [0x000E] ∧
    (stepped (machine [(.ip, 0x000D)] [(0x000D, [0xFF])])).response = .halted := by decide

/-- An unassigned byte is IllegalOpcode with code 4, `ip` one past it (60_exceptions.md R187). -/
theorem test_step_illegal :
    (stepped State.reset).status = .faulted ⟨.illegalOpcode 0x00 0x0000, 0x0000⟩ ∧ (stepped State.reset).x .ip = 0x0001 ∧
    FaultRecord.code ⟨.illegalOpcode 0x00 0x0000, 0x0000⟩ = 4 := by decide

/-- A literal fetched at 0xFFFF straddles (40_engine.md R99): the record has the start address, `ip` the fields fetched. -/
theorem test_step_operand_straddle :
    (stepped (machine [(.ip, 0xFFFE)] [(0xFFFE, [0x10, 0x12])])).x .ip = 0xFFFF ∧
    ((stepped (machine [(.ip, 0xFFFE)] [(0xFFFE, [0x10, 0x12])])).response matches .faulted ⟨.regionStraddle 0xFFFF .read _, 0xFFFE⟩) := by
  decide

/-- The host's first instruction after reset runs. -/
theorem test_withFetchWord :
    (stepped (State.reset.withFetchWord 32 0x02341210)).x .r1 = 0x1234 ∧
    (stepped (State.reset.withFetchWord 8 0xFF)).status = .halted := by decide

theorem test_host_port :
    State.reset.hostGet "sp" = .ok 0xFFFE ∧ State.reset.hostGet "SP" = .error (.unknownRegister "SP") ∧
    (memoryDump 2 0xFFFF (machine [] [(0xFFFF, [0xAB, 0xCD])])).1 = .ok [0xAB, 0xCD] := by decide

/-- An 8-bit write hands a device its low byte alone (20_memory.md R47). -/
theorem test_write8_low_byte :
    ((Device.external []).write 0 0x0000 .one 0x1234).2 = .external [.write 0x0000 .one 0x0034] ∧
    ((Device.ram 4 []).write 0 0x0002 .one 0x1234).2 = .ram 4 [(2, 0x34)] ∧
    (State.reset.busWrite 0x0000 .one 0x1234).result = .value 0x0034 := by decide

/-- With remap = 0 the device sees the address itself (20_memory.md R44). -/
theorem test_remap :
    Region.offset ⟨0, 0, 0x0100, 0x01FF, false⟩ 0x0105 = 0x0105 ∧ Region.offset ⟨0, 0, 0x0100, 0x01FF, true⟩ 0x0105 = 0x0005 := by
  decide

/-! ## Witnesses: for every statement with hypotheses, a state and operands that meet them -/

/-- RAM at [0x0000, 0x1FFF] alone: most addresses are in no region. -/
def hole : State := .launch defaultParams [⟨0, 0, 0x0000, 0x1FFF, true⟩] 1 [.ram 65536 []]

/-- A RAM device of 0x100 bytes under a region of 0x200. -/
def smallRam : State := .launch defaultParams [⟨0, 0, 0x0000, 0x01FF, true⟩] 1 [.ram 0x100 []]

/-- RAM from 0x8000 up alone. -/
def highRam : State := .launch defaultParams [⟨0, 0, 0x8000, 0xFFFF, true⟩] 1 [.ram 65536 []]

/-- A device spec/ does not describe at [0x8000, 0x8FFF]. -/
def withExternal : State := .launch defaultParams [⟨0, 0, 0x8000, 0x8FFF, true⟩] 1 [.external []]

/-- The reset machine with a latched status. -/
def latched (st : Status) : State := State.reset.setStatus st

theorem witness_DecodeEncodeRoundTrip : OpcodeMap.default.wf = true := by decide

theorem witness_DecodedLengthComesFromTheOpcode :
    decode .default [0xFF, 0x01] = .instr .hlt [0x01] ∧
    decode .default [0x1D, 0x00, 0xFE, 0x03, 0x04] = .instr (.movLitOffReg 0x00FE .r2 .r3) [] := by decide

theorem witness_DecoderIsTotal :
    OpcodeMap.default.assigned 0x10 = some .movLitReg ∧ Op.length .movLitReg = 4 ∧ OpcodeMap.default.assigned 0xFF = some .hlt ∧
    decode .default (0x10 :: [0x12, 0x34]) = .truncated ∧ decode .default (0x00 :: []) = .unassignedOpcode 0x00 := by decide

theorem witness_ResolveTakesTheFirstRegionContaining :
    (resolve defaultRegions 0x2FFF).map Region.token = some 0 ∧ (resolve defaultRegions 0x3000).map Region.token = some 1 ∧
    (resolve defaultRegions 0x30FF).map Region.token = some 1 ∧ (resolve defaultRegions 0x3100).map Region.token = some 0 ∧
    resolve hole.regions 0x2000 = none := by decide

theorem witness_MapAndUnmapKeepTheOrder :
    State.reset.wf = true ∧ (∃ g, State.reset.regions = [] ++ g :: [⟨0, 0, 0x0000, 0xFFFF, true⟩]) ∧
    (∃ g, State.reset.regions = [⟨1, 1, 0x3000, 0x30FF, true⟩] ++ g :: []) ∧ ∀ g ∈ State.reset.regions, g.token ≠ 7 :=
  ⟨by decide, ⟨_, rfl⟩, ⟨_, rfl⟩, by decide⟩

/-- Where the two clauses of `map` meet: the new region's first and last address, and one address outside on each side. -/
theorem witness_map_bounds :
    [0x3FFF, 0x4000, 0x4010, 0x4011].map (fun a => (resolve (State.reset.mapRegion 1 0x4000 0x4010).1.regions a).map Region.token) =
      [some 0, some 2, some 2, some 0] := by decide

theorem witness_UnmappedAddressFaults : resolve hole.regions 0x2000 = none ∧ resolve hole.regions 0xFFFF = none := by decide

theorem witness_RegionStraddleFaults :
    (resolve State.reset.regions 0x30FF = some ⟨1, 1, 0x3000, 0x30FF, true⟩ ∧ State.reset.device 1 = .screen) ∧
    (resolve State.reset.regions 0xFFFF = some ⟨0, 0, 0x0000, 0xFFFF, true⟩ ∧ State.reset.device 0 = .ram 65536 []) ∧
    (resolve State.reset.regions 0x2FFF = some ⟨0, 0, 0x0000, 0xFFFF, true⟩) := by decide

theorem witness_RamAccessBeyondItsSizeFaults :
    resolve smallRam.regions 0x0100 = some ⟨0, 0, 0x0000, 0x01FF, true⟩ ∧
    resolve smallRam.regions 0x00FF = some ⟨0, 0, 0x0000, 0x01FF, true⟩ ∧ smallRam.device 0 = .ram 0x100 [] ∧
    0x100 ≤ (Region.offset ⟨0, 0, 0x0000, 0x01FF, true⟩ 0x0100).toNat ∧
    ¬ 0x100 ≤ (Region.offset ⟨0, 0, 0x0000, 0x01FF, true⟩ 0x00FF).toNat ∧
    0x100 ≤ (Region.offset ⟨0, 0, 0x0000, 0x01FF, true⟩ 0x00FF).toNat + 1 := by decide

theorem witness_RamReadIsBigEndian :
    State.reset.ramWord 0x0000 = some (0, 0x0000) ∧ State.reset.ramWord 0x2FFF = some (0, 0x2FFF) ∧
    State.reset.ramWord 0xFFFE = some (0, 0xFFFE) ∧ State.reset.ramWord 0x30FE = none ∧ State.reset.ramWord 0xFFFF = none := by decide

theorem witness_RamWriteStoresTwoBytes : State.reset.wf = true ∧ State.reset.ramWord 0xFFFE = some (0, 0xFFFE) := by decide

theorem witness_MixedWidthsOnRam :
    State.reset.wf = true ∧ (State.reset.ramWord 0x0100).isSome ∧
    resolve State.reset.regions (0x0100 + 1) = resolve State.reset.regions 0x0100 ∧
    resolve State.reset.regions (0x2FFF + 1) ≠ resolve State.reset.regions 0x2FFF := by decide

theorem witness_ScreenReadsZeroAndRecordsWrites :
    State.reset.screenWord 0x3000 = some 0x00 ∧ State.reset.screenWord 0x30FE = some 0xFE ∧ State.reset.screenWord 0x30FF = none := by
  decide

theorem witness_ExternalDeviceAnswersForItself :
    resolve withExternal.regions 0x8000 = some ⟨0, 0, 0x8000, 0x8FFF, true⟩ ∧ (0x8000 : Word) ≠ 0x8FFF ∧
    resolve withExternal.regions 0x8FFF = some ⟨0, 0, 0x8000, 0x8FFF, true⟩ ∧ Width.one ≠ .two ∧
    withExternal.device 0 = .external [] := by decide

/-- A region with remap = 0, and the addresses where the two clauses of the default platform meet. -/
theorem witness_TranslationAndDefaultPlatform :
    (State.launch defaultParams [⟨0, 0, 0x0100, 0x01FF, false⟩] 1 [.ram 65536 []]).busRead 0x01FE .two =
      ⟨some ⟨0, 0, 0x0100, 0x01FF, false⟩, some 0x01FE, .value 0, [.ram 65536 []]⟩ ∧
    resolve (State.launch defaultParams [⟨0, 0, 0x0100, 0x01FF, false⟩] 1 [.ram 65536 []]).regions 0x01FE =
      some ⟨0, 0, 0x0100, 0x01FF, false⟩ ∧ (0x01FE : Word) ≠ 0x01FF := by decide

theorem witness_FetchByteAdvancesByOne :
    (State.reset.busRead (State.reset.x .ip) .one).result = .value 0 ∧
    (hole.busRead ((hole.setX .ip 0x2000).x .ip) .one).result = .fault (.unmappedAddress 0x2000 .one .read) := by decide

theorem witness_FetchWordAdvancesByTwo :
    State.reset.ramWord (State.reset.x .ip) = some (0, 0) ∧ (State.reset.busRead (State.reset.x .ip) .two).result = .value 0 ∧
    (hole.busRead ((hole.setX .ip 0x1FFF).x .ip) .two).result =
      .fault (.regionStraddle 0x1FFF .read ⟨0, 0, 0x0000, 0x1FFF, true⟩) := by decide

/-- The bytes of `MOV_LIT_OFF_REG 0x00FE, r2, r3` at `ip`, and of `HLT` at the last address. -/
theorem witness_StepRunsTheDecodedInstruction :
    ((machine [] [(0, [0x1D, 0x00, 0xFE, 0x03, 0x04])]).status = .running ∧
      (machine [] [(0, [0x1D, 0x00, 0xFE, 0x03, 0x04])]).codeAtIp .movLitOffReg 0x1D [0x00, 0xFE, 0x03, 0x04] ∧
      decode (machine [] [(0, [0x1D, 0x00, 0xFE, 0x03, 0x04])]).params.opcodeMap (0x1D :: [0x00, 0xFE, 0x03, 0x04]) =
        .instr (.movLitOffReg 0x00FE .r2 .r3) []) ∧
    (machine [(.ip, 0xFFFF)] [(0xFFFF, [0xFF])]).codeAtIp .hlt 0xFF [] := by
  exact ⟨⟨by decide, ⟨by decide, by decide, by decide, by decide, rfl⟩, by decide⟩, by decide, rfl⟩

theorem witness_UnassignedOpcodeFaults :
    State.reset.status = .running ∧ (State.reset.busRead (State.reset.x .ip) .one).result = .value 0x0000 ∧
    State.reset.params.opcodeMap.assigned (loByte 0x0000) = none ∧ State.reset.byteAt (State.reset.x .ip) = some 0x00 := by decide

/-- A fault in the opcode fetch, an unassigned opcode, and a fault in the fetch of the first and of the second operand. -/
theorem witness_DecodePhaseFaultChangesOnlyIp :
    (∃ s1, fetchInstr (hole.setX .ip 0x2000) = .raised (.unmappedAddress 0x2000 .one .read) s1) ∧
    ((hole.setX .ip 0x2000).busRead ((hole.setX .ip 0x2000).x .ip) .one).result = .fault (.unmappedAddress 0x2000 .one .read) ∧
    (∃ s1, fetchInstr State.reset = .raised (.illegalOpcode 0x00 0x0000) s1) ∧
    (∃ f s1, (machine [(.ip, 0xFFFE)] [(0xFFFE, [0x10])]).status = .running ∧
      fetchInstr (machine [(.ip, 0xFFFE)] [(0xFFFE, [0x10])]) = .raised f s1) ∧
    (∃ f s1, fetchInstr (machine [(.ip, 0xFFFC)] [(0xFFFC, [0x1B])]) = .raised f s1) ∧
    ((machine [(.ip, 0xFFFC)] [(0xFFFC, [0x1B])]).busRead 0xFFFC .one).result = .value 0x001B ∧
    OpcodeMap.default.assigned 0x1B = some .movLitMem ∧
    (stepped (machine [(.ip, 0xFFFC)] [(0xFFFC, [0x1B])])).x .ip = 0xFFFF ∧
    (stepped (machine [(.ip, 0xFFFC)] [(0xFFFC, [0x1B])])).events.length = 3 :=
  ⟨⟨_, by rfl⟩, by decide, ⟨_, by rfl⟩, ⟨_, _, by decide, by rfl⟩, ⟨_, _, by rfl⟩, by decide, by decide, by decide, by decide⟩

theorem witness_StepFallsThrough :
    State.reset.status = .running ∧
    (∃ s1, fetchInstr (machine [] [(0, [0x13, 0x30, 0xFF, 0x03])]) = .done (.movMemReg 0x30FF .r2) s1) ∧
    (∃ t, step (machine [] [(0, [0x13, 0x30, 0xFF, 0x03])]) = .next t) ∧ mayWriteIp (.movMemReg 0x30FF .r2) = false ∧
    mayWriteIp (.movMemReg 0x30FF .ip) = true :=
  ⟨by decide, ⟨_, by rfl⟩, ⟨_, by rfl⟩, by decide, by decide⟩

theorem witness_LatchedCoreTakesNoStep :
    (latched .halted).status ≠ .running ∧ (latched (.faulted ⟨.deviceRange 0 .one, 0⟩)).status ≠ .running := by decide

theorem witness_RunStopsAtHaltOrFault :
    (∃ t, hostRun 1 (machine [] [(0, [0xFF])]) = some (t, .halted)) ∧
    (∃ t r, hostRun 2 (machine [] [(0, [0x35, 0x02])]) = some (t, .faulted r)) :=
  ⟨⟨_, by rfl⟩, _, _, by rfl⟩

/-- The three loads: of an address field, of a register, and of a sum that wraps to 0x0001. -/
theorem witness_LoadsReadTheirAddress :
    (State.reset.busRead 0xFFFE .two).result = .value 0 ∧ (0xFFFE : Word) = State.reset.x .sp ∧
    (0x0001 : Word).toNat = ((0xFFFF : Word).toNat + ((machine [(.r2, 0x0002)] []).x .r2).toNat) % 65536 ∧
    ((machine [(.r2, 0x0002)] []).busRead 0x0001 .two).result = .value 0 := by decide

theorem witness_StoresWriteTheirAddress :
    (State.reset.busWrite 0xFFFE .two 0x1234).result = .value 0x1234 ∧
    (0x1234 : Word) = (machine [(.r1, 0x1234)] []).x .r1 ∧
    ((machine [(.r1, 0x1234)] []).busWrite 0x3000 .two 0x1234).result = .value 0x1234 := by decide

theorem witness_FaultingMovesChangeNothingElse :
    (hole.busRead 0x2000 .two).result = .fault (.unmappedAddress 0x2000 .two .read) ∧
    (hole.busWrite 0x2000 .two 0x0001).result = .fault (.unmappedAddress 0x2000 .two .write) ∧
    (0xFFFE : Word) = hole.x .sp ∧ (hole.busRead 0xFFFE .two).result = .fault (.unmappedAddress 0xFFFE .two .read) ∧
    (0x2000 : Word).toNat = ((0x2002 : Word).toNat + (hole.x .sp).toNat) % 65536 ∧
    (State.reset.busRead 0xFFFF .two).result = .fault (.regionStraddle 0xFFFF .read ⟨0, 0, 0x0000, 0xFFFF, true⟩) ∧
    (smallRam.busWrite 0x00FF .two 0x0001).result = .fault (.deviceRange 0x00FF .two) := by decide

theorem witness_StoredWordIsFetched : State.reset.wf = true ∧ (State.reset.ramWord 0xFFFE).isSome := by decide

/-- One witness for each of the seven forms, on 0xFFFE in `sp` and 0 in `r1`. -/
theorem witness_ArithmeticGoesIntoAcModulo65536 :
    (∃ ra rb, Instr.addRegReg .sp .sp = .addRegReg ra rb ∧ (131068 : Int) = (State.reset.x ra).toNat + (State.reset.x rb).toNat) ∧
    (∃ lit ra, Instr.addLitReg 0x0005 .sp = .addLitReg lit ra ∧ (65539 : Int) = lit.toNat + (State.reset.x ra).toNat) ∧
    (∃ lit ra, Instr.subLitReg 0x0001 .r1 = .subLitReg lit ra ∧ (-1 : Int) = (State.reset.x ra).toNat - lit.toNat) ∧
    (∃ ra lit, Instr.subRegLit .sp 0x0000 = .subRegLit ra lit ∧ (-65534 : Int) = lit.toNat - (State.reset.x ra).toNat) ∧
    (∃ ra rb, Instr.subRegReg .r1 .sp = .subRegReg ra rb ∧ (-65534 : Int) = (State.reset.x ra).toNat - (State.reset.x rb).toNat) ∧
    (∃ lit ra, Instr.mulLitReg 0x0002 .sp = .mulLitReg lit ra ∧ (131068 : Int) = lit.toNat * (State.reset.x ra).toNat) ∧
    (∃ ra rb, Instr.mulRegReg .sp .r1 = .mulRegReg ra rb ∧ (0 : Int) = (State.reset.x ra).toNat * (State.reset.x rb).toNat) :=
  ⟨⟨_, _, rfl, by decide⟩, ⟨_, _, rfl, by decide⟩, ⟨_, _, rfl, by decide⟩, ⟨_, _, rfl, by decide⟩, ⟨_, _, rfl, by decide⟩,
    ⟨_, _, rfl, by decide⟩, ⟨_, _, rfl, by decide⟩⟩

theorem witness_ShiftsBelowSixteenAreExact :
    (0x0000 : Word).toNat < 16 ∧ (0x000F : Word).toNat < 16 ∧ (0x0000 : Word) = State.reset.x .r1 ∧
    (0x000F : Word) = (machine [(.r2, 0x000F)] []).x .r2 := by decide

/-- Amounts 16 and 0xFFFE, and a state for each choice of the parameter. -/
theorem witness_WideShiftsFollowTheParameter :
    16 ≤ (0x0010 : Word).toNat ∧ 16 ≤ (0xFFFE : Word).toNat ∧ (0xFFFE : Word) = State.reset.x .sp ∧
    State.reset.params.shiftWide = .jsmod32 ∧
    (State.launch { defaultParams with shiftWide := .zero } defaultRegions 2 defaultDevices).params.shiftWide = .zero ∧
    (State.launch { defaultParams with shiftWide := .other 3 } defaultRegions 2 defaultDevices).params.shiftWide = .other 3 := by
  decide

theorem witness_LogicGoesIntoAcBitByBit :
    (∃ rb, Instr.andRegReg .r1 .sp = .andRegReg .r1 rb ∧ (0xFFFE : Word) = State.reset.x rb) ∧
    (∃ rb, Instr.orRegReg .r1 .sp = .orRegReg .r1 rb ∧ (0xFFFE : Word) = State.reset.x rb) ∧
    (∃ rb, Instr.xorRegReg .r1 .sp = .xorRegReg .r1 rb ∧ (0xFFFE : Word) = State.reset.x rb) ∧
    (0x0000 : Word) = State.reset.x .r1 :=
  ⟨⟨_, rfl, by decide⟩, ⟨_, rfl, by decide⟩, ⟨_, rfl, by decide⟩, by decide⟩

/-- Taken and not taken, with the literal below, equal to and above `ac` = 5. -/
theorem witness_LiteralBranchesCompareWithAc :
    ((machine [(.ac, 0x0005)] []).x .ac).toNat = 5 ∧
    (True ↔ (0x0004 : Word).toNat < ((machine [(.ac, 0x0005)] []).x .ac).toNat) ∧
    (False ↔ (0x0005 : Word).toNat < ((machine [(.ac, 0x0005)] []).x .ac).toNat) ∧
    (True ↔ (0x0005 : Word).toNat ≤ ((machine [(.ac, 0x0005)] []).x .ac).toNat) ∧
    (True ↔ (0xFFFF : Word).toNat > ((machine [(.ac, 0x0005)] []).x .ac).toNat) ∧
    (False ↔ (0x0004 : Word).toNat ≥ ((machine [(.ac, 0x0005)] []).x .ac).toNat) ∧
    (True ↔ (0x0006 : Word).toNat ≠ ((machine [(.ac, 0x0005)] []).x .ac).toNat) := by decide

theorem witness_RegisterBranchesCompareWithAc :
    (True ↔ (State.reset.x .r1).toNat = (State.reset.x .ac).toNat) ∧ (False ↔ (State.reset.x .r1).toNat ≠ (State.reset.x .ac).toNat) ∧
    (True ↔ (State.reset.x .sp).toNat > (State.reset.x .ac).toNat) ∧ (False ↔ (State.reset.x .sp).toNat ≤ (State.reset.x .ac).toNat) ∧
    (True ↔ (State.reset.x .r1).toNat ≥ (State.reset.x .ac).toNat) ∧ (False ↔ (State.reset.x .sp).toNat < (State.reset.x .ac).toNat) := by
  decide

theorem witness_PushesWriteThenLowerSp :
    (State.reset.busWrite (State.reset.x .sp) .two 0x0001).result = .value 0x0001 ∧
    (∃ ra, Instr.pshReg .sp = .pshReg ra ∧ (0xFFFE : Word) = State.reset.x ra) ∧
    (State.reset.busWrite (State.reset.x .sp) .two 0xFFFE).result = .value 0xFFFE :=
  ⟨by decide, ⟨_, rfl, by decide⟩, by decide⟩

/-- A pop at 0xFFFE reads the word at 0x0000. -/
theorem witness_PopRaisesSpThenReads : (State.reset.busRead (State.reset.x .sp + 2) .two).result = .value 0 ∧ State.reset.x .sp + 2 = 0 := by decide

theorem witness_FaultingPushAndPop :
    ((machine [(.sp, 0xFFFF)] []).busWrite ((machine [(.sp, 0xFFFF)] []).x .sp) .two 0x0001).result =
      .fault (.regionStraddle 0xFFFF .write ⟨0, 0, 0x0000, 0xFFFF, true⟩) ∧
    ((machine [(.sp, 0xFFFD)] []).busRead ((machine [(.sp, 0xFFFD)] []).x .sp + 2) .two).result =
      .fault (.regionStraddle 0xFFFF .read ⟨0, 0, 0x0000, 0xFFFF, true⟩) := by decide

theorem witness_PushThenPopRoundTrip : State.reset.wf = true ∧ (State.reset.ramWord (State.reset.x .sp)).isSome := by decide

theorem witness_CallsPushTheFrameAndJump :
    (∀ k, k < 10 → (State.reset.wordAt (State.reset.pushSlot k)).isSome) ∧
    (∃ ra, Instr.calReg .sp = .calReg ra ∧ (0xFFFE : Word) = State.reset.x ra) ∧
    ∃ t, exec (.calReg .sp) State.reset = .next t ∧ t.status = .running :=
  ⟨by decide, ⟨_, rfl, by decide⟩, _, by rfl, by decide⟩

theorem witness_CallLeavesTheFrameInMemory :
    State.reset.wf = true ∧ ∀ k, k < 10 → State.reset.slotIn ⟨0, 0, 0x0000, 0xFFFF, true⟩ (State.reset.pushSlot k) = true := by decide

/-- The first push faults, and the last. -/
theorem witness_FaultingCallKeepsItsPushes :
    (∀ v, ((machine [(.sp, 0xFFFF)] []).busWrite ((machine [(.sp, 0xFFFF)] []).pushSlot 0) .two v).result =
      .fault (.regionStraddle 0xFFFF .write ⟨0, 0, 0x0000, 0xFFFF, true⟩)) ∧
    (∀ j, j < 9 → ((highRam.setX .sp 0x8010).wordAt ((highRam.setX .sp 0x8010).pushSlot j)).isSome) ∧
    (∀ v, ((highRam.setX .sp 0x8010).busWrite ((highRam.setX .sp 0x8010).pushSlot 9) .two v).result =
      .fault (.unmappedAddress 0x7FFE .two .write)) ∧
    (highRam.setX .sp 0x8010).wf = true ∧
    ∀ j, j < 9 → (highRam.setX .sp 0x8010).slotIn ⟨0, 0, 0x8000, 0xFFFF, true⟩ ((highRam.setX .sp 0x8010).pushSlot j) = true :=
  ⟨fun _ => rfl, by decide, fun _ => rfl, by decide, by decide⟩

/-- A frame with no argument, and one with one. -/
theorem witness_ReturnPopsTheFrame :
    (∀ k, 1 ≤ k → k ≤ 11 + ((fun _ => 0 : Nat → Word) 11).toNat → State.reset.wordAt (State.reset.popSlot k) = some 0) ∧
    ∀ k, k < 13 → 1 ≤ k → (stepped beforeCall).wordAt ((stepped beforeCall).popSlot k) =
      some ([0, 0x18, 9, 8, 7, 6, 5, 4, 3, 2, 1, 1, 7].getD k 0) := by
  refine ⟨fun k h1 h2 => ?_, by decide⟩
  have : ∀ k, k < 12 → 1 ≤ k → State.reset.wordAt (State.reset.popSlot k) = some 0 := by decide
  exact this k (by simp at h2; omega) h1

/-- The first pop faults, and the pop of the one discarded word. -/
theorem witness_FaultingReturnKeepsItsPops :
    ((machine [(.fp, 0xFFFD)] []).busRead ((machine [(.fp, 0xFFFD)] []).popSlot 1) .two).result =
      .fault (.regionStraddle 0xFFFF .read ⟨0, 0, 0x0000, 0xFFFF, true⟩) ∧
    (∀ j, j < 12 → 1 ≤ j →
      (machine [(.fp, 0xFFE7)] [(0xFFFD, [0x00, 0x01])]).wordAt ((machine [(.fp, 0xFFE7)] [(0xFFFD, [0x00, 0x01])]).popSlot j) =
        some (if j = 11 then 1 else 0)) ∧
    ((machine [(.fp, 0xFFE7)] [(0xFFFD, [0x00, 0x01])]).busRead
      ((machine [(.fp, 0xFFE7)] [(0xFFFD, [0x00, 0x01])]).popSlot 12) .two).result =
      .fault (.regionStraddle 0xFFFF .read ⟨0, 0, 0x0000, 0xFFFF, true⟩) := by decide

/-- A call with one argument below it, and one with none. -/
theorem witness_CallThenReturnRestores :
    beforeCall.wf = true ∧ (∀ k, k < 10 → beforeCall.slotIn ⟨0, 0, 0x0000, 0xFFFF, true⟩ (beforeCall.pushSlot k) = true) ∧
    (stepped beforeCall).wordAt (beforeCall.x .sp + 2) = some 1 ∧
    (∀ j, j < (1 : Word).toNat → ((stepped beforeCall).wordAt (beforeCall.x .sp + 4 + BitVec.ofNat 16 (2 * j))).isSome) ∧
    (stepped (machine [] [(0, [0x5E, 0x00, 0x10]), (0x0010, [0x60])])).wordAt (State.reset.x .sp + 2) = some 0x5E00 ∧
    (stepped (machine [(.sp, 0x1000)] [(0, [0x5E, 0x00, 0x10])])).wordAt (0x1000 + 2) = some 0 := by decide

/-- The frame invariant holds before the call of the example, and both kinds of premise are met. -/
theorem witness_FrameInvariantKept :
    FrameInvariant State.reset ∧ FrameInvariant beforeCall ∧ (∃ t, exec (.pshLit 1) State.reset = .next t ∧ t.status = .running) ∧
    Instr.pshLit 1 ≠ .ret ∧ destination (.pshLit 1) = none ∧ ∃ t, exec (.calLit 0x0010) State.reset = .next t ∧ t.status = .running :=
  ⟨by unfold FrameInvariant; decide, by unfold FrameInvariant; decide, ⟨_, by rfl, by decide⟩, by decide, by decide,
    _, by rfl, by decide⟩

theorem witness_OnlyHaltHalts :
    (machine [] [(0, [0xFF])]).status = .running ∧ (∃ t, step (machine [] [(0, [0xFF])]) = .next t ∧ t.status = .halted) ∧
    ∃ t, step State.reset = .next t ∧ t.status ≠ .halted :=
  ⟨by decide, ⟨_, by rfl, by decide⟩, _, by rfl, by decide⟩

/-- The premises of the statements about every step: this one, `StepKeepsPlatformAndParameters` and `NoStepReadsTheEventRecord`. -/
theorem witness_StepKeepsStateWellFormed :
    State.reset.wf = true ∧ (∃ t, step State.reset = .next t) ∧ beforeCall.wf = true ∧ ∃ t, step beforeCall = .next t :=
  ⟨by decide, ⟨_, by rfl⟩, by decide, _, by rfl⟩

theorem witness_StepKeepsPlatformAndParameters :
    State.reset.device 0 = .ram 65536 [] ∧ State.reset.device 1 = .screen ∧ withExternal.device 0 = .external [] := by decide

/-- A step that completes, a return that discards one word, and a step with a device spec/ does not describe attached. -/
theorem witness_StepRecordsItsTransactions :
    (∃ t s1, step beforeCall = .next t ∧ fetchInstr beforeCall = .done (.calLit 0x0010) s1 ∧ t.status = .running) ∧
    (∃ t s1, step (stepped beforeCall) = .next t ∧ fetchInstr (stepped beforeCall) = .done .ret s1 ∧ t.status = .running) ∧
    (stepped (stepped beforeCall)).events.length = (stepped beforeCall).events.length + 13 ∧
    (∃ t, step withExternal = .next t) ∧ withExternal.device 0 = .external [] :=
  ⟨⟨_, _, by rfl, by rfl, by decide⟩, ⟨_, _, by rfl, by rfl, by decide⟩, by decide, ⟨_, by rfl⟩, by decide⟩

theorem witness_FaultRecordHoldsTheStartAddress :
    State.reset.status = .running ∧ ∃ t r, step State.reset = .next t ∧ t.status = .faulted r :=
  ⟨by decide, _, _, by rfl, by rfl⟩

theorem witness_HostGetsAndSetsRegistersByName : (∀ q ∈ Reg.all, Reg.hostName q ≠ "r9") ∧ (wrap16 (-1)).toNat = 65535 ∧ (wrap16 65536).toNat = 0 := by decide

/-- A dump that wraps past the last address, and one whose second read is unmapped. -/
theorem witness_MemoryDumpReadsAndChangesNothing :
    (∀ k, k < 2 → State.reset.byteAt (0xFFFF + BitVec.ofNat 16 k) = [(0x00 : Byte), 0x00][k]?) ∧
    (∀ j, j < 1 → (hole.byteAt (0x1FFF + BitVec.ofNat 16 j)).isSome) ∧
    (hole.busRead (0x1FFF + BitVec.ofNat 16 1) .one).result = .fault (.unmappedAddress 0x2000 .one .read) := by decide

end Sys2Proof.Tests
end

section
/-! The registers by name (10_state.md R20, R31, R32): the lookup of a name, then `get`, `set` and the register dump. -/

namespace Sys2Proof.Machine

/-! ## The lookup of a name -/

/-- The twelve names differ, so the lookup of a register's name finds that register (10_state.md R20). -/
@[simp] theorem regNamed_hostName (r : Reg) : regNamed (Reg.hostName r) = some r := by cases r <;> decide

theorem regNamed_eq_none_iff (name : String) : regNamed name = none ↔ ∀ q, Reg.hostName q ≠ name := by
  simp [regNamed, List.find?_eq_none, Reg.mem_all]

/-! ## `get` and `set` -/

@[simp] theorem State.hostGet_hostName (s : State) (r : Reg) : s.hostGet (Reg.hostName r) = .ok (s.x r) := by
  simp [State.hostGet]

@[simp] theorem State.hostSet_hostName (s : State) (r : Reg) (v : Int) :
    s.hostSet (Reg.hostName r) v = .ok (s.setX r (wrap16 v)) := by
  simp [State.hostSet]

theorem State.hostGet_of_regNamed_none (s : State) {name : String} (h : regNamed name = none) :
    s.hostGet name = .error (.unknownRegister name) := by
  simp [State.hostGet, h]

theorem State.hostSet_of_regNamed_none (s : State) {name : String} (v : Int) (h : regNamed name = none) :
    s.hostSet name v = .error (.unknownRegister name) := by
  simp [State.hostSet, h]

/-- Settles O58: the lookup finds exactly the twelve names, and `set` writes one register. -/
theorem hostGetsAndSetsRegistersByName : Obligations.HostGetsAndSetsRegistersByName := by
  intro s r v
  refine ⟨s.hostGet_hostName r, ⟨s.setX r (wrap16 v), s.hostSet_hostName r v, ?_, setX_frame s r _⟩, ?_, rfl⟩
  · rw [State.x_setX_same, toNat_wrap16]
  · intro name hname
    have hnone : regNamed name = none := (regNamed_eq_none_iff name).mpr hname
    exact ⟨s.hostGet_of_regNamed_none hnone, s.hostSet_of_regNamed_none v hnone⟩

end Sys2Proof.Machine
end

section
/-! Resolution and the faults raised before any device is reached (20_memory.md R41, R43, R45, R48). -/

namespace Sys2Proof.Machine

/-! ## Resolution -/

/-- Both bounds of a region are inclusive (20_memory.md R41). -/
theorem Region.contains_iff (g : Region) (a : Word) :
    g.contains a = true ↔ g.start.toNat ≤ a.toNat ∧ a.toNat ≤ g.last.toNat := by
  simp [Region.contains, BitVec.le_def]

theorem resolve_eq_some_iff {regions : List Region} {a : Word} {g : Region} :
    resolve regions a = some g ↔
      g.contains a = true ∧ ∃ pre post, regions = pre ++ g :: post ∧ ∀ p ∈ pre, ¬ p.contains a = true := by
  simp [resolve, List.find?_eq_some_iff_append]

theorem resolve_eq_none_iff {regions : List Region} {a : Word} :
    resolve regions a = none ↔ ∀ g ∈ regions, ¬ g.contains a = true :=
  List.find?_eq_none

theorem mem_of_resolve_eq_some {regions : List Region} {a : Word} {g : Region} (h : resolve regions a = some g) :
    g ∈ regions :=
  List.mem_of_find?_eq_some h

/-- Settles O6: the search stops at the first region that contains the address. -/
theorem resolveTakesTheFirstRegionContaining : Obligations.ResolveTakesTheFirstRegionContaining := by
  intro regions a
  refine ⟨fun g => ?_, by simp only [resolve_eq_none_iff, Region.contains_iff]⟩
  simp only [resolve_eq_some_iff, Region.contains_iff]
  constructor
  · rintro ⟨hg, pre, post, hsplit, hpre⟩
    exact ⟨pre, post, hsplit, hg, hpre⟩
  · rintro ⟨pre, post, hsplit, hg, hpre⟩
    exact ⟨hg, pre, post, hsplit, hpre⟩

/-! ## Accesses that reach no device -/

/-- A read whose target is a fault raises it and changes nothing but the event record. -/
theorem memRead_of_target_fault {s : State} {a : Word} {w : Width} {r : Option Region} {f : FaultInfo}
    (h : s.target .read a w = .fault r f) :
    memRead a w s = .raised f { s with events := ⟨.read, w, a, r, none, .fault f⟩ :: s.events } := by
  have hbus : s.busRead a w = ⟨r, none, .fault f, s.devices⟩ := by simp only [State.busRead, h]
  rw [memRead_of_fault (by rw [hbus]), hbus]
  rfl

/-- A write whose target is a fault raises it and changes nothing but the event record. -/
theorem memWrite_of_target_fault {s : State} {a v : Word} {w : Width} {r : Option Region} {f : FaultInfo}
    (h : s.target .write a w = .fault r f) :
    memWrite a w v s = .raised f { s with events := ⟨.write, w, a, r, none, .fault f⟩ :: s.events } := by
  have hbus : s.busWrite a w v = ⟨r, none, .fault f, s.devices⟩ := by simp only [State.busWrite, h]
  rw [memWrite_of_fault (by rw [hbus]), hbus]
  rfl

/-- Settles O8: where the address resolves to no region, the target of both directions is the fault. -/
theorem unmappedAddressFaults : Obligations.UnmappedAddressFaults := fun _ _ _ h =>
  ⟨memRead_of_target_fault (State.target_none h), fun _ => memWrite_of_target_fault (State.target_none h)⟩

/-- The default platform has two regions: the screen's, which ends at 0x30FF, and RAM's, which ends at 0xFFFF (20_memory.md R61). -/
theorem last_and_device_of_mem_reset_regions {g : Region} (h : g ∈ State.reset.regions) :
    (g.last = 0x30FF ∧ State.reset.device g.device = .screen) ∨
      (g.last = 0xFFFF ∧ State.reset.device g.device = .ram 65536 []) := by
  obtain rfl | rfl : g = ⟨1, 1, 0x3000, 0x30FF, true⟩ ∨ g = ⟨0, 0, 0x0000, 0xFFFF, true⟩ := by
    simpa [State.reset, State.launch, defaultRegions] using h
  · exact .inl ⟨rfl, rfl⟩
  · exact .inr ⟨rfl, rfl⟩

/-- Settles O9: at its region's last address the target of both directions is the fault; each default region has its own device. -/
theorem regionStraddleFaults : Obligations.RegionStraddleFaults := by
  refine ⟨fun s g h => ⟨?_, fun v => ?_⟩, fun a g h => ?_⟩
  · exact memRead_of_target_fault (State.target_straddle h rfl)
  · exact memWrite_of_target_fault (State.target_straddle h rfl)
  · obtain ⟨hlast, hdev⟩ | ⟨hlast, hdev⟩ := last_and_device_of_mem_reset_regions (mem_of_resolve_eq_some h)
    · simp [hlast, hdev, ← BitVec.toNat_inj]
    · simp [hlast, hdev, ← BitVec.toNat_inj]

end Sys2Proof.Machine
end

section
/-! Register bytes (30_encoding.md R81): every byte value names a register, by its residue modulo 12. -/

namespace Sys2Proof

theorem Reg.getElem?_all_index (r : Reg) : Reg.all[r.index]? = some r := by cases r <;> rfl

theorem Reg.index_ofByte (b : Byte) : (Reg.ofByte b).index = b.toNat % 12 :=
  Reg.index_ofIndex (Nat.mod_lt _ (by decide))

/-- The slots of the twelve registers lie in the 24-byte store (10_state.md R20). -/
theorem Reg.byteOffset_add_one_lt (r : Reg) : r.byteOffset + 1 < 24 := by
  have hindex := r.index_lt
  simp only [Reg.byteOffset]
  omega

/-- Settles O4: the index of the register named is the byte's residue, and a register stands at its index in the order. -/
theorem registerByteIsReducedModTwelve : Obligations.RegisterByteIsReducedModTwelve := by
  intro b
  have hindex := Reg.index_ofByte b
  refine ⟨?_, hindex, ?_, Reg.byteOffset_add_one_lt _⟩
  · rw [← hindex, Reg.getElem?_all_index]
  · rw [Reg.byteOffset, hindex]

end Sys2Proof
end

section
/-! The fetch primitives (40_engine.md R91, R92): each is one read at `ip`, and advances `ip` where the read completes; then the
step at an opcode byte the map does not assign (R103). -/

namespace Sys2Proof.Machine

/-! ## The fetch primitives -/

theorem fetch8_of_value {s : State} {v : Word} (h : (s.busRead (s.x .ip) .one).result = .value v) :
    fetch8 s = .done (loByte v) ((s.after (s.busRead (s.x .ip) .one)
      ((s.busRead (s.x .ip) .one).event .read .one (s.x .ip))).setX .ip (s.x .ip + 1)) := by
  simp only [fetch8, memRead_of_value h, Result.done_andThen, State.after_x]

theorem fetch8_of_fault {s : State} {f : FaultInfo} (h : (s.busRead (s.x .ip) .one).result = .fault f) :
    fetch8 s = .raised f (s.after (s.busRead (s.x .ip) .one)
      ((s.busRead (s.x .ip) .one).event .read .one (s.x .ip))) := by
  simp only [fetch8, memRead_of_fault h, Result.raised_andThen]

theorem fetch16_of_value {s : State} {v : Word} (h : (s.busRead (s.x .ip) .two).result = .value v) :
    fetch16 s = .done v ((s.after (s.busRead (s.x .ip) .two)
      ((s.busRead (s.x .ip) .two).event .read .two (s.x .ip))).setX .ip (s.x .ip + 2)) := by
  simp only [fetch16, memRead_of_value h, Result.done_andThen, State.after_x]

theorem fetch16_of_fault {s : State} {f : FaultInfo} (h : (s.busRead (s.x .ip) .two).result = .fault f) :
    fetch16 s = .raised f (s.after (s.busRead (s.x .ip) .two)
      ((s.busRead (s.x .ip) .two).event .read .two (s.x .ip))) := by
  simp only [fetch16, memRead_of_fault h, Result.raised_andThen]

/-! ## What a fetch leaves unchanged -/

/-- A recorded transaction changes no register. -/
theorem sameRegs_after (s : State) (t : Transaction) (e : Event) : SameRegs [] s (s.after t e) :=
  fun q _ => s.after_x t e q

/-- A recorded transaction, then a write of `r`: every register but `r` is as before. -/
theorem sameRegs_after_setX (s : State) (t : Transaction) (e : Event) (r : Reg) (v : Word) :
    SameRegs [r] s ((s.after t e).setX r v) := fun q hq => by
  rw [State.x_setX_ne _ _ (List.ne_of_not_mem_cons hq), State.after_x]

/-- The word a 16-bit read of RAM answers: the byte at the address is the high one (20_memory.md R53). -/
theorem State.busRead_ramWord {s : State} {a : Word} {h o : Nat} (hp : s.ramWord a = some (h, o)) :
    (s.busRead a .two).result = .value (wordOfBytes (s.ramByte h o) (s.ramByte h (o + 1))) :=
  (State.busRead_wordAt (by simp only [State.wordAt, hp])).1

/-- Settles O17: `fetch8` is the 8-bit read at `ip`, and only a completed read is followed by the write of `ip`. -/
theorem fetchByteAdvancesByOne : Obligations.FetchByteAdvancesByOne := by
  refine fun s => ⟨fun v hv => ?_, fun f hf => ?_⟩
  · refine ⟨_, fetch8_of_value hv, ?_, sameRegs_after_setX s _ _ _ _⟩
    rw [State.x_setX_same, BitVec.toNat_add]
    rfl
  · exact ⟨_, fetch8_of_fault hf, sameRegs_after s _ _⟩

/-- Settles O18: `fetch16` is one 16-bit read at `ip`, big-endian in RAM, and only a completed read is followed by the write of
`ip`. -/
theorem fetchWordAdvancesByTwo : Obligations.FetchWordAdvancesByTwo := by
  refine fun s => ⟨fun v hv => ?_, fun _ _ hp => State.busRead_ramWord hp, fun f hf => ?_⟩
  · refine ⟨_, fetch16_of_value hv, ?_, sameRegs_after_setX s _ _ _ _, rfl⟩
    rw [State.x_setX_same, BitVec.toNat_add]
    rfl
  · exact ⟨_, fetch16_of_fault hf, sameRegs_after s _ _⟩

/-! ## An opcode byte that names no instruction -/

/-- A running core takes a fault of its decode phase with the instruction's start address (60_exceptions.md R181, R186). -/
theorem step_of_fetchInstr_raised {s s1 : State} {f : FaultInfo} (hs : s.status = .running)
    (h : fetchInstr s = .raised f s1) : step s = .next (s1.takeFault (s.x .ip) f) := by
  simp only [step, hs, h]

/-- Where the byte is unassigned the decode phase ends with the opcode fetch (40_engine.md R103). -/
theorem fetchInstr_of_unassigned {s s1 : State} {b : Byte} (h : fetch8 s = .done b s1)
    (hb : s1.params.opcodeMap.assigned b = none) : fetchInstr s = .raised (.illegalOpcode b (s.x .ip)) s1 := by
  simp only [fetchInstr, h, Result.done_andThen, hb]

/-- Settles O20: the state is the one `fetch8` leaves with the fault taken; a byte of RAM or of the screen is read as it stands. -/
theorem unassignedOpcodeFaults : Obligations.UnassignedOpcodeFaults := by
  intro s v hs hv hnone
  refine ⟨step_of_fetchInstr_raised hs (fetchInstr_of_unassigned (fetch8_of_value hv) hnone), fun b hb => ?_⟩
  obtain ⟨hresult, hdevices⟩ := State.busRead_byteAt hb
  obtain rfl : v = b.setWidth 16 := BusResult.value.inj (hv.symm.trans hresult)
  exact ⟨loByte_setWidth b, hdevices⟩

end Sys2Proof.Machine
end

section
/-! The fault record of a step (60_exceptions.md R181, R188): its start address, its kind, and that it stays. -/

namespace Sys2Proof.Machine

/-! ## The start address -/

/-- After the decode phase `ip` less the instruction's length is the address of the opcode byte (40_engine.md R94). -/
theorem instrStart_of_fetchInstr {s t : State} {i : Instr} (h : fetchInstr s = .done i t) :
    t.instrStart i.op = s.x .ip := by
  rw [State.instrStart, fetchInstr_ip h]
  exact BitVec.add_sub_cancel _ _

/-! ## Fault kinds and codes -/

theorem FaultInfo.ofBus.kind_ne_unknownRegister {f : FaultInfo} (h : f.ofBus) : f.kind ≠ .unknownRegister := by
  rcases h with hk | hk | hk <;> simp [hk]

theorem FaultKind.one_le_code (k : FaultKind) : 1 ≤ k.code := by cases k <;> decide

/-- Only the host's fault has code 5 (60_exceptions.md R180). -/
theorem FaultKind.code_le_four {k : FaultKind} (h : k ≠ .unknownRegister) : k.code ≤ 4 := by
  cases k with
  | unknownRegister => exact absurd rfl h
  | _ => decide

/-! ## The record of a step -/

/-- A latched fault is one that was taken: in the execute phase, from a transaction, with the instruction's start address. -/
theorem Ends.record {o : Op} {s t : State} {r : FaultRecord} (h : Ends o s t) (hs : s.status = .running)
    (ht : t.status = .faulted r) : r.start = s.instrStart o ∧ r.info.ofBus := by
  rcases h with hr | ⟨t1, f, -, hf, rfl⟩ | ⟨-, rfl⟩
  · simp [hr.status, hs] at ht
  · cases ht
    exact ⟨rfl, hf⟩
  · cases ht

/-- Both phases of a step record the address of the opcode byte, and neither raises the host's fault. -/
theorem step_record {s t : State} {r : FaultRecord} (hs : s.status = .running) (h : step s = .next t)
    (ht : t.status = .faulted r) : r.start = s.x .ip ∧ r.info.kind ≠ .unknownRegister := by
  rcases step_cases h with ⟨hlatched, -⟩ | ⟨-, f, s1, -, -, hf, rfl⟩ | ⟨-, i, s1, hfetch, hreach, -, hends⟩
  · exact absurd hs hlatched
  · cases ht
    refine ⟨rfl, ?_⟩
    rcases hf with hbus | ⟨b, rfl⟩
    · exact hbus.kind_ne_unknownRegister
    · simp [FaultInfo.kind]
  · obtain ⟨hstart, hbus⟩ := hends.record (hreach.status.trans hs) ht
    exact ⟨hstart.trans (instrStart_of_fetchInstr hfetch), hbus.kind_ne_unknownRegister⟩

/-! ## The record stays -/

/-- A faulted core's step changes nothing and answers the record again (60_exceptions.md R188). -/
theorem hostStep_of_faulted {t : State} {r : FaultRecord} (h : t.status = .faulted r) :
    hostStep t = .next (t, .faulted r) := by
  simp only [hostStep, step, State.response, h]

/-- The host's run of a faulted core stops at once, with the state and the record it found. -/
theorem hostRun_of_faulted {t : State} {r : FaultRecord} (h : t.status = .faulted r) (n : Nat) :
    hostRun (n + 1) t = some (t, .faulted r) := by
  simp only [hostRun, hostStep_of_faulted h]

/-- Settles O54: the start address and the kind are those of the fault taken, and a latched core keeps them. -/
theorem faultRecordHoldsTheStartAddress : Obligations.FaultRecordHoldsTheStartAddress := by
  intro s t r hs hstep ht
  obtain ⟨hstart, hkind⟩ := step_record hs hstep ht
  refine ⟨hstart, r.info.kind.one_le_code, FaultKind.code_le_four hkind, fun name hname => ?_, hostRun_of_faulted ht⟩
  exact hkind (congrArg FaultInfo.kind hname)

end Sys2Proof.Machine
end

section
/-! The decoder and the encoder (30_encoding.md): the round trip, the length an opcode gives, and the three outcomes. -/

namespace Sys2Proof

/-! ## The outcomes of the decoder -/

/-- What the decoder does where the first byte is assigned and the operand fields can be parsed. -/
theorem decode_of_parseFields {m : OpcodeMap} {b : Byte} {bs rest : List Byte} {o : Op} {vs : List FieldValue} {i : Instr}
    (ha : m.assigned b = some o) (hp : parseFields o.format.fields bs = some (vs, rest)) (hi : Instr.build o vs = some i) :
    decode m (b :: bs) = .instr i rest := by
  simp only [decode, ha, hp, hi]

theorem decode_of_unassigned {m : OpcodeMap} {b : Byte} (h : m.assigned b = none) (bs : List Byte) :
    decode m (b :: bs) = .unassignedOpcode b := by
  simp only [decode, h]

theorem decode_of_parseFields_none {m : OpcodeMap} {b : Byte} {bs : List Byte} {o : Op} (ha : m.assigned b = some o)
    (hp : parseFields o.format.fields bs = none) : decode m (b :: bs) = .truncated := by
  simp only [decode, ha, hp]

/-- Inversion: a decoded instruction comes from an assigned byte and the fields of its format. -/
theorem decode_eq_instr {m : OpcodeMap} {bs rest : List Byte} {i : Instr} (h : decode m bs = .instr i rest) :
    ∃ b tail vs, bs = b :: tail ∧ m.assigned b = some i.op ∧ parseFields i.op.format.fields tail = some (vs, rest) ∧
      Instr.build i.op vs = some i := by
  cases bs with
  | nil => cases h
  | cons b tail =>
    cases ha : m.assigned b with
    | none => rw [decode_of_unassigned ha] at h; cases h
    | some o =>
      cases hp : parseFields o.format.fields tail with
      | none => rw [decode_of_parseFields_none ha hp] at h; cases h
      | some p =>
        obtain ⟨vs, left⟩ := p
        obtain ⟨j, hj, rfl⟩ := Instr.build_isSome (parseFields_some hp).1
        rw [decode_of_parseFields ha hp hj] at h
        cases h
        exact ⟨b, tail, vs, rfl, ha, hp, hj⟩

/-- An instruction's length is that of its opcode byte and its fields (30_encoding.md R78). -/
theorem Op.length_eq (o : Op) : o.length = 1 + (o.format.fields.map FieldKind.size).sum := rfl

/-- Bytes too few for the fields are parsed as none. -/
theorem parseFields_eq_none {ks : List FieldKind} {bs : List Byte} (h : bs.length < (ks.map FieldKind.size).sum) :
    parseFields ks bs = none := by
  cases hp : parseFields ks bs with
  | none => rfl
  | some p =>
    obtain ⟨-, used, rfl, hused⟩ := parseFields_some hp
    simp only [List.length_append] at h
    omega

/-- Bytes enough for the fields decode to an instruction of the name assigned, whatever they are (30_encoding.md R84). -/
theorem decode_of_enough {m : OpcodeMap} {b : Byte} {bs : List Byte} {o : Op} (ha : m.assigned b = some o)
    (h : o.length ≤ 1 + bs.length) : ∃ i rest, decode m (b :: bs) = .instr i rest ∧ i.op = o := by
  rw [Op.length_eq] at h
  obtain ⟨⟨vs, rest⟩, hp⟩ := parseFields_isSome (ks := o.format.fields) (bs := bs) (by omega)
  obtain ⟨i, hi, hop⟩ := Instr.build_isSome (parseFields_some hp).1
  exact ⟨i, rest, decode_of_parseFields ha hp hi, hop⟩

theorem decode_of_too_few {m : OpcodeMap} {b : Byte} {bs : List Byte} {o : Op} (ha : m.assigned b = some o)
    (h : 1 + bs.length < o.length) : decode m (b :: bs) = .truncated := by
  rw [Op.length_eq] at h
  exact decode_of_parseFields_none ha (parseFields_eq_none (by omega))

theorem decode_eq_unassignedOpcode_iff {m : OpcodeMap} {b : Byte} {bs : List Byte} :
    decode m (b :: bs) = .unassignedOpcode b ↔ m.assigned b = none := by
  refine ⟨fun h => ?_, fun h => decode_of_unassigned h bs⟩
  cases ha : m.assigned b with
  | none => rfl
  | some o =>
    rcases Nat.lt_or_ge (1 + bs.length) o.length with hlt | hge
    · rw [decode_of_too_few ha hlt] at h; cases h
    · obtain ⟨i, rest, hi, -⟩ := decode_of_enough ha hge
      rw [hi] at h; cases h

/-! ## The statements -/

/-- Settles O1: the byte is assigned to its instruction, the fields' bytes parse to the fields, and these build the instruction. -/
theorem decodeEncodeRoundTrip : Obligations.DecodeEncodeRoundTrip := fun _ hm i rest =>
  decode_of_parseFields (OpcodeMap.assigned_byteOf hm i.op) (parseFields_bytes i.fields_hasKind rest) i.build_fields

/-- Settles O2: the bytes consumed are the opcode and those the fields of its format take. -/
theorem decodedLengthComesFromTheOpcode : Obligations.DecodedLengthComesFromTheOpcode := by
  intro m bs i rest h
  obtain ⟨b, tail, vs, rfl, ha, hp, -⟩ := decode_eq_instr h
  obtain ⟨-, used, rfl, hused⟩ := parseFields_some hp
  exact ⟨b, used, rfl, ha, by rw [Op.length_eq, hused], i.op.length_bounds⟩

/-- Settles O3: an unassigned first byte, bytes enough, and bytes too few give the three outcomes. -/
theorem decoderIsTotal : Obligations.DecoderIsTotal := fun _ _ _ =>
  ⟨decode_eq_unassignedOpcode_iff.trans OpcodeMap.assigned_eq_none, fun _ ha => ⟨decode_of_enough ha, decode_of_too_few ha⟩⟩

/-- Settles O5: each word is evaluated under the default map. -/
theorem wordsOfTheSpecDecode : Obligations.WordsOfTheSpecDecode := by
  unfold Obligations.WordsOfTheSpecDecode
  decide

end Sys2Proof
end

section
/-! What every step keeps: a step is register and counter writes and transactions, and then a status; so an invariant is proved of
`Reaches` and holds of the step. -/

namespace Sys2Proof.Machine

/-- Every ending of an instruction is a state reached, with its status written. -/
theorem Ends.reaches {o : Op} {s t : State} (h : Ends o s t) : ∃ u v, Reaches s u ∧ t = u.setStatus v := by
  rcases h with hr | ⟨u, f, hr, -, rfl⟩ | ⟨-, rfl⟩
  · exact ⟨t, t.status, hr, rfl⟩
  · exact ⟨u, _, hr, rfl⟩
  · exact ⟨s, _, .refl, rfl⟩

/-- Every step leaves a state reached, with its status written. -/
theorem step_reaches {s t : State} (h : step s = .next t) : ∃ u v, Reaches s u ∧ t = u.setStatus v := by
  rcases step_cases h with ⟨-, rfl⟩ | ⟨-, f, s1, -, hr, -, rfl⟩ | ⟨-, i, s1, -, hr, -, hends⟩
  · exact ⟨t, t.status, .refl, rfl⟩
  · exact ⟨s1, _, hr, rfl⟩
  · obtain ⟨u, v, hu, rfl⟩ := hends.reaches
    exact ⟨u, v, hr.trans hu, rfl⟩

/-! ## The number of devices, and their form -/

theorem State.busRead_devices_length (s : State) (a : Word) (w : Width) :
    (s.busRead a w).devices.length = s.devices.length := by
  rcases s.busRead_devices a w with h | ⟨k, o, h⟩ <;> rw [h]
  exact List.length_set

theorem State.busWrite_devices_length (s : State) (a : Word) (w : Width) (v : Word) :
    (s.busWrite a w v).devices.length = s.devices.length := by
  rcases s.busWrite_devices a w v with h | ⟨k, o, h⟩ <;> rw [h]
  exact List.length_set

theorem Reaches.devices_length {s t : State} (h : Reaches s t) : t.devices.length = s.devices.length := by
  induction h with
  | refl => rfl
  | setX r v _ ih => exact ih
  | setCounter v _ ih => exact ih
  | @read t a w _ ih => exact (t.busRead_devices_length a w).trans ih
  | @write t a v _ ih => exact (t.busWrite_devices_length a .two v).trans ih

/-! ## Well-formed states -/

theorem Reaches.devices_wf {s t : State} (h : Reaches s t) (hs : s.devices.all Device.wf = true) :
    t.devices.all Device.wf = true := by
  induction h with
  | refl => exact hs
  | setX r v _ ih => exact ih
  | setCounter v _ ih => exact ih
  | read a w _ ih => exact State.wf_busRead ih a w
  | write a v _ ih => exact State.wf_busWrite ih a .two v

theorem State.wf_iff {s : State} : s.wf = true ↔ s.devices.all Device.wf = true ∧ s.regionsWf = true ∧ s.params.wf = true := by
  simp [State.wf, and_assoc]

/-- Whether the regions are well formed depends on the platform and on how many devices are attached. -/
theorem State.regionsWf_congr {s t : State} (h : SamePlatform s t) (hlen : t.devices.length = s.devices.length) :
    t.regionsWf = s.regionsWf := by
  obtain ⟨hregions, htoken, -⟩ := h
  simp only [State.regionsWf, hregions, htoken, hlen]

theorem Reaches.wf {s t : State} (h : Reaches s t) (hs : s.wf = true) : t.wf = true := by
  obtain ⟨hdev, hreg, hparams⟩ := State.wf_iff.1 hs
  obtain ⟨-, -, hp⟩ := h.samePlatform
  exact State.wf_iff.2 ⟨h.devices_wf hdev, by rwa [State.regionsWf_congr h.samePlatform h.devices_length], by rwa [hp]⟩

/-- Settles O52: transactions keep every device well formed, nothing writes the platform, and the status is not looked at. -/
theorem stepKeepsStateWellFormed : Obligations.StepKeepsStateWellFormed := by
  intro s t hs h
  obtain ⟨u, v, hu, rfl⟩ := step_reaches h
  exact hu.wf hs

/-- Settles O53: both halves are evaluated. -/
theorem resetIsWellFormed : Obligations.ResetIsWellFormed := by
  refine ⟨by decide, ?_⟩
  unfold FrameInvariant
  decide

end Sys2Proof.Machine
end

section
/-! The region list under `map` and `unmap` (20_memory.md R42, R68). -/

namespace Sys2Proof.Machine

/-- A region put first answers every address in its bounds, and no other. -/
theorem resolve_cons (g : Region) (regions : List Region) (a : Word) :
    resolve (g :: regions) a =
      if g.start.toNat ≤ a.toNat ∧ a.toNat ≤ g.last.toNat then some g else resolve regions a := by
  simp only [← Region.contains_iff, resolve, List.find?_cons]
  cases g.contains a <;> rfl

/-- In a well-formed state the regions carry tokens of their own, each older than the next one. -/
theorem State.tokens_of_wf {s : State} (h : s.wf = true) :
    (s.regions.map Region.token).Nodup ∧ ∀ g ∈ s.regions, g.token < s.nextToken := by
  obtain ⟨-, hreg, -⟩ := State.wf_iff.1 h
  simp only [State.regionsWf, Bool.and_eq_true, List.all_eq_true, decide_eq_true_eq] at hreg
  exact ⟨hreg.2, fun g hg => (hreg.1 g hg).2⟩

theorem filter_token_of_forall_ne {regions : List Region} {token : Nat} (h : ∀ g ∈ regions, g.token ≠ token) :
    (regions.filter fun g => g.token != token) = regions :=
  List.filter_eq_self.2 fun g hg => by simpa using h g hg

/-- Where tokens are distinct, filtering one token out removes its region alone. -/
theorem filter_token_of_nodup {pre post : List Region} {g : Region} (h : ((pre ++ g :: post).map Region.token).Nodup) :
    ((pre ++ g :: post).filter fun p => p.token != g.token) = pre ++ post := by
  rw [List.map_append, List.map_cons] at h
  obtain ⟨-, htail, hdisjoint⟩ := List.nodup_append.1 h
  have hpre : ∀ p ∈ pre, p.token ≠ g.token := fun p hp =>
    hdisjoint _ (List.mem_map_of_mem hp) _ List.mem_cons_self
  have hpost : ∀ p ∈ post, p.token ≠ g.token := fun p hp heq =>
    (List.nodup_cons.1 htail).1 (heq ▸ List.mem_map_of_mem hp)
  rw [List.filter_append, List.filter_cons, filter_token_of_forall_ne hpre, filter_token_of_forall_ne hpost]
  simp

/-- Settles O7: the new region is the head of the list, and a token is that of one region at most. -/
theorem mapAndUnmapKeepTheOrder : Obligations.MapAndUnmapKeepTheOrder := by
  refine ⟨fun s device start last remap a => ⟨rfl, resolve_cons _ _ a⟩, fun s hs => ?_⟩
  obtain ⟨hnodup, holder⟩ := State.tokens_of_wf hs
  refine ⟨fun pre g post hsplit => ?_, fun token hnone => ?_, fun device start last remap => ?_⟩
  · rw [hsplit] at hnodup
    simp only [State.unmapRegion, hsplit, filter_token_of_nodup hnodup]
  · simp only [State.unmapRegion, filter_token_of_forall_ne hnone]
  · have hne : ∀ g ∈ s.regions, g.token ≠ s.nextToken := fun g hg => Nat.ne_of_lt (holder g hg)
    simp only [State.unmapRegion, State.mapRegion, List.filter_cons, bne_self_eq_false, Bool.false_eq_true, if_false,
      filter_token_of_forall_ne hne]

end Sys2Proof.Machine
end

section
/-! Transactions that reach a device (20_memory.md R44, R47, R53 to R57): RAM beyond its size and within it, the screen, a device
the spec does not describe, and the translation of the default platform. -/

namespace Sys2Proof.Machine

/-! ## Recorded transactions that leave every device as it was -/

/-- A transaction that changed no device leaves nothing but its event. -/
theorem State.after_of_devices {s : State} {t : Transaction} (h : t.devices = s.devices) (e : Event) :
    s.after t e = { s with events := e :: s.events } := by
  simp only [State.after, h]

/-- Where a transaction does not straddle, its target is the device of the region that answers, at the local offset. -/
theorem State.target_of_resolve {s : State} {k : Access} {a : Word} {w : Width} {g : Region}
    (h : resolve s.regions a = some g) (ha : w = .two → a ≠ g.last) : s.target k a w = .device g (g.offset a) := by
  cases w with
  | one => exact State.target_one h
  | two => exact State.target_two h (ha rfl)

/-- A read that its device refuses, and that leaves the device as it was. -/
theorem memRead_of_refused {s : State} {a o : Word} {w : Width} {g : Region} (ht : s.target .read a w = .device g o)
    (hd : (s.device g.device).read g.device o w = (none, s.device g.device)) :
    memRead a w s = .raised (.deviceRange o w)
      { s with events := ⟨.read, w, a, some g, some o, .fault (.deviceRange o w)⟩ :: s.events } := by
  have hbus : s.busRead a w = ⟨some g, some o, .fault (.deviceRange o w), s.devices⟩ := by
    simp only [State.busRead, ht, hd, State.set_device_self]
  rw [memRead_of_fault (by rw [hbus]), hbus]
  rfl

/-- A write that its device refuses, and that leaves the device as it was. -/
theorem memWrite_of_refused {s : State} {a o v : Word} {w : Width} {g : Region} (ht : s.target .write a w = .device g o)
    (hd : (s.device g.device).write g.device o w v = (false, s.device g.device)) :
    memWrite a w v s = .raised (.deviceRange o w)
      { s with events := ⟨.write, w, a, some g, some o, .fault (.deviceRange o w)⟩ :: s.events } := by
  have hbus : s.busWrite a w v = ⟨some g, some o, .fault (.deviceRange o w), s.devices⟩ := by
    simp only [State.busWrite, ht, hd, State.set_device_self]
  rw [memWrite_of_fault (by rw [hbus]), hbus]
  rfl

/-- A 16-bit read of RAM or of the screen gives its word and changes nothing but the record. -/
theorem memRead_of_wordAt {s : State} {a v : Word} (h : s.wordAt a = some v) :
    ∃ e : Event, memRead a .two s = .done v { s with events := e :: s.events } ∧ e.kind = .read ∧ e.width = .two ∧
      e.addr = a ∧ e.result = .value v := by
  obtain ⟨hresult, hdevices⟩ := State.busRead_wordAt h
  exact ⟨_, by rw [memRead_of_value hresult, State.after_of_devices hdevices], rfl, rfl, rfl, hresult⟩

/-- An 8-bit read of RAM or of the screen gives its byte and changes nothing but the record. -/
theorem memRead_of_byteAt {s : State} {a : Word} {b : Byte} (h : s.byteAt a = some b) :
    ∃ e : Event, memRead a .one s = .done (b.setWidth 16) { s with events := e :: s.events } := by
  obtain ⟨hresult, hdevices⟩ := State.busRead_byteAt h
  exact ⟨_, by rw [memRead_of_value hresult, State.after_of_devices hdevices]⟩

/-! ## RAM beyond its size -/

/-- A RAM device refuses an access whose last byte is not one of its own (20_memory.md R56). -/
def BeyondSize (w : Width) (n o : Nat) : Prop :=
  match w with
  | .one => n ≤ o
  | .two => n ≤ o + 1

theorem Device.read_ram_of_beyond {w : Width} {n : Nat} {o : Word} (h : BeyondSize w n o.toNat) (k : Nat) (b : Memory) :
    (Device.ram n b).read k o w = (none, .ram n b) := by
  cases w with
  | one => simp only [Device.read, if_pos (show o.toNat ≥ n from h)]
  | two => simp only [Device.read, if_pos (show o.toNat + 1 ≥ n from h)]

theorem Device.write_ram_of_beyond {w : Width} {n : Nat} {o : Word} (h : BeyondSize w n o.toNat) (k : Nat) (b : Memory)
    (v : Word) : (Device.ram n b).write k o w v = (false, .ram n b) := by
  cases w with
  | one => simp only [Device.write, if_pos (show o.toNat ≥ n from h)]
  | two => simp only [Device.write, if_pos (show o.toNat + 1 ≥ n from h)]

/-- Nothing changes: the frame of a state and itself. -/
theorem RegFrame.refl (s : State) : RegFrame [] s s :=
  ⟨fun _ _ => rfl, rfl, rfl, ⟨rfl, rfl, rfl⟩, rfl, fun _ _ _ => rfl, rfl⟩

/-- Both directions of an access beyond the device's size fault, with nothing changed but the record. -/
theorem ram_access_of_beyond {s : State} {a : Word} {w : Width} {g : Region} {n : Nat} {b : Memory}
    (hr : resolve s.regions a = some g) (ha : w = .two → a ≠ g.last) (hd : s.device g.device = .ram n b)
    (hbeyond : BeyondSize w n (g.offset a).toNat) :
    (∃ t, memRead a w s = .raised (.deviceRange (g.offset a) w) t ∧ RegFrame [] s { t with events := s.events }) ∧
      ∀ v, ∃ t, memWrite a w v s = .raised (.deviceRange (g.offset a) w) t ∧ RegFrame [] s { t with events := s.events } := by
  refine ⟨⟨_, memRead_of_refused (State.target_of_resolve hr ha) ?_, RegFrame.refl s⟩, fun v =>
    ⟨_, memWrite_of_refused (State.target_of_resolve hr ha) ?_, RegFrame.refl s⟩⟩
  · rw [hd, Device.read_ram_of_beyond hbeyond]
  · rw [hd, Device.write_ram_of_beyond hbeyond]

/-- Settles O10: the device refuses the access and stays as it was. -/
theorem ramAccessBeyondItsSizeFaults : Obligations.RamAccessBeyondItsSizeFaults := fun _ _ _ _ _ hr hd =>
  ⟨fun hn => ram_access_of_beyond (w := .one) hr nofun hd hn,
    fun ha hn => ram_access_of_beyond (w := .two) hr (fun _ => ha) hd hn⟩

/-! ## RAM within its size -/

theorem State.wordAt_of_ramWord {s : State} {a : Word} {h o : Nat} (hp : s.ramWord a = some (h, o)) :
    s.wordAt a = some (wordOfBytes (s.ramByte h o) (s.ramByte h (o + 1))) := by
  simp only [State.wordAt, hp]

theorem State.wordAt_isSome_of_ramWord {s : State} {a : Word} (hp : (s.ramWord a).isSome) : (s.wordAt a).isSome := by
  obtain ⟨⟨h, o⟩, hp⟩ := Option.isSome_iff_exists.1 hp
  rw [State.wordAt_of_ramWord hp]
  rfl

/-- Settles O11: a word in RAM is its two bytes, the high one first. -/
theorem ramReadIsBigEndian : Obligations.RamReadIsBigEndian := by
  intro s a h o hp
  obtain ⟨e, hread, hkind, hwidth, haddr, hresult⟩ := memRead_of_wordAt (State.wordAt_of_ramWord hp)
  exact ⟨_, hread, e, rfl, hkind, hwidth, haddr, hresult⟩

/-- A 16-bit write of a word in RAM or the screen completes, and changes no more than the devices and the record. -/
theorem memWrite_of_wordAt {s : State} {a : Word} (h : (s.wordAt a).isSome) (v : Word) :
    memWrite a .two v s =
      .done v (s.after (s.busWrite a .two v) ((s.busWrite a .two v).event .write .two a)) :=
  memWrite_of_value (State.busWrite_wordAt h v)

/-- Settles O12: the write completes, its two places hold the two bytes, and no other place was stored to. -/
theorem ramWriteStoresTwoBytes : Obligations.RamWriteStoresTwoBytes := by
  intro s a v h o hs hp
  obtain ⟨hdev, -, -⟩ := State.wf_iff.1 hs
  have hsome := State.wordAt_isSome_of_ramWord (Option.isSome_of_eq_some hp)
  obtain ⟨hhi, hlo⟩ := State.ramByte_stored hdev hp (t := s.after (s.busWrite a .two v) _) rfl
  refine ⟨_, memWrite_of_wordAt hsome v, hhi, hlo, fun k q hq => ?_, fun _ _ => rfl, rfl, rfl, rfl, rfl, rfl⟩
  exact State.ramByte_after_write (s := s) (v := v) rfl (by rwa [State.storedPlaces_ram hp])

/-- The next address of a region has the next offset: neither wraps before the region's last address. -/
theorem Region.offset_add_one {g : Region} {a : Word} (h : g.contains a = true) (ha : a ≠ g.last) :
    (g.offset (a + 1)).toNat = (g.offset a).toNat + 1 := by
  have hbounds := g.contains_iff a |>.1 h
  have hlast : a.toNat ≠ g.last.toNat := fun heq => ha (BitVec.eq_of_toNat_eq heq)
  unfold Region.offset
  split <;> bv_omega

theorem State.byteAt_of_ram {s : State} {a : Word} {g : Region} {n : Nat} {b : Memory} (hr : resolve s.regions a = some g)
    (hd : s.device g.device = .ram n b) (hn : (g.offset a).toNat < n) :
    s.byteAt a = some (s.ramByte g.device (g.offset a).toNat) := by
  simp only [State.byteAt, hr, hd, if_pos hn, State.ramByte]

/-- The two bytes of a word in RAM, as 8-bit reads of its address and the next see them (20_memory.md R54). -/
theorem State.byteAt_of_ramWord {s : State} {a : Word} {h o : Nat} (hp : s.ramWord a = some (h, o))
    (hnext : resolve s.regions (a + 1) = resolve s.regions a) :
    s.byteAt a = some (s.ramByte h o) ∧ s.byteAt (a + 1) = some (s.ramByte h (o + 1)) := by
  obtain ⟨g, n, b, hr, ha, hd, hn, rfl, rfl⟩ := State.ramWord_iff.1 hp
  have hoffset := Region.offset_add_one (resolve_eq_some_iff.1 hr).1 ha
  refine ⟨State.byteAt_of_ram hr hd (by omega), ?_⟩
  rw [State.byteAt_of_ram (hnext.trans hr) hd (by omega), hoffset]

/-- Settles O13: the write leaves the region list and the shape of the devices, and its two bytes stand in the same device. -/
theorem mixedWidthsOnRam : Obligations.MixedWidthsOnRam := by
  intro s a v hs hsome hnext
  have hword := State.wordAt_isSome_of_ramWord hsome
  obtain ⟨⟨h, o⟩, hp⟩ := Option.isSome_iff_exists.1 hsome
  obtain ⟨t, hwrite, hregions, hdevices⟩ : ∃ t, memWrite a .two v s = .done v t ∧ t.regions = s.regions ∧
      t.devices = (s.busWrite a .two v).devices := ⟨_, memWrite_of_wordAt hword v, rfl, rfl⟩
  have hp' : t.ramWord a = some (h, o) := ((SameShape.of_write hword hregions hdevices).ramWord a).trans hp
  obtain ⟨hhi, hlo⟩ := State.ramByte_stored (State.wf_iff.1 hs).1 hp hdevices
  obtain ⟨hbyte, hbyte'⟩ := State.byteAt_of_ramWord hp' (by rwa [hregions])
  rw [hhi] at hbyte
  rw [hlo] at hbyte'
  obtain ⟨e1, h1⟩ := memRead_of_byteAt hbyte
  obtain ⟨e2, h2⟩ := memRead_of_byteAt hbyte'
  exact ⟨_, _, _, hwrite, h1, h2⟩

/-! ## The screen -/

theorem State.wordAt_of_screenWord {s : State} {a o : Word} (h : s.screenWord a = some o) : s.wordAt a = some 0 := by
  cases hp : s.ramWord a with
  | none => simp only [State.wordAt, hp, h]
  | some p =>
    obtain ⟨g, n, b, hr, -, hd, -⟩ := State.ramWord_iff.1 hp
    obtain ⟨g', hr', -, hd', -⟩ := State.screenWord_iff.1 h
    obtain rfl := Option.some.inj (hr.symm.trans hr')
    rw [hd] at hd'
    cases hd'

/-- The ordered record of screen writes after one more event of the same devices. -/
theorem State.screenWrites_cons (s : State) (e : Event) :
    ({ s with events := e :: s.events } : State).screenWrites = s.screenWrites ++ (s.screenWriteOf e).toList := by
  have hof : ({ s with events := e :: s.events } : State).screenWriteOf = s.screenWriteOf := rfl
  simp only [State.screenWrites, hof, State.trace, List.reverse_cons, List.filterMap_append]
  cases h : s.screenWriteOf e <;> simp [h]

/-- Settles O14: the screen's word reads 0, and the event of a 16-bit write to it is a screen write. -/
theorem screenReadsZeroAndRecordsWrites : Obligations.ScreenReadsZeroAndRecordsWrites := by
  intro s a o h
  have hzero := State.wordAt_of_screenWord h
  obtain ⟨e, hread, -⟩ := memRead_of_wordAt hzero
  obtain ⟨g, hr, ha, hd, rfl⟩ := State.screenWord_iff.1 h
  refine ⟨⟨e, hread⟩, fun v => ⟨⟨.write, .two, a, some g, some (g.offset a), .value v⟩, ?_, ?_⟩⟩
  · rw [memWrite_of_wordAt (by rw [hzero]; rfl), State.busWrite_screen hr ha hd]
    rfl
  · rw [State.screenWrites_cons]
    simp [State.screenWriteOf, hd, Device.isScreen]

/-! ## A device the spec does not describe -/

theorem Width.toNat_data_one (v : Word) : (Width.data .one v).toNat = v.toNat % 256 := by
  simp [loByte, BitVec.toNat_setWidth]
  omega

/-- What such a device answers to a read (40_engine.md R90). -/
theorem Device.read_external (k : Nat) (hist : List DeviceOp) (o : Word) (w : Width) :
    (Device.external hist).read k o w =
      ((Config.deviceRead k hist o w).map (Width.data w), .external (.read o w :: hist)) := by
  cases w <;> rfl

/-- Whether such a device accepts a write, of which it is handed the data of the width. -/
theorem Device.write_external (k : Nat) (hist : List DeviceOp) (o : Word) (w : Width) (v : Word) :
    (Device.external hist).write k o w v =
      (Config.deviceWrite k hist o w (w.data v), .external (.write o w (w.data v) :: hist)) := by
  cases w <;> rfl

/-- Settles O15: the transaction ends as the device's answer says, with the operation in the device's history. -/
theorem externalDeviceAnswersForItself : Obligations.ExternalDeviceAnswersForItself := by
  refine ⟨fun v => ⟨Width.toNat_data_one v, rfl⟩, fun s a w g hist hr ha hd => ⟨?_, fun v => ?_⟩⟩
  · cases hread : Config.deviceRead g.device hist (g.offset a) w <;>
      exact ⟨_, by simp only [memRead, State.busRead, State.target_of_resolve hr ha, hd, Device.read_external, hread]; rfl⟩
  · cases hwrite : Config.deviceWrite g.device hist (g.offset a) w (w.data v) <;>
      exact ⟨_, by simp only [memWrite, State.busWrite, State.target_of_resolve hr ha, hd, Device.write_external, hwrite]; rfl⟩

/-! ## Translation and the default platform -/

theorem Region.toNat_offset (g : Region) (a : Word) :
    (g.offset a).toNat = if g.remap then (a.toNat + 65536 - g.start.toNat) % 65536 else a.toNat := by
  unfold Region.offset
  split <;> bv_omega

/-- At reset the screen answers its own bounds, and RAM every other address (20_memory.md R61). -/
theorem resolve_reset (a : Word) : resolve State.reset.regions a =
    if 0x3000 ≤ a.toNat ∧ a.toNat ≤ 0x30FF then some ⟨1, 1, 0x3000, 0x30FF, true⟩
    else some ⟨0, 0, 0x0000, 0xFFFF, true⟩ := by
  have hram : resolve [⟨0, 0, 0x0000, 0xFFFF, true⟩] a = some ⟨0, 0, 0x0000, 0xFFFF, true⟩ :=
    (resolve_cons _ _ a).trans (if_pos ⟨Nat.zero_le _, Nat.le_of_lt_succ a.isLt⟩)
  exact (resolve_cons _ _ a).trans (by rw [hram]; rfl)

/-- Settles O16: the offset's two cases, the target of a transaction that does not straddle, and the two regions of reset. -/
theorem translationAndDefaultPlatform : Obligations.TranslationAndDefaultPlatform := by
  refine ⟨Region.toNat_offset, fun s a w g hr ha => ⟨?_, fun v => ?_⟩, fun a => ?_⟩
  · exact (State.busRead_of_target (State.target_of_resolve hr ha)).2.1
  · exact (State.busWrite_of_target (State.target_of_resolve hr ha)).2.1
  · by_cases hbounds : 0x3000 ≤ a.toNat ∧ a.toNat ≤ 0x30FF
    · have hoffset : (Region.offset ⟨1, 1, 0x3000, 0x30FF, true⟩ a).toNat = (a.toNat + 65536 - 0x3000) % 65536 := by
        simp [Region.toNat_offset]
      exact ⟨_, (resolve_reset a).trans (if_pos hbounds), by rw [if_pos hbounds]; rfl, by rw [if_pos hbounds]; omega⟩
    · have hoffset : (Region.offset ⟨0, 0, 0x0000, 0xFFFF, true⟩ a).toNat = (a.toNat + 65536 - 0) % 65536 := by
        simp [Region.toNat_offset]
      exact ⟨_, (resolve_reset a).trans (if_neg hbounds), by rw [if_neg hbounds]; rfl, by rw [if_neg hbounds]; omega⟩

end Sys2Proof.Machine
end

section
/-! The memory dump (20_memory.md R71). -/

namespace Sys2Proof.Machine

/-- What a dump answers after its first byte. -/
def consAnswer (b : Byte) : Answer (List Byte) × State → Answer (List Byte) × State
  | (.ok bs, s) => (.ok (b :: bs), s)
  | (.error f, s) => (.error f, s)

/-- One read of the dump that completes: the rest of the dump follows it. -/
theorem memoryDump_of_value {s : State} {a v : Word} (h : (s.busRead a .one).result = .value v) (n : Nat) :
    memoryDump (n + 1) a s =
      consAnswer (loByte v) (memoryDump n (a + 1) { s with devices := (s.busRead a .one).devices }) := by
  rw [memoryDump, h]
  obtain ⟨ans, s1⟩ := memoryDump n (a + 1) { s with devices := (s.busRead a .one).devices }
  cases ans <;> rfl

/-- One read of the dump that faults: its error is the answer (60_exceptions.md R197). -/
theorem memoryDump_of_fault {s : State} {a : Word} {f : FaultInfo} (h : (s.busRead a .one).result = .fault f) (n : Nat) :
    memoryDump (n + 1) a s = (.error f, { s with devices := (s.busRead a .one).devices }) := by
  rw [memoryDump, h]

/-- A byte in RAM or the screen is dumped as it stands, and the rest of the dump reads the same state. -/
theorem memoryDump_of_byteAt {s : State} {a : Word} {b : Byte} (h : s.byteAt a = some b) (n : Nat) :
    memoryDump (n + 1) a s = consAnswer b (memoryDump n (a + 1) s) := by
  obtain ⟨hresult, hdevices⟩ := State.busRead_byteAt h
  rw [memoryDump_of_value hresult, hdevices, loByte_setWidth]

theorem add_ofNat_succ (a : Word) (k : Nat) : a + BitVec.ofNat 16 (k + 1) = a + 1 + BitVec.ofNat 16 k := by
  rw [Nat.add_comm k 1, BitVec.ofNat_add, ← BitVec.add_assoc]
  rfl

/-- Bytes in RAM or the screen are dumped in order. -/
theorem memoryDump_of_bytes {s : State} (bs : List Byte) (a : Word)
    (h : ∀ k, k < bs.length → s.byteAt (a + BitVec.ofNat 16 k) = bs[k]?) : memoryDump bs.length a s = (.ok bs, s) := by
  induction bs generalizing a with
  | nil => rfl
  | cons b bs ih =>
    have hfirst : s.byteAt a = some b := by simpa using h 0 (Nat.succ_pos _)
    have hrest := ih (a + 1) fun k hk => by
      rw [← add_ofNat_succ, h (k + 1) (Nat.succ_lt_succ hk), List.getElem?_cons_succ]
    rw [List.length_cons, memoryDump_of_byteAt hfirst, hrest]
    rfl

/-- A dump whose read faults after bytes in RAM or the screen answers that error. -/
theorem memoryDump_error {s : State} {n k : Nat} {a : Word} {f : FaultInfo} (hk : k < n)
    (hbytes : ∀ j, j < k → (s.byteAt (a + BitVec.ofNat 16 j)).isSome)
    (hf : (s.busRead (a + BitVec.ofNat 16 k) .one).result = .fault f) : (memoryDump n a s).1 = .error f := by
  induction k generalizing n a with
  | zero =>
    obtain ⟨n, rfl⟩ : ∃ m, n = m + 1 := ⟨n - 1, by omega⟩
    rw [memoryDump_of_fault (by simpa using hf)]
  | succ k ih =>
    obtain ⟨n, rfl⟩ : ∃ m, n = m + 1 := ⟨n - 1, by omega⟩
    obtain ⟨b, hb⟩ := Option.isSome_iff_exists.1 (hbytes 0 (Nat.succ_pos _))
    have hrest := ih (n := n) (a := a + 1) (by omega)
      (fun j hj => by rw [← add_ofNat_succ]; exact hbytes (j + 1) (by omega)) (by rw [← add_ofNat_succ]; exact hf)
    rw [memoryDump_of_byteAt (by simpa using hb)]
    generalize memoryDump n (a + 1) s = p at hrest
    obtain ⟨ans, s1⟩ := p
    subst hrest
    rfl

/-- A dump leaves everything but the devices as it was. -/
theorem memoryDump_state (n : Nat) (a : Word) (s : State) : ∃ ds, (memoryDump n a s).2 = { s with devices := ds } := by
  induction n generalizing a s with
  | zero => exact ⟨s.devices, rfl⟩
  | succ n ih =>
    cases h : (s.busRead a .one).result with
    | fault f => exact ⟨_, by rw [memoryDump_of_fault h]⟩
    | value v =>
      obtain ⟨ds, hds⟩ := ih (a + 1) { s with devices := (s.busRead a .one).devices }
      refine ⟨ds, ?_⟩
      rw [memoryDump_of_value h]
      generalize memoryDump n (a + 1) { s with devices := (s.busRead a .one).devices } = p at hds
      obtain ⟨ans, s1⟩ := p
      cases ans <;> exact hds

/-- Settles O59: the dump is taken apart read by read; only a read of a device spec/ does not describe changes anything. -/
theorem memoryDumpReadsAndChangesNothing : Obligations.MemoryDumpReadsAndChangesNothing := by
  refine ⟨?_, fun n k a s f hk hbytes hf => memoryDump_error hk hbytes hf, fun n a s => ?_⟩
  · rintro _ a s bs rfl hbytes
    exact memoryDump_of_bytes bs a hbytes
  · obtain ⟨ds, hds⟩ := memoryDump_state n a s
    rw [hds]
    exact ⟨fun _ _ => rfl, rfl, rfl, rfl, rfl, rfl, rfl⟩

end Sys2Proof.Machine
end

section
/-! The execute phase of the instructions that make no transaction (41_move.md to 44_branch.md, 47_halt.md): each is one register
write, or a branch. -/

namespace Sys2Proof.Machine

/-- An instruction that is one register write: what holds of the value written holds of the register. -/
theorem exec_of_setX {i : Instr} {s : State} {r : Reg} {v : Word} {P : Word → Prop} (h : exec i s = .next (s.setX r v))
    (hv : P v) : ∃ t, exec i s = .next t ∧ P (t.x r) ∧ RegFrame [r] s t :=
  ⟨_, h, by rwa [s.x_setX_same], setX_frame s r v⟩

/-- Settles O25: both moves are one register write. -/
theorem registerMovesWriteTheirDestination : Obligations.RegisterMovesWriteTheirDestination := fun s _ =>
  ⟨fun lit => exec_of_setX (P := (· = lit)) rfl rfl, fun rs => exec_of_setX (P := (· = s.x rs)) rfl rfl⟩

/-! ## Arithmetic -/

/-- Settles O30: each instruction writes `wrap16` of its exact result into `ac`. -/
theorem arithmeticGoesIntoAcModulo65536 : Obligations.ArithmeticGoesIntoAcModulo65536 := by
  intro s i n h
  suffices hexec : exec i s = .next (s.setX .ac (wrap16 n)) from
    exec_of_setX (P := fun v => (v.toNat : Int) = n % 65536) hexec (toNat_wrap16 n)
  rcases h with ⟨ra, rb, rfl, rfl⟩ | ⟨lit, ra, rfl, rfl⟩ | ⟨lit, ra, rfl, rfl⟩ | ⟨ra, lit, rfl, rfl⟩ |
    ⟨ra, rb, rfl, rfl⟩ | ⟨lit, ra, rfl, rfl⟩ | ⟨ra, rb, rfl, rfl⟩ <;> rfl

theorem toNat_aluAdd (a b : Word) : (aluAdd a b).toNat = (a.toNat + b.toNat) % 65536 :=
  toNat_wrap16_nat _

theorem toNat_aluSub (a b : Word) : (aluSub a b).toNat = (a.toNat + (65536 - b.toNat)) % 65536 := by
  have h := toNat_wrap16 (a.toNat - b.toNat)
  rw [← aluSub] at h
  omega

/-- Settles O31: each is one write of its own register. -/
theorem incrementAndDecrementInPlace : Obligations.IncrementAndDecrementInPlace := fun s ra =>
  ⟨exec_of_setX (P := fun v => v.toNat = ((s.x ra).toNat + 1) % 65536) rfl (toNat_aluAdd _ 1),
    exec_of_setX (P := fun v => v.toNat = ((s.x ra).toNat + 65535) % 65536) rfl (toNat_aluSub _ 1)⟩

/-! ## Shifts -/

theorem exec_lsf {s : State} {ra : Reg} {n : Word} {i : Instr}
    (h : i = .lsfRegLit ra n ∨ ∃ rb, i = .lsfRegReg ra rb ∧ n = s.x rb) :
    exec i s = .next (s.setX ra (aluShl s.params.shiftWide (s.x ra) n)) := by
  rcases h with rfl | ⟨rb, rfl, rfl⟩ <;> rfl

theorem exec_rsf {s : State} {ra : Reg} {n : Word} {i : Instr}
    (h : i = .rsfRegLit ra n ∨ ∃ rb, i = .rsfRegReg ra rb ∧ n = s.x rb) :
    exec i s = .next (s.setX ra (aluShr s.params.shiftWide (s.x ra) n)) := by
  rcases h with rfl | ⟨rb, rfl, rfl⟩ <;> rfl

theorem toNat_aluShl_of_lt (p : ShiftWide) (v : Word) {n : Word} (h : n.toNat < 16) :
    (aluShl p v n).toNat = v.toNat * 2 ^ n.toNat % 65536 := by
  rw [aluShl, if_pos h, toNat_wrap16_nat]

/-- A quotient of a word is no larger than the word, so nothing is lost by narrowing it. -/
theorem toNat_wrap16_div (v : Word) (k : Nat) : (wrap16 (v.toNat / k : Nat)).toNat = v.toNat / k := by
  rw [toNat_wrap16_nat]
  exact Nat.mod_eq_of_lt (Nat.lt_of_le_of_lt (Nat.div_le_self _ _) v.isLt)

theorem toNat_aluShr_of_lt (p : ShiftWide) (v : Word) {n : Word} (h : n.toNat < 16) :
    (aluShr p v n).toNat = v.toNat / 2 ^ n.toNat := by
  rw [aluShr, if_pos h, toNat_wrap16_div]

theorem aluShl_of_wide (p : ShiftWide) (v : Word) {n : Word} (h : 16 ≤ n.toNat) : aluShl p v n = shiftWide p .left v n :=
  if_neg (Nat.not_lt.2 h)

theorem aluShr_of_wide (p : ShiftWide) (v : Word) {n : Word} (h : 16 ≤ n.toNat) : aluShr p v n = shiftWide p .right v n :=
  if_neg (Nat.not_lt.2 h)

/-- Settles O32: each shift is one write of its own register. -/
theorem shiftsBelowSixteenAreExact : Obligations.ShiftsBelowSixteenAreExact := fun s ra n hn =>
  ⟨fun _ hi => exec_of_setX (P := fun v => v.toNat = (s.x ra).toNat * 2 ^ n.toNat % 65536) (exec_lsf hi)
      (toNat_aluShl_of_lt _ _ hn),
    fun _ hi => exec_of_setX (P := fun v => v.toNat = (s.x ra).toNat / 2 ^ n.toNat) (exec_rsf hi)
      (toNat_aluShr_of_lt _ _ hn)⟩

/-- Settles O33: the value written is the parameter's, one equation for each choice of it. -/
theorem wideShiftsFollowTheParameter : Obligations.WideShiftsFollowTheParameter := by
  refine fun s ra n hn => ⟨fun i hi => ⟨_, exec_lsf hi, setX_frame s ra _, ?_⟩,
    fun i hi => ⟨_, exec_rsf hi, setX_frame s ra _, ?_⟩⟩
  · rw [State.x_setX_same, aluShl_of_wide _ _ hn]
    refine ⟨fun h => ?_, fun h => ?_, fun k h => ?_⟩ <;> rw [h]
    · exact toNat_wrap16_nat _
    · rfl
    · rfl
  · rw [State.x_setX_same, aluShr_of_wide _ _ hn]
    refine ⟨fun h => ?_, fun h => ?_, fun k h => ?_⟩ <;> rw [h]
    · exact toNat_wrap16_div _ _
    · rfl
    · rfl

/-! ## Logic -/

theorem aluNot_eq_not (v : Word) : aluNot v = ~~~v := by
  unfold aluNot
  bv_omega

/-- Settles O34: each instruction writes its bitwise result into `ac`. -/
theorem logicGoesIntoAcBitByBit : Obligations.LogicGoesIntoAcBitByBit := by
  intro s i f ra a b h
  suffices hexec : ∃ v : Word, exec i s = .next (s.setX .ac v) ∧
      ∀ k, k < 16 → v.getLsbD k = f (a.getLsbD k) (b.getLsbD k) by
    obtain ⟨v, hv, hbits⟩ := hexec
    exact exec_of_setX (P := fun v => ∀ k, k < 16 → v.getLsbD k = f (a.getLsbD k) (b.getLsbD k)) hv hbits
  rcases h with ⟨hi, rfl, rfl⟩ | ⟨hi, rfl, rfl⟩ | ⟨hi, rfl, rfl⟩ | ⟨rfl, rfl, rfl⟩
  · exact ⟨aluAnd (s.x ra) b, by rcases hi with rfl | ⟨rb, rfl, rfl⟩ <;> rfl, fun k _ => BitVec.getLsbD_and⟩
  · exact ⟨aluOr (s.x ra) b, by rcases hi with rfl | ⟨rb, rfl, rfl⟩ <;> rfl, fun k _ => BitVec.getLsbD_or⟩
  · exact ⟨aluXor (s.x ra) b, by rcases hi with rfl | ⟨rb, rfl, rfl⟩ <;> rfl, fun k _ => BitVec.getLsbD_xor⟩
  · exact ⟨aluNot (s.x ra), rfl, fun k hk => by simp [aluNot_eq_not, hk]⟩

/-! ## Branches -/

/-- An instruction that is a branch jumps exactly when its relation holds. -/
theorem exec_of_branch {i : Instr} {s : State} {rel : Rel} {v : Source} {adr : Word} {taken : Prop}
    (h : exec i s = .next (branch rel v adr s)) (htaken : taken ↔ rel.holds (v.value s) (s.x .ac) = true) :
    ∃ t, exec i s = .next t ∧ (taken → t.x .ip = adr) ∧ (¬ taken → t.x .ip = s.x .ip) ∧ RegFrame [.ip] s t := by
  obtain ⟨hip, hframe⟩ := branch_spec rel v adr s
  refine ⟨_, h, fun ht => ?_, fun hnt => ?_, hframe⟩
  · rw [hip, if_pos (htaken.1 ht)]
  · rw [hip, if_neg fun hrel => hnt (htaken.2 hrel)]

/-- Settles O35: each instruction is the branch of its relation on the literal. -/
theorem literalBranchesCompareWithAc : Obligations.LiteralBranchesCompareWithAc := by
  intro s i lit adr taken h
  rcases h with ⟨rfl, h⟩ | ⟨rfl, h⟩ | ⟨rfl, h⟩ | ⟨rfl, h⟩ | ⟨rfl, h⟩ | ⟨rfl, h⟩
  · exact exec_of_branch rfl (h.trans (Rel.holds_iff .ne _ _).symm)
  · exact exec_of_branch rfl (h.trans (Rel.holds_iff .eq _ _).symm)
  · exact exec_of_branch rfl (h.trans (Rel.holds_iff .lt _ _).symm)
  · exact exec_of_branch rfl (h.trans (Rel.holds_iff .gt _ _).symm)
  · exact exec_of_branch rfl (h.trans (Rel.holds_iff .le _ _).symm)
  · exact exec_of_branch rfl (h.trans (Rel.holds_iff .ge _ _).symm)

/-- Settles O36: each instruction is the branch of its relation on the register's value. -/
theorem registerBranchesCompareWithAc : Obligations.RegisterBranchesCompareWithAc := by
  intro s i ra adr taken h
  rcases h with ⟨rfl, h⟩ | ⟨rfl, h⟩ | ⟨rfl, h⟩ | ⟨rfl, h⟩ | ⟨rfl, h⟩ | ⟨rfl, h⟩
  · exact exec_of_branch rfl (h.trans (Rel.holds_iff .ne _ _).symm)
  · exact exec_of_branch rfl (h.trans (Rel.holds_iff .eq _ _).symm)
  · exact exec_of_branch rfl (h.trans (Rel.holds_iff .lt _ _).symm)
  · exact exec_of_branch rfl (h.trans (Rel.holds_iff .gt _ _).symm)
  · exact exec_of_branch rfl (h.trans (Rel.holds_iff .le _ _).symm)
  · exact exec_of_branch rfl (h.trans (Rel.holds_iff .ge _ _).symm)

/-! ## Halt -/

/-- Settles O48: halting is one write of the status. -/
theorem haltLatchesHalted : Obligations.HaltLatchesHalted := fun _ =>
  ⟨_, rfl, rfl, fun _ _ => rfl, rfl, ⟨rfl, rfl, rfl⟩, rfl, fun _ _ _ => rfl, rfl⟩

end Sys2Proof.Machine
end

section
/-! The engine (40_engine.md): the decode phase, its faults, the fall-through, a latched core and the run. -/

namespace Sys2Proof.Machine

/-! ## The decode phase of known bytes -/

/-- The decode phase where the opcode byte is assigned and its fields are fetched (40_engine.md R94). -/
theorem fetchInstr_of_fields {s s1 s2 : State} {b : Byte} {o : Op} {vs : List FieldValue} {i : Instr}
    (h8 : fetch8 s = .done b s1) (ha : s1.params.opcodeMap.assigned b = some o)
    (hfs : fetchFields o.format.fields s1 = .done vs s2) (hi : Instr.build o vs = some i) :
    fetchInstr s = .done i s2 := by
  simp only [fetchInstr, h8, Result.done_andThen, ha, hfs, hi]

/-- Bytes that stand at `ip` and decode to an instruction are fetched as it, by one read for the opcode and one for each field. -/
theorem fetchInstr_of_codeAtIp {s : State} {i : Instr} {b : Byte} {bs : List Byte} (hcode : s.codeAtIp i.op b bs)
    (hdecode : decode s.params.opcodeMap (b :: bs) = .instr i []) :
    ∃ evs : List Event, fetchInstr s = .done i (s.fetched i.length evs) ∧ evs.length = 1 + i.op.format.fields.length ∧
      ∀ e ∈ evs, e.kind = .read := by
  obtain ⟨hbyte, hfields⟩ := hcode
  obtain ⟨_, _, vs, heq, ha, hparse, hbuild⟩ := decode_eq_instr hdecode
  cases heq
  obtain ⟨e, hfetch, hread⟩ := fetch8_byteAt (s := s) (n := 0) (evs := []) (by simpa using hbyte)
  rw [State.fetched_zero] at hfetch
  obtain ⟨us, more, hparse', hmore, hlen, hreads⟩ := fetchFields_fieldsAt (s := s) (n := 1) (evs := [e]) hfields
  rw [hparse] at hparse'
  cases hparse'
  refine ⟨more ++ [e], fetchInstr_of_fields hfetch ha hmore hbuild, by simp [hlen]; omega, ?_⟩
  simpa [or_imp, forall_and, hread] using hreads

/-- A running core executes the instruction it fetched (40_engine.md R95). -/
theorem step_of_fetchInstr_done {s s1 : State} {i : Instr} (hs : s.status = .running) (h : fetchInstr s = .done i s1) :
    step s = exec i s1 := by
  simp only [step, hs, h]

/-- Settles O19: the decode phase leaves `ip` at the next instruction and the fetches recorded, and `exec` follows. -/
theorem stepRunsTheDecodedInstruction : Obligations.StepRunsTheDecodedInstruction := by
  intro s i b bs hs hcode hdecode
  obtain ⟨evs, hfetch, hlen, hreads⟩ := fetchInstr_of_codeAtIp hcode hdecode
  exact ⟨evs, step_of_fetchInstr_done hs hfetch, hlen, hreads⟩

/-! ## What the decode phase leaves unchanged -/

/-- The state a part of an instruction leaves, done or with a fault raised. -/
def Result.state {α : Type} : Result α → State
  | .done _ s => s
  | .raised _ s => s

/-- Nothing but `ip`, the histories of devices spec/ does not describe, and the record has changed. -/
structure OnlyIp (s t : State) : Prop where
  regs : SameRegs [.ip] s t
  counter : t.counter = s.counter
  platform : SamePlatform s t
  bytes : SameBytes [] s t

theorem OnlyIp.refl (s : State) : OnlyIp s s := ⟨fun _ _ => rfl, rfl, ⟨rfl, rfl, rfl⟩, fun _ _ _ => rfl⟩

theorem SamePlatform.trans {s t u : State} (h1 : SamePlatform s t) (h2 : SamePlatform t u) : SamePlatform s u :=
  ⟨h2.1.trans h1.1, h2.2.1.trans h1.2.1, h2.2.2.trans h1.2.2⟩

theorem OnlyIp.trans {s t u : State} (h1 : OnlyIp s t) (h2 : OnlyIp t u) : OnlyIp s u :=
  ⟨fun r hr => (h2.regs r hr).trans (h1.regs r hr), h2.counter.trans h1.counter, h1.platform.trans h2.platform,
    fun k o hk => (h2.bytes k o hk).trans (h1.bytes k o hk)⟩

theorem OnlyIp.andThen {α β : Type} {s : State} {r : Result α} {k : α → State → Result β} (hr : OnlyIp s r.state)
    (hk : ∀ a t, OnlyIp t (k a t).state) : OnlyIp s (r.andThen k).state := by
  cases r with
  | done a t => exact hr.trans (hk a t)
  | raised f t => exact hr

theorem onlyIp_setX (s : State) (v : Word) : OnlyIp s (s.setX .ip v) :=
  ⟨fun _ hr => s.x_setX_ne v (List.ne_of_not_mem_cons hr), rfl, ⟨rfl, rfl, rfl⟩, fun _ _ _ => rfl⟩

/-- A read leaves its recorded transaction, however it ends. -/
theorem memRead_state (a : Word) (w : Width) (s : State) :
    (memRead a w s).state = s.after (s.busRead a w) ((s.busRead a w).event .read w a) := by
  rcases memRead_cases a w s with ⟨v, -, h⟩ | ⟨f, -, h⟩ <;> rw [h] <;> rfl

theorem memRead_onlyIp (a : Word) (w : Width) (s : State) : OnlyIp s (memRead a w s).state := by
  rw [memRead_state]
  exact ⟨fun _ _ => rfl, rfl, ⟨rfl, rfl, rfl⟩, fun k o _ => State.ramByte_after_read (s := s) rfl k o⟩

theorem fetch8_onlyIp (s : State) : OnlyIp s (fetch8 s).state :=
  (memRead_onlyIp _ _ s).andThen fun _ t => onlyIp_setX t _

theorem fetch16_onlyIp (s : State) : OnlyIp s (fetch16 s).state :=
  (memRead_onlyIp _ _ s).andThen fun _ t => onlyIp_setX t _

theorem fetchField_onlyIp (k : FieldKind) (s : State) : OnlyIp s (fetchField k s).state := by
  cases k with
  | register => exact OnlyIp.andThen ((fetch8_onlyIp s).andThen fun _ t => .refl t) fun _ t => .refl t
  | literal | address => exact (fetch16_onlyIp s).andThen fun _ t => .refl t

theorem fetchFields_onlyIp (ks : List FieldKind) (s : State) : OnlyIp s (fetchFields ks s).state := by
  induction ks generalizing s with
  | nil => exact .refl s
  | cons k ks ih => exact (fetchField_onlyIp k s).andThen fun _ t => (ih t).andThen fun _ u => .refl u

theorem fetchInstr_onlyIp (s : State) : OnlyIp s (fetchInstr s).state := by
  refine (fetch8_onlyIp s).andThen fun b t => ?_
  cases t.params.opcodeMap.assigned b with
  | none => exact .refl t
  | some o =>
    refine (fetchFields_onlyIp o.format.fields t).andThen fun vs u => ?_
    cases Instr.build o vs <;> exact .refl u

/-! ## Where the decode phase faults -/

/-- Where the opcode byte is assigned, a fault of the decode phase is one of a field's fetch. -/
theorem fetchFields_of_fetchInstr_raised {s s1 t : State} {b : Byte} {o : Op} {f : FaultInfo} (h8 : fetch8 s = .done b s1)
    (ha : s1.params.opcodeMap.assigned b = some o) (h : fetchInstr s = .raised f t) :
    fetchFields o.format.fields s1 = .raised f t := by
  cases hfs : fetchFields o.format.fields s1 with
  | done vs s2 =>
    obtain ⟨i, hi, -⟩ := Instr.build_isSome (fetchFields_ip hfs).2
    rw [fetchInstr_of_fields h8 ha hfs hi] at h
    cases h
  | raised g u =>
    simp only [fetchInstr, h8, Result.done_andThen, ha, hfs, Result.raised_andThen] at h
    cases h
    rfl

/-- Settles O21: nothing but `ip` is written by a fetch, and the fault is that of the opcode fetch, of the choice of the
instruction, or of the fetch of one field. -/
theorem decodePhaseFaultChangesOnlyIp : Obligations.DecodePhaseFaultChangesOnlyIp := by
  intro s f s1 hs hraised
  have honly := fetchInstr_onlyIp s
  rw [hraised] at honly
  refine ⟨_, step_of_fetchInstr_raised hs hraised, rfl, honly.regs, honly.counter, honly.platform, honly.bytes,
    fun f' hf => ?_, fun v hv => ⟨fun hnone => ?_, fun o ho => ?_⟩⟩
  · have hopcode := fetch8_of_fault hf
    simp only [fetchInstr, hopcode, Result.raised_andThen] at hraised
    cases hraised
    exact ⟨rfl, rfl⟩
  · rw [fetchInstr_of_unassigned (fetch8_of_value hv) hnone] at hraised
    cases hraised
    simp
  · have hfields := fetchFields_of_fetchInstr_raised (fetch8_of_value hv) ho hraised
    obtain ⟨j, e, evs, hj, hevents, hlen, hvalues, hkind, haddr, hresult, hip⟩ := fetchFields_raised hfields
    refine ⟨j, e, evs ++ [(s.busRead (s.x .ip) .one).event .read .one (s.x .ip)], hj, ?_, by simp [hlen]; omega, ?_, hkind,
      haddr, hresult, ?_⟩
    · rw [State.takeFault_events, hevents]
      simp
    · simpa [or_imp, forall_and] using ⟨hvalues, v, hv⟩
    · rw [State.takeFault_x, hip, State.x_setX_same, BitVec.toNat_add, BitVec.toNat_add, BitVec.toNat_ofNat]
      simp [Nat.add_mod]

/-! ## A latched core, and the run -/

/-- Settles O23: the step returns its state, and the answer is read off the status. -/
theorem latchedCoreTakesNoStep : Obligations.LatchedCoreTakesNoStep := by
  intro s hs
  have hstep : step s = .next s := by
    cases h : s.status with
    | running => exact absurd h hs
    | halted => simp only [step, h]
    | faulted r => simp only [step, h]
  refine ⟨hstep, by simp only [hostStep, hstep], fun hcont => hs ?_⟩
  cases h : s.status with
  | running => rfl
  | halted => simp [State.response, h] at hcont
  | faulted r => simp [State.response, h] at hcont

/-- The host's step answers with the status of the state it leaves. -/
theorem hostStep_of_step {s t : State} (h : step s = .next t) : hostStep s = .next (t, t.response) := by
  simp only [hostStep, h]

theorem step_next (s : State) : ∃ t, step s = .next t := by
  cases hs : s.status with
  | running =>
    cases hf : fetchInstr s with
    | done i s1 =>
      obtain ⟨t, ht, -⟩ := exec_ends i s1
      exact ⟨t, (step_of_fetchInstr_done hs hf).trans ht⟩
    | raised f s1 => exact ⟨_, step_of_fetchInstr_raised hs hf⟩
  | halted => exact ⟨s, by simp only [step, hs]⟩
  | faulted r => exact ⟨s, by simp only [step, hs]⟩

/-- One step of the run: it goes on where the core is still running, and ends with the step's answer where it is not. -/
theorem hostRun_succ {s t : State} (h : step s = .next t) (n : Nat) :
    hostRun (n + 1) s = if t.status = .running then hostRun n t else some (t, t.response) := by
  rw [hostRun, hostStep_of_step h]
  cases ht : t.status <;> simp [State.response, ht]

/-- Settles O24: by induction on the bound; the step after which the core no longer runs ends every run alike. -/
theorem runStopsAtHaltOrFault : Obligations.RunStopsAtHaltOrFault := by
  intro n
  induction n with
  | zero => intro s t r h; cases h
  | succ n ih =>
    intro s t r h
    obtain ⟨u, hu⟩ := step_next s
    rw [hostRun_succ hu] at h
    simp only [Nat.succ_add, hostRun_succ hu]
    by_cases hrun : u.status = .running
    · simp only [if_pos hrun] at h ⊢
      exact ih u t r h
    · simp only [if_neg hrun] at h ⊢
      cases h
      exact ⟨hrun, rfl, fun _ => rfl⟩

/-- Settles O50: `exec` answers a next state for each instruction, and with it the step. -/
theorem everyStepAnswersNext : Obligations.EveryStepAnswersNext :=
  ⟨fun i s => (exec_ends i s).imp fun _ h => h.1, step_next⟩

/-- Settles O49: only `HLT` writes `Halted`, and it does. -/
theorem onlyHaltHalts : Obligations.OnlyHaltHalts := by
  intro s t hs h
  rcases step_cases h with ⟨hlatched, -⟩ | ⟨-, f, s1, hraised, -, -, rfl⟩ | ⟨-, i, s1, hdone, hreach, hexec, hends⟩
  · exact absurd hs hlatched
  · simp [hraised]
  · have hrunning : s1.status = .running := hreach.status.trans hs
    simp only [hdone, Result.done.injEq, exists_eq_right']
    constructor
    · intro hhalted
      rcases hends with hr | ⟨t1, f, -, -, rfl⟩ | ⟨hop, -⟩
      · rw [hr.status, hrunning] at hhalted; cases hhalted
      · cases hhalted
      · cases i <;> first | rfl | cases hop
    · rintro rfl
      cases hexec
      rfl

end Sys2Proof.Machine
end

section
/-! Loads, stores, pushes and pops (41_move.md, 45_stack.md): each is one transaction and the writes that follow it. -/

namespace Sys2Proof.Machine

/-! ## The outcome of an instruction, from its execute phase -/

theorem Result.andThen_of_done {α β : Type} {r : Result α} {a : α} {t : State} (h : r = .done a t)
    (k : α → State → Result β) : r.andThen k = k a t := by
  rw [h, Result.done_andThen]

theorem Result.andThen_of_raised {α β : Type} {r : Result α} {f : FaultInfo} {t : State} (h : r = .raised f t)
    (k : α → State → Result β) : r.andThen k = .raised f t := by
  rw [h, Result.raised_andThen]

/-- An instruction whose execute phase completes answers the state it leaves. -/
theorem exec_of_done {i : Instr} {s t : State} {r : Result Unit} (h : exec i s = complete i.op s r) (hr : r = .done () t) :
    exec i s = .next t := by
  rw [h, hr, complete_done]

/-- An instruction that raises a fault latches it with its start address, and leaves the rest as the fault found it. -/
theorem exec_of_raised {i : Instr} {s t : State} {f : FaultInfo} {r : Result Unit} (h : exec i s = complete i.op s r)
    (hr : r = .raised f t) : exec i s = .next (t.takeFault (s.x .ip - BitVec.ofNat 16 i.length) f) := by
  rw [h, hr]
  rfl

/-! ## Loads and stores -/

/-- The indexed address, from its value as a number (20_memory.md R59). -/
theorem MemOperand.indexed_address {s : State} {a base : Word} {ro : Reg}
    (h : a.toNat = (base.toNat + (s.x ro).toNat) % 65536) : (MemOperand.indexed base ro).address s = a :=
  BitVec.eq_of_toNat_eq ((toNat_wrap16_nat _).trans h.symm)

/-- Each of the three loads, with its effective address. -/
theorem exec_load {s : State} {i : Instr} {a : Word} {rd : Reg}
    (h : i = .movMemReg a rd ∨ (∃ rp, i = .movRegPtrReg rp rd ∧ a = s.x rp) ∨
      (∃ base ro, i = .movLitOffReg base ro rd ∧ a.toNat = (base.toNat + (s.x ro).toNat) % 65536)) :
    ∃ m : MemOperand, m.address s = a ∧ exec i s = complete i.op s (loadWord m rd s) := by
  rcases h with rfl | ⟨rp, rfl, rfl⟩ | ⟨base, ro, rfl, ha⟩
  · exact ⟨.direct a, rfl, rfl⟩
  · exact ⟨.pointer rp, rfl, rfl⟩
  · exact ⟨.indexed base ro, MemOperand.indexed_address ha, rfl⟩

/-- Each of the two stores, with its value. -/
theorem exec_store {s : State} {i : Instr} {a v : Word} (h : i = .movLitMem v a ∨ ∃ rs, i = .movRegMem rs a ∧ v = s.x rs) :
    ∃ x : Source, x.value s = v ∧ exec i s = complete i.op s (storeWord (.direct a) x s) := by
  rcases h with rfl | ⟨rs, rfl, rfl⟩
  · exact ⟨.literal v, rfl, rfl⟩
  · exact ⟨.register rs, rfl, rfl⟩

/-- Settles O26: the load's specification at its effective address. -/
theorem loadsReadTheirAddress : Obligations.LoadsReadTheirAddress := by
  intro s i a rd hi v hv
  obtain ⟨m, rfl, hexec⟩ := exec_load hi
  obtain ⟨t, hload, ht⟩ := loadWord_of_value hv rd
  exact ⟨t, exec_of_done hexec hload, ht⟩

/-- Settles O27: the store's specification at its address. -/
theorem storesWriteTheirAddress : Obligations.StoresWriteTheirAddress := by
  intro s i a v hi hv
  obtain ⟨x, rfl, hexec⟩ := exec_store hi
  obtain ⟨t, hstore, ht⟩ := storeWord_of_value (m := .direct a) hv
  exact ⟨t, exec_of_done hexec hstore, ht⟩

/-- Settles O28: the specification of a faulting load or store, with the fault taken. -/
theorem faultingMovesChangeNothingElse : Obligations.FaultingMovesChangeNothingElse := by
  intro s i a f h
  suffices hraised : ∃ r t, exec i s = complete i.op s r ∧ r = .raised f t ∧ SameRegs [] s t ∧ t.counter = s.counter ∧
      SamePlatform s t ∧ SameBytes [] s t by
    obtain ⟨r, t, hexec, hr, hframe⟩ := hraised
    exact ⟨_, exec_of_raised hexec hr, rfl, hframe⟩
  rcases h with ⟨hi, hf⟩ | ⟨v, hi, hf⟩
  · obtain ⟨rd, hload⟩ : ∃ rd, i = .movMemReg a rd ∨ (∃ rp, i = .movRegPtrReg rp rd ∧ a = s.x rp) ∨
        (∃ base ro, i = .movLitOffReg base ro rd ∧ a.toNat = (base.toNat + (s.x ro).toNat) % 65536) := by
      rcases hi with ⟨rd, hi⟩ | ⟨rp, rd, hi⟩ | ⟨base, ro, rd, hi⟩
      · exact ⟨rd, .inl hi⟩
      · exact ⟨rd, .inr (.inl ⟨rp, hi⟩)⟩
      · exact ⟨rd, .inr (.inr ⟨base, ro, hi⟩)⟩
    obtain ⟨m, rfl, hexec⟩ := exec_load hload
    obtain ⟨t, hr, hframe⟩ := loadWord_of_fault hf rd
    exact ⟨_, t, hexec, hr, hframe⟩
  · obtain ⟨x, rfl, hexec⟩ := exec_store hi
    obtain ⟨t, hr, hframe⟩ := storeWord_of_fault (m := .direct a) hf
    exact ⟨_, t, hexec, hr, hframe⟩

/-- After a 16-bit write of RAM the word written stands at its address (20_memory.md R53). -/
theorem State.wordAt_stored {s t : State} {a v : Word} (hs : s.wf = true) (hp : (s.ramWord a).isSome)
    (hr : t.regions = s.regions) (hd : t.devices = (s.busWrite a .two v).devices) : t.wordAt a = some v := by
  have hword := State.wordAt_isSome_of_ramWord hp
  obtain ⟨⟨h, o⟩, hp⟩ := Option.isSome_iff_exists.1 hp
  have hp' : t.ramWord a = some (h, o) := ((SameShape.of_write hword hr hd).ramWord a).trans hp
  obtain ⟨hhi, hlo⟩ := State.ramByte_stored (State.wf_iff.1 hs).1 hp hd
  rw [State.wordAt_of_ramWord hp', hhi, hlo, wordOfBytes_hiByte_loByte]

/-- A word of RAM or the screen at `ip` is what `fetch16` returns (40_engine.md R92). -/
theorem fetch16_of_wordAt {s : State} {v : Word} (h : s.wordAt (s.x .ip) = some v) : ∃ t, fetch16 s = .done v t :=
  ⟨_, fetch16_of_value (State.busRead_wordAt h).1⟩

/-- Settles O29: the store leaves the literal standing at its address, and `ip` is no part of what is read. -/
theorem storedWordIsFetched : Obligations.StoredWordIsFetched := by
  intro s adr lit hs hp
  have hwrite := State.busWrite_wordAt (State.wordAt_isSome_of_ramWord hp) lit
  obtain ⟨t, hexec, -, -, hframe⟩ := storesWriteTheirAddress s (.movLitMem lit adr) adr lit (.inl rfl) hwrite
  obtain ⟨-, ⟨hregions, -, -⟩, -, -, hdevices, -⟩ := hframe
  have hword : (t.setX .ip adr).wordAt ((t.setX .ip adr).x .ip) = some lit := by
    rw [State.x_setX_same]
    exact State.wordAt_stored hs hp hregions hdevices
  obtain ⟨u, hu⟩ := fetch16_of_wordAt hword
  exact ⟨t, u, hexec, hu⟩

/-! ## Push and pop -/

/-- Both pushes, with the value pushed. -/
theorem exec_push {s : State} {i : Instr} {v : Word} (h : i = .pshLit v ∨ ∃ ra, i = .pshReg ra ∧ v = s.x ra) :
    exec i s = complete i.op s (push v s) := by
  rcases h with rfl | ⟨ra, rfl, rfl⟩ <;> rfl

/-- A write of a register and of the counter after a recorded 16-bit write: the frame of the write. -/
theorem writeFrame_after (s : State) (a v : Word) (r : Reg) (y c : Word) :
    WriteFrame [r] a v s
      (((s.after (s.busWrite a .two v) ((s.busWrite a .two v).event .write .two a)).setX r y).setCounter c) := by
  refine ⟨sameRegs_after_setX s _ _ r y, ⟨rfl, rfl, rfl⟩, fun k o hk => ?_, fun hs p hp => ?_, rfl, rfl⟩
  · exact State.ramByte_after_write (s := s) (v := v) rfl hk
  · exact State.ramByte_stored (State.wf_iff.1 hs).1 hp rfl

/-- Settles O37: a push that completes is its write, then `sp` and the counter. -/
theorem pushesWriteThenLowerSp : Obligations.PushesWriteThenLowerSp := by
  intro s i v hi hv
  refine ⟨_, exec_of_done (exec_push hi) (push_of_value hv), ?_, rfl, rfl, writeFrame_after s _ v .sp _ _⟩
  rw [State.setCounter_x, State.x_setX_same]

/-- A pop that completes (45_stack.md R157). -/
theorem pop_of_value {s : State} {v : Word} (h : (s.busRead (s.x .sp + 2) .two).result = .value v) :
    pop s = .done v (((s.setX .sp (s.x .sp + 2)).after (s.busRead (s.x .sp + 2) .two)
      ((s.busRead (s.x .sp + 2) .two).event .read .two (s.x .sp + 2))).setCounter (s.counter - 2)) := by
  have h' : ((s.setX .sp (s.x .sp + 2)).busRead (s.x .sp + 2) .two).result = .value v := h
  simp only [pop, memRead_of_value h', Result.done_andThen, State.setX_busRead, State.after_counter, State.setX_counter]

theorem exec_pop (rd : Reg) (s : State) :
    exec (.pop rd) s = complete .pop s ((pop s).andThen fun v t => .done () (t.setX rd v)) := rfl

/-- Settles O38: a pop that completes is `sp`, its read and the counter, and then the write of the destination. -/
theorem popRaisesSpThenReads : Obligations.PopRaisesSpThenReads := by
  intro s rd v hv
  refine ⟨_, exec_of_done (exec_pop rd s) (Result.andThen_of_done (pop_of_value hv) _), State.x_setX_same _ _ _,
    fun hne => ?_, rfl, rfl, fun r hr => ?_, ⟨rfl, rfl, rfl⟩, fun k o _ => State.ramByte_after_read (s := s) rfl k o, rfl, rfl⟩
  · rw [State.x_setX_ne _ _ (Ne.symm hne), State.setCounter_x, State.after_x, State.x_setX_same]
  · simp only [List.mem_cons, List.not_mem_nil, or_false, not_or] at hr
    rw [State.x_setX_ne _ _ hr.1, State.setCounter_x, State.after_x, State.x_setX_ne _ _ hr.2]

/-- Settles O39: a push faults before `sp` is lowered, a pop after it is raised. -/
theorem faultingPushAndPop : Obligations.FaultingPushAndPop := by
  refine fun s f => ⟨fun i v hi hf => ?_, fun rd hf => ?_⟩
  · obtain ⟨hregs, hcounter, -, hdata, -⟩ := push_eq_raised (push_of_fault hf)
    exact ⟨_, exec_of_raised (exec_push hi) (push_of_fault hf), rfl, hregs, hcounter, fun k o _ => hdata.ramByte k o⟩
  · refine ⟨_, exec_of_raised (exec_pop rd s) (Result.andThen_of_raised (pop_of_fault hf) _), rfl, ?_, fun r hr => ?_,
      rfl, fun k o _ => State.ramByte_after_read (s := s) rfl k o⟩
    · rw [State.takeFault_x, State.after_x, State.x_setX_same]
    · rw [State.takeFault_x, State.after_x, State.x_setX_ne _ _ (List.ne_of_not_mem_cons hr)]

/-- A push to RAM and then a pop (45_stack.md R162). -/
theorem pop_push {s : State} (hs : s.wf = true) (hp : (s.ramWord (s.x .sp)).isSome) (v : Word) :
    ∃ t u, push v s = .done () t ∧ pop t = .done v u ∧ u.x .sp = s.x .sp ∧ u.counter = s.counter := by
  have hpush := push_of_value (State.busWrite_wordAt (State.wordAt_isSome_of_ramWord hp) v)
  obtain ⟨t, ht, hsp, hcounter, hregions, hdevices⟩ : ∃ t, push v s = .done () t ∧ t.x .sp = s.x .sp - 2 ∧
      t.counter = s.counter + 2 ∧ t.regions = s.regions ∧ t.devices = (s.busWrite (s.x .sp) .two v).devices :=
    ⟨_, hpush, by rw [State.setCounter_x, State.x_setX_same], rfl, rfl, rfl⟩
  have hback : t.x .sp + 2 = s.x .sp := by rw [hsp]; exact BitVec.sub_add_cancel _ _
  have hword : t.wordAt (t.x .sp + 2) = some v := by rw [hback]; exact State.wordAt_stored hs hp hregions hdevices
  obtain ⟨e, he⟩ := pop_of_wordAt hword
  refine ⟨t, _, ht, he, (State.x_setX_same t .sp _).trans hback, ?_⟩
  show t.counter - 2 = s.counter
  rw [hcounter]
  exact BitVec.add_sub_cancel _ _

/-- Settles O40: the law, and the source's scenario evaluated from reset. -/
theorem pushThenPopRoundTrip : Obligations.PushThenPopRoundTrip :=
  ⟨fun _ v hs hp => pop_push hs hp v, _, _, _, _, _, _, by rfl, by rfl, by rfl, by rfl, by rfl, by rfl, by rfl, by rfl⟩

end Sys2Proof.Machine
end

section
/-! Calls (46_call_return.md R165, R167, R168, R170): the frame pushed, where the call completes and where a push faults. -/

namespace Sys2Proof.Machine

/-- Both calls, with their target, which a register form reads before anything is pushed. -/
theorem exec_call {s : State} {i : Instr} {target : Word} (h : i = .calLit target ∨ ∃ ra, i = .calReg ra ∧ target = s.x ra) :
    exec i s = complete i.op s ((pushState s).andThen fun _ t => .done () (t.setX .ip target)) := by
  rcases h with rfl | ⟨ra, rfl, rfl⟩ <;> rfl

/-- A call has a target. -/
theorem target_of_isCall (s : State) {i : Instr} (h : (∃ adr, i = .calLit adr) ∨ ∃ ra, i = .calReg ra) :
    ∃ target, i = .calLit target ∨ ∃ ra, i = .calReg ra ∧ target = s.x ra := by
  rcases h with ⟨adr, rfl⟩ | ⟨ra, rfl⟩
  · exact ⟨adr, .inl rfl⟩
  · exact ⟨s.x ra, .inr ⟨ra, rfl, rfl⟩⟩

/-- An instruction whose state is not faulted completed. -/
theorem eq_done_of_complete {o : Op} {s t : State} {r : Result Unit} (h : complete o s r = .next t)
    (hf : ∀ r, t.status ≠ .faulted r) : r = .done () t := by
  cases r with
  | done u t1 => cases h; rfl
  | raised f t1 => cases h; exact absurd rfl (hf _)

/-- The state a call leaves, from the one its ten pushes leave. -/
def State.entered (u : State) (target : Word) : State := ((u.setX .fp (u.x .sp)).setCounter 0).setX .ip target

/-- A call whose ten slots lie in RAM or the screen completes. -/
theorem exec_call_of_wordAt {s : State} {i : Instr} {target : Word}
    (hi : i = .calLit target ∨ ∃ ra, i = .calReg ra ∧ target = s.x ra)
    (hw : ∀ k, k < 10 → (s.wordAt (s.pushSlot k)).isSome) :
    ∃ u, exec i s = .next (u.entered target) ∧ Pushed s s.frameWords u := by
  obtain ⟨u, hu, hpushed⟩ := pushState_of_wordAt hw
  exact ⟨u, exec_of_done (exec_call hi) (Result.andThen_of_done hu _), hpushed⟩

/-- A call that completes has made its effect, whatever devices its slots reach. -/
theorem called_of_exec {s t : State} {i : Instr} {target : Word}
    (hi : i = .calLit target ∨ ∃ ra, i = .calReg ra ∧ target = s.x ra) (h : exec i s = .next t)
    (hf : ∀ r, t.status ≠ .faulted r) : Called s target t := by
  rw [exec_call hi] at h
  obtain ⟨⟨⟩, t1, hpush, hdone⟩ := Result.andThen_eq_done.1 (eq_done_of_complete h hf)
  cases hdone
  obtain ⟨u, hwrote, rfl⟩ := pushState_eq_done hpush
  exact hwrote.called

/-- Settles O41: the ten pushes complete where their slots lie in RAM or the screen, and a call that completes made them all. -/
theorem callsPushTheFrameAndJump : Obligations.CallsPushTheFrameAndJump := by
  refine fun s i target hi => ⟨fun hw => ?_, fun t ht hf => called_of_exec hi ht hf⟩
  obtain ⟨u, hexec, hpushed⟩ := exec_call_of_wordAt hi hw
  exact ⟨_, hexec, hpushed.toWrote.called⟩

theorem State.wordAt_isSome_of_slotIn {s : State} {g : Region} {a : Word} (h : s.slotIn g a = true) :
    (s.wordAt a).isSome :=
  State.wordAt_isSome_of_ramWord (Option.isSome_of_eq_some (State.ramWord_of_slotIn h))

/-- Words that were pushed to one RAM region of a well-formed state stand in their slots. -/
theorem Pushed.wordAt {s t : State} {ws : List Word} (h : Pushed s ws t) (hs : s.wf = true) (hlen : ws.length ≤ 10)
    {g : Region} (hg : ∀ k, k < ws.length → s.slotIn g (s.pushSlot k) = true) {k : Nat} (hk : k < ws.length) :
    t.wordAt (s.pushSlot k) = ws[k]? :=
  (h.held (State.wf_iff.1 hs).1).2 g hlen hg k hk

/-- A call whose ten slots lie in one RAM region leaves its frame there. -/
theorem exec_call_of_slotIn {s : State} {g : Region} {i : Instr} (hi : (∃ adr, i = .calLit adr) ∨ ∃ ra, i = .calReg ra)
    (hs : s.wf = true) (hg : ∀ k, k < 10 → s.slotIn g (s.pushSlot k) = true) :
    ∃ target t, exec i s = .next t ∧ Called s target t ∧ ∀ k, k < 10 → t.wordAt (s.pushSlot k) = s.frameWords[k]? := by
  obtain ⟨target, hi⟩ := target_of_isCall s hi
  obtain ⟨u, hexec, hpushed⟩ := exec_call_of_wordAt hi fun k hk => State.wordAt_isSome_of_slotIn (hg k hk)
  refine ⟨target, _, hexec, hpushed.toWrote.called, fun k hk => ?_⟩
  rw [State.wordAt_congr (s := u) (t := u.entered target) rfl rfl]
  exact hpushed.wordAt hs (Nat.le_refl 10) hg hk

/-- Settles O42: the frame was pushed to the ten slots, and what follows the pushes writes no memory. -/
theorem callLeavesTheFrameInMemory : Obligations.CallLeavesTheFrameInMemory := by
  intro s g i hi hs hg
  obtain ⟨target, t, hexec, ⟨-, -, hfp, -⟩, hwords⟩ := exec_call_of_slotIn hi hs hg
  exact ⟨t, hexec, hfp, hwords⟩

/-- Settles O43: the k pushes before the fault are kept, and the push that faults changes nothing but the record. -/
theorem faultingCallKeepsItsPushes : Obligations.FaultingCallKeepsItsPushes := by
  intro s i k f hi hk hw hf
  obtain ⟨target, hi⟩ := target_of_isCall s hi
  obtain ⟨x, v, u, hpush, hpushed, hfault⟩ := pushState_of_fault hk hw hf
  obtain ⟨hregs, hcounter, hplatform, hdata, e, hevent, hkind, hwidth, haddr, hresult⟩ := push_eq_raised hfault
  have hlen : (s.frameWords.take k).length = k := List.length_take_of_le (Nat.le_of_lt hk)
  have hsp := hpushed.sp
  have hcount := hpushed.counter
  have hbytes := hpushed.bytes
  rw [hlen] at hsp hcount hbytes
  obtain ⟨evs, hevs, hrecords⟩ := hpushed.events
  refine ⟨_, exec_of_raised (exec_call hi) (Result.andThen_of_raised hpush _), rfl, ?_, hcounter.trans hcount, ?_,
    hpushed.platform.trans hplatform, ?_, ?_, e, evs, ?_, hrecords, hkind, hwidth, haddr.trans hsp, hresult⟩
  · exact (hregs .sp List.not_mem_nil).trans hsp
  · exact fun r hr => (hregs r List.not_mem_nil).trans (hpushed.regs r hr)
  · exact fun h o hho => (hdata.ramByte h o).trans (hbytes h o hho)
  · intro g hs hg j hj
    have hword := hpushed.wordAt hs (by omega) (by rwa [hlen]) (by omega : j < _)
    rw [List.getElem?_take_of_lt hj] at hword
    exact (hdata.wordAt _).trans hword
  · rw [State.takeFault_events, hevent, hevs]

end Sys2Proof.Machine
end

section
/-! Returns (46_call_return.md R166, R169): the pop of the marker, and the pops that follow it, counted from there. -/

namespace Sys2Proof.Machine

/-! ## The pop of the marker -/

/-- The state `b` is `s` after the marker is popped from the frame at `fp` and the counter reloaded with `c`. -/
structure MarkerPopped (s : State) (c : Word) (b : State) : Prop where
  sp : b.x .sp = s.popSlot 1
  counter : b.counter = c
  regs : SameRegs [.sp] s b
  status : b.status = s.status
  platform : SamePlatform s b
  devices : b.devices = s.devices
  events : ∃ e : Event, b.events = e :: s.events

/-- The state a return begins its pops in. -/
def State.atFrame (s : State) : State := s.setX .sp (s.x .fp)

theorem State.atFrame_sp (s : State) : s.atFrame.x .sp = s.x .fp := State.x_setX_same _ _ _

/-- The first slot a return pops from is 2 above `fp`. -/
theorem State.atFrame_slot (s : State) : s.atFrame.x .sp + 2 = s.popSlot 1 := by
  rw [State.atFrame_sp]
  rfl

theorem pop_marker {s : State} {m : Word} (h : s.wordAt (s.popSlot 1) = some m) :
    ∃ t, pop s.atFrame = .done m t ∧ ∀ c, MarkerPopped s c (t.setCounter c) := by
  have hword : s.atFrame.wordAt (s.atFrame.x .sp + 2) = some m := by
    rw [State.atFrame_slot, State.wordAt_congr (s := s) (t := s.atFrame) rfl rfl]
    exact h
  obtain ⟨e, he⟩ := pop_of_wordAt hword
  refine ⟨_, he, fun c => ⟨?_, rfl, fun r hr => ?_, rfl, ⟨rfl, rfl, rfl⟩, rfl, e, rfl⟩⟩
  · exact (State.x_setX_same s.atFrame .sp _).trans s.atFrame_slot
  · have hne := List.ne_of_not_mem_cons hr
    exact (State.x_setX_ne s.atFrame _ hne).trans (State.x_setX_ne s _ hne)

/-- The words above the popped marker are those above `fp`, one further up. -/
theorem MarkerPopped.above {s b : State} {c : Word} (h : MarkerPopped s c b) (j : Nat) : b.above j = s.popSlot (j + 1) := by
  simp only [State.above, h.sp, State.popSlot]
  bv_omega

theorem MarkerPopped.wordAt {s b : State} {c : Word} (h : MarkerPopped s c b) (j : Nat) :
    b.wordAt (b.above j) = s.wordAt (s.popSlot (j + 1)) := by
  rw [h.above, State.wordAt_congr h.platform.1 h.devices]

theorem MarkerPopped.busRead {s b : State} {c : Word} (h : MarkerPopped s c b) (j : Nat) :
    b.busRead (b.above j) .two = s.busRead (s.popSlot (j + 1)) .two := by
  rw [h.above, State.busRead_congr h.platform.1 h.devices]

/-- Bytes of RAM are read alike in two states with the same devices. -/
theorem State.ramByte_congr {s t : State} (hd : t.devices = s.devices) (h o : Nat) : t.ramByte h o = s.ramByte h o := by
  rw [State.ramByte_eq, State.ramByte_eq, State.device_eq, State.device_eq, hd]

theorem MarkerPopped.sameBytes {s b u : State} {c : Word} (h : MarkerPopped s c b) (hu : SameBytes [] b u) :
    SameBytes [] s u :=
  fun k o hk => (hu k o hk).trans (State.ramByte_congr h.devices k o)

/-! ## The registers restored -/

/-- The registers a return restores hold their words of the frame. -/
def Restored (w : Nat → Word) (t : State) : Prop := ∀ j r, savedRegs.reverse[j]? = some r → t.x r = w (j + 2)

theorem ne_sp_of_saved {j : Nat} {r : Reg} (h : savedRegs.reverse[j]? = some r) : r ≠ .sp := by
  rintro rfl
  exact absurd (List.mem_of_getElem? h) (by decide)

/-- A later pop leaves the registers restored. -/
theorem Restored.of_sameRegs {w : Nat → Word} {t u : State} (h : Restored w t) (hs : SameRegs [.sp] t u) : Restored w u :=
  fun j r hr => (hs r (by simpa using ne_sp_of_saved hr)).trans (h j r hr)

/-- The nine pops into registers, where their words lie in RAM or the screen. -/
theorem MarkerPopped.popRegs {s b : State} {c : Word} (h : MarkerPopped s c b) {w : Nat → Word}
    (hw : ∀ k, 2 ≤ k → k ≤ 10 → s.wordAt (s.popSlot k) = some (w k)) :
    ∃ t, popRegs savedRegs.reverse b = .done () t ∧ Popped b savedRegs 9 t ∧ Restored w t := by
  obtain ⟨t, ht, hpopped, -, hvalues⟩ := (Popped.zero b).popRegs (rs := savedRegs.reverse) (w := fun k => w (k + 1))
    (by decide) (by decide) fun k hk hk' => by
      simp only [savedRegs, List.length_reverse, List.length_cons, List.length_nil] at hk'
      rw [h.wordAt]
      exact hw (k + 1) (by omega) (by omega)
  refine ⟨t, ht, hpopped, fun j r hr => ?_⟩
  rw [hvalues j r hr, Nat.zero_add]

/-- The pop of the argument count. -/
theorem MarkerPopped.popCount {s b t : State} {c : Word} (h : MarkerPopped s c b) (ht : Popped b savedRegs 9 t) {n : Word}
    (hn : s.wordAt (s.popSlot 11) = some n) :
    ∃ u, pop t = .done n u ∧ Popped b savedRegs 10 u ∧ SameRegs [.sp] t u :=
  ht.pop (by rw [h.wordAt]; exact hn)

/-! ## A return that completes -/

/-- The equation of `popState()`, for each way its four parts can go. -/
theorem popState_eq (s : State) : popState s =
    (pop s.atFrame).andThen fun m s1 =>
      (popRegs savedRegs.reverse (s1.setCounter (reloadCounter s1.params.markerReload m))).andThen fun _ s2 =>
        (pop s2).andThen fun n s3 => (discard n.toNat s3).andThen fun _ s4 => .done () (s4.setX .fp (s.x .fp + m)) := rfl

theorem exec_ret (s : State) : exec .ret s = complete .ret s (popState s) := rfl

/-- `popState()` of a frame in RAM or the screen: the marker popped, the registers restored, and `10 + n` pops after the marker. -/
theorem popState_of_wordAt {s : State} {w : Nat → Word}
    (hw : ∀ k, 1 ≤ k → k ≤ 11 + (w 11).toNat → s.wordAt (s.popSlot k) = some (w k)) :
    ∃ b t, popState s = .done () (t.setX .fp (s.x .fp + w 1)) ∧
      MarkerPopped s (reloadCounter s.params.markerReload (w 1)) b ∧ Popped b savedRegs (10 + (w 11).toNat) t ∧ Restored w t := by
  obtain ⟨s1, hmarker, hb⟩ := pop_marker (hw 1 (by omega) (by omega))
  have hb := hb (reloadCounter s.params.markerReload (w 1))
  have hparams : s1.params = s.params := hb.platform.2.2
  obtain ⟨s2, hregs, hp2, hrestored⟩ := hb.popRegs fun k hk hk' => hw k (by omega) (by omega)
  obtain ⟨s3, hcount, hp3, hsame3⟩ := hb.popCount hp2 (hw 11 (by omega) (by omega))
  obtain ⟨s4, hdiscard, hp4, hsame4⟩ := hp3.discard (w 11).toNat fun k hk hk' => by
    rw [hb.wordAt, hw (k + 1) (by omega) (by omega)]
    rfl
  refine ⟨_, s4, ?_, hb, hp4, (hrestored.of_sameRegs hsame3).of_sameRegs hsame4⟩
  rw [popState_eq]
  simp only [hmarker, Result.done_andThen, hparams, hregs, hcount, hdiscard]

/-- Settles O44: the marker popped and the counter reloaded, then `10 + n` pops, then the write of `fp`. -/
theorem returnPopsTheFrame : Obligations.ReturnPopsTheFrame := by
  intro s w hw
  obtain ⟨b, t, hpop, hb, hpopped, hrestored⟩ := popState_of_wordAt hw
  have hreg : ∀ j r, savedRegs.reverse[j]? = some r → r ≠ .fp → (t.setX .fp (s.x .fp + w 1)).x r = w (j + 2) :=
    fun j r hr hne => (State.x_setX_ne t _ hne).trans (hrestored j r hr)
  refine ⟨_, exec_of_done (exec_ret s) hpop, hreg 0 .ip rfl (by decide), hreg 1 .r8 rfl (by decide),
    hreg 2 .r7 rfl (by decide), hreg 3 .r6 rfl (by decide), hreg 4 .r5 rfl (by decide), hreg 5 .r4 rfl (by decide),
    hreg 6 .r3 rfl (by decide), hreg 7 .r2 rfl (by decide), hreg 8 .r1 rfl (by decide), ?_, State.x_setX_same _ _ _, ?_, ?_,
    hpopped.status.trans hb.status, hb.platform.trans hpopped.platform, hpopped.devices.trans hb.devices, ?_, ?_⟩
  · rw [State.x_setX_ne _ _ (by decide), hpopped.sp, hb.above, show 10 + (w 11).toNat + 1 = 11 + (w 11).toNat by omega]
  · rw [State.x_setX_ne _ _ (by decide), hpopped.regs .ac (by decide), hb.regs .ac (by decide)]
  · rw [State.setX_counter, hpopped.counter, hb.counter]
    rfl
  · exact hb.sameBytes fun h o _ => State.ramByte_congr (s := b) (t := t) hpopped.devices h o
  · obtain ⟨evs, hevs, hlen⟩ := hpopped.events
    obtain ⟨e, he⟩ := hb.events
    exact ⟨evs ++ [e], by rw [State.setX_events, hevs, he, List.append_assoc]; rfl, by simp [hlen]; omega⟩

/-! ## A return whose k-th pop faults -/

/-- The state `u` is `s` after a return whose k-th pop faults: what `FaultingReturnKeepsItsPops` says of it, but for the status. -/
structure ReturnStopped (s : State) (w : Nat → Word) (k : Nat) (u : State) : Prop where
  sp : u.x .sp = s.popSlot k
  fp : u.x .fp = s.x .fp
  ac : u.x .ac = s.x .ac
  restored : ∀ j r, savedRegs.reverse[j]? = some r → u.x r = if j + 2 < k then w (j + 2) else s.x r
  counter : u.counter = if k = 1 then s.counter
    else reloadCounter s.params.markerReload (w 1) - BitVec.ofNat 16 (2 * (k - 2))
  platform : SamePlatform s u
  bytes : SameBytes [] s u

/-- The first pop faults: nothing but `sp` has changed. -/
theorem returnStopped_marker {s : State} {f : FaultInfo} (w : Nat → Word)
    (hf : (s.busRead (s.popSlot 1) .two).result = .fault f) :
    ∃ u, popState s = .raised f u ∧ ReturnStopped s w 1 u := by
  have hpop := pop_of_fault (s := s.atFrame) (f := f) (by rw [State.atFrame_slot]; exact hf)
  have hne : ∀ r, r ≠ .sp → (s.atFrame.setX .sp (s.atFrame.x .sp + 2)).x r = s.x r := fun r hr =>
    (State.x_setX_ne s.atFrame _ hr).trans (State.x_setX_ne s _ hr)
  refine ⟨_, Result.andThen_of_raised hpop _, ?_, hne .fp (by decide), hne .ac (by decide), fun j r hr => ?_, rfl,
    ⟨rfl, rfl, rfl⟩, fun k o _ => State.ramByte_after_read (s := s) rfl k o⟩
  · exact (State.x_setX_same s.atFrame .sp _).trans s.atFrame_slot
  · rw [if_neg (by omega)]
    exact hne r (ne_sp_of_saved hr)

/-- The pop into a register faults: the registers before it are restored. -/
theorem returnStopped_regs {s b : State} {w : Nat → Word} {k : Nat} {f : FaultInfo}
    (hb : MarkerPopped s (reloadCounter s.params.markerReload (w 1)) b) (hk : 2 ≤ k) (hk' : k ≤ 10)
    (hw : ∀ j, 1 ≤ j → j < k → s.wordAt (s.popSlot j) = some (w j))
    (hf : (s.busRead (s.popSlot k) .two).result = .fault f) :
    ∃ u, popRegs savedRegs.reverse b = .raised f u ∧ ReturnStopped s w k u := by
  obtain ⟨k, rfl⟩ : ∃ n, k = n + 1 := ⟨k - 1, by omega⟩
  obtain ⟨u, hu, hsp, hcounter, hplatform, hbytes, hregs, hvalues⟩ :=
    (Popped.zero b).popRegs_fault (rs := savedRegs.reverse) (w := fun j => w (j + 1)) (k := k) (f := f)
      (by decide) (by decide) (by omega) (by simp [savedRegs]; omega)
      (fun j hj hj' => by rw [hb.wordAt]; exact hw (j + 1) (by omega) (by omega)) (by rw [hb.busRead]; exact hf)
  refine ⟨u, hu, hsp.trans (hb.above k), ?_, ?_, fun j r hr => ?_, ?_, hb.platform.trans hplatform, hb.sameBytes hbytes⟩
  · exact (hregs .fp (by decide)).trans (hb.regs .fp (by decide))
  · exact (hregs .ac (by decide)).trans (hb.regs .ac (by decide))
  · rw [hvalues j r hr, Nat.zero_add, hb.regs r (by simpa using ne_sp_of_saved hr)]
    simp only [show j + 1 < k ↔ j + 2 < k + 1 by omega]
  · rw [hcounter, hb.counter, if_neg (by omega), show k + 1 - 2 = k - 1 by omega]

/-- A pop after the nine registers faults: they are all restored. -/
theorem returnStopped_of_popStopped {s b u : State} {w : Nat → Word} {k : Nat}
    (hb : MarkerPopped s (reloadCounter s.params.markerReload (w 1)) b) (hk : 10 ≤ k)
    (hu : PopStopped b savedRegs (k - 1) u) (hrestored : Restored w u) : ReturnStopped s w (k + 1) u := by
  refine ⟨?_, ?_, ?_, fun j r hr => ?_, ?_, hb.platform.trans hu.platform, hb.sameBytes hu.bytes⟩
  · rw [hu.sp, hb.above, show k - 1 + 1 = k by omega]
  · exact (hu.regs .fp (by decide)).trans (hb.regs .fp (by decide))
  · exact (hu.regs .ac (by decide)).trans (hb.regs .ac (by decide))
  · have hj : j < savedRegs.reverse.length := (List.getElem?_eq_some_iff.1 hr).1
    simp only [savedRegs, List.length_reverse, List.length_cons, List.length_nil] at hj
    rw [if_pos (by omega), hrestored j r hr]
  · rw [hu.counter, hb.counter, if_neg (by omega), show k + 1 - 2 = k - 1 by omega]

/-- `popState()` whose k-th pop faults, whichever of its pops that is. -/
theorem popState_of_fault {s : State} {w : Nat → Word} {k : Nat} {f : FaultInfo} (hk : 1 ≤ k)
    (hk' : k ≤ 11 ∨ k ≤ 11 + (w 11).toNat) (hw : ∀ j, 1 ≤ j → j < k → s.wordAt (s.popSlot j) = some (w j))
    (hf : (s.busRead (s.popSlot k) .two).result = .fault f) : ∃ u, popState s = .raised f u ∧ ReturnStopped s w k u := by
  by_cases h1 : k = 1
  · subst h1
    exact returnStopped_marker w hf
  obtain ⟨s1, hmarker, hb⟩ := pop_marker (hw 1 (by omega) (by omega))
  have hb := hb (reloadCounter s.params.markerReload (w 1))
  have hparams : s1.params = s.params := hb.platform.2.2
  by_cases h10 : k ≤ 10
  · obtain ⟨u, hu, hstopped⟩ := returnStopped_regs hb (by omega) h10 hw hf
    exact ⟨u, by rw [popState_eq]; simp only [hmarker, Result.done_andThen, hparams, hu, Result.raised_andThen], hstopped⟩
  obtain ⟨s2, hregs, hp2, hrestored⟩ := hb.popRegs fun j hj hj' => hw j (by omega) (by omega)
  obtain ⟨k, rfl⟩ : ∃ n, k = n + 1 := ⟨k - 1, by omega⟩
  rw [← hb.busRead] at hf
  by_cases h11 : k = 10
  · subst h11
    obtain ⟨u, hu, hstopped, hsame⟩ := hp2.fault hf
    exact ⟨u, by rw [popState_eq]; simp only [hmarker, Result.done_andThen, hparams, hregs, hu, Result.raised_andThen],
      returnStopped_of_popStopped hb (by omega) hstopped (hrestored.of_sameRegs hsame)⟩
  · obtain ⟨s3, hcount, hp3, hsame3⟩ := hb.popCount hp2 (hw 11 (by omega) (by omega))
    obtain ⟨u, hu, hstopped, hsame⟩ := hp3.discard_fault (w 11).toNat (by omega) (by omega)
      (fun j hj hj' => by rw [hb.wordAt, hw (j + 1) (by omega) (by omega)]; rfl) hf
    exact ⟨u,
      by rw [popState_eq]; simp only [hmarker, Result.done_andThen, hparams, hregs, hcount, hu, Result.raised_andThen],
      returnStopped_of_popStopped hb (by omega) hstopped ((hrestored.of_sameRegs hsame3).of_sameRegs hsame)⟩

/-- Settles O45: the fault of `popState()` taken, with what its completed pops left. -/
theorem faultingReturnKeepsItsPops : Obligations.FaultingReturnKeepsItsPops := by
  intro s w k f hk hk' hw hf
  obtain ⟨u, hu, hstopped⟩ := popState_of_fault hk hk' hw hf
  exact ⟨_, exec_of_raised (exec_ret s) hu, rfl, hstopped.sp, hstopped.fp, hstopped.ac, hstopped.restored, hstopped.counter,
    hstopped.platform, hstopped.bytes⟩

end Sys2Proof.Machine
end

section
/-! A call and then a return (46_call_return.md R172, R173): the frame the call left is the one the return pops. -/

namespace Sys2Proof.Machine

/-- The word a return pops from slot k, where there is one. -/
def State.frameWord (s : State) (k : Nat) : Word := (s.wordAt (s.popSlot k)).getD 0

theorem State.wordAt_popSlot {s : State} {k : Nat} (h : (s.wordAt (s.popSlot k)).isSome) :
    s.wordAt (s.popSlot k) = some (s.frameWord k) := by
  obtain ⟨v, hv⟩ := Option.isSome_iff_exists.1 h
  rw [State.frameWord, hv]
  rfl

theorem State.frameWord_of_wordAt {s : State} {k : Nat} {v : Word} (h : s.wordAt (s.popSlot k) = some v) :
    s.frameWord k = v := by
  rw [State.frameWord, h]
  rfl

/-- With `fp` where a call left it, the slots popped are the slots pushed, the last first. -/
theorem popSlot_eq_pushSlot {s t : State} (hfp : t.x .fp = s.x .sp - 20) {k : Nat} (hk : k ≤ 10) :
    t.popSlot k = s.pushSlot (10 - k) := by
  simp only [State.popSlot, State.pushSlot, hfp]
  bv_omega

/-- The frame a call left, with the argument count and the arguments above it, is popped word by word. -/
theorem wordAt_popSlot_of_frame {s t : State} {n : Word} (hfp : t.x .fp = s.x .sp - 20)
    (hframe : ∀ k, k < 10 → t.wordAt (s.pushSlot k) = s.frameWords[k]?) (hn : t.wordAt (s.x .sp + 2) = some n)
    (hargs : ∀ j, j < n.toNat → (t.wordAt (s.x .sp + 4 + BitVec.ofNat 16 (2 * j))).isSome) :
    t.frameWord 11 = n ∧ ∀ k, 1 ≤ k → k ≤ 11 + n.toNat → t.wordAt (t.popSlot k) = some (t.frameWord k) := by
  have hcount : t.popSlot 11 = s.x .sp + 2 := by
    simp only [State.popSlot, hfp]
    bv_omega
  rw [← hcount] at hn
  refine ⟨State.frameWord_of_wordAt hn, fun k hk hk' => State.wordAt_popSlot ?_⟩
  rcases Nat.lt_trichotomy k 11 with hlt | rfl | hgt
  · have hlen : 10 - k < s.frameWords.length := show 10 - k < 10 by omega
    rw [popSlot_eq_pushSlot hfp (by omega), hframe _ (by omega), List.getElem?_eq_getElem hlen]
    rfl
  · rw [hn]
    rfl
  · obtain ⟨j, rfl⟩ : ∃ j, k = 12 + j := ⟨k - 12, by omega⟩
    have harg : t.popSlot (12 + j) = s.x .sp + 4 + BitVec.ofNat 16 (2 * j) := by
      simp only [State.popSlot, hfp]
      bv_omega
    rw [harg]
    exact hargs j (by omega)

/-- A return from the frame a call left, with `n` arguments above the count word. -/
theorem exec_ret_of_frame {s t : State} {n : Word} (hplatform : SamePlatform s t) (hfp : t.x .fp = s.x .sp - 20)
    (hframe : ∀ k, k < 10 → t.wordAt (s.pushSlot k) = s.frameWords[k]?) (hn : t.wordAt (s.x .sp + 2) = some n)
    (hargs : ∀ j, j < n.toNat → (t.wordAt (s.x .sp + 4 + BitVec.ofNat 16 (2 * j))).isSome) :
    ∃ u, exec .ret t = .next u ∧ (∀ r ∈ savedRegs, u.x r = s.x r) ∧
      u.x .sp = s.x .sp + 2 + BitVec.ofNat 16 (2 * n.toNat) ∧ (FrameInvariant s → u.x .fp = s.x .fp) ∧
      u.counter = reloadCounter s.params.markerReload s.counter - BitVec.ofNat 16 (2 * n.toNat) := by
  obtain ⟨hcount, hwords⟩ := wordAt_popSlot_of_frame hfp hframe hn hargs
  rw [← hcount] at hwords
  have hpushed : ∀ k v, k ≤ 10 → 1 ≤ k → s.frameWords[10 - k]? = some v → t.frameWord k = v := fun k v hk hk' hv =>
    State.frameWord_of_wordAt (by rw [popSlot_eq_pushSlot hfp hk, hframe _ (by omega), hv])
  have hmarker : t.frameWord 1 = s.counter + 20 := hpushed 1 _ (by decide) (by decide) rfl
  obtain ⟨b, x, hpop, hb, hpopped, hrestored⟩ := popState_of_wordAt hwords
  rw [hcount] at hpopped
  refine ⟨_, exec_of_done (exec_ret t) hpop, fun r hr => ?_, ?_, fun hinv => ?_, ?_⟩
  · obtain ⟨j, hj⟩ := List.mem_iff_getElem?.1 (List.mem_reverse.2 hr)
    have hlt : j < 9 := (List.getElem?_eq_some_iff.1 hj).1
    have hsaved : s.frameWords[10 - (j + 2)]? = some (s.x r) := by
      rw [List.getElem?_reverse hlt] at hj
      rw [State.frameWords_eq, List.getElem?_append_left (show 10 - (j + 2) < 9 by omega), List.getElem?_map,
        show 10 - (j + 2) = 9 - 1 - j by omega]
      exact congrArg (Option.map s.x) hj
    have hne : r ≠ .fp := by
      rintro rfl
      exact absurd hr (by decide)
    rw [State.x_setX_ne _ _ hne, hrestored j r hj, hpushed (j + 2) _ (by omega) (by omega) hsaved]
  · rw [State.x_setX_ne _ _ (by decide), hpopped.sp, hb.above, State.popSlot, hfp]
    bv_omega
  · rw [State.x_setX_same, hmarker, hfp, hinv]
    bv_omega
  · rw [State.setX_counter, hpopped.counter, hb.counter, hmarker, hplatform.2.2]
    cases s.params.markerReload <;> simp only [reloadCounter] <;> bv_omega

/-- Settles O46: the frame stands where the call left it, and `ip` and the record are no part of it. -/
theorem callThenReturnRestores : Obligations.CallThenReturnRestores := by
  intro s g i hi hs hg
  obtain ⟨target, t, hexec, ⟨-, -, hfp, -, -, -, hplatform, -⟩, hframe⟩ := exec_call_of_slotIn hi hs hg
  refine ⟨t, hexec, fun n p es hn hargs => ?_⟩
  have hword : ∀ a, State.wordAt { t.setX .ip p with events := es } a = t.wordAt a := State.wordAt_congr rfl rfl
  obtain ⟨u, hret, hregs, hsp, hinv, hcounter⟩ := exec_ret_of_frame (t := { t.setX .ip p with events := es }) (n := n)
    hplatform ((State.x_setX_ne t p (by decide)).trans hfp) (fun k hk => (hword _).trans (hframe k hk))
    ((hword _).trans hn) (fun j hj => by rw [hword]; exact hargs j hj)
  refine ⟨u, hret, hregs, hsp, hinv, hcounter.trans ?_⟩
  cases s.params.markerReload <;> rfl

end Sys2Proof.Machine
end

section
/-! The forms of the execute phase, said once of all 46 instructions, and what follows from them: where `ip` falls through
(40_engine.md R98), and the frame invariant (46_call_return.md R172). -/

namespace Sys2Proof.Machine

/-- What the execute phase of an instruction is. -/
inductive ExecForm (i : Instr) (s : State) : Prop where
  | regWrite (r : Reg) (v : Word) (h : exec i s = .next (s.setX r v)) (hr : destination i = some r ∨ r = .ac)
  | jump (rel : Rel) (v : Source) (adr : Word) (h : exec i s = .next (branch rel v adr s)) (hip : mayWriteIp i = true)
  | load (m : MemOperand) (rd : Reg) (h : exec i s = complete i.op s (loadWord m rd s)) (hr : destination i = some rd)
  | store (m : MemOperand) (v : Source) (h : exec i s = complete i.op s (storeWord m v s))
  | push (v : Word) (h : exec i s = complete i.op s (Machine.push v s))
  | pop (rd : Reg) (h : i = .pop rd)
  | call (target : Word) (h : i = .calLit target ∨ ∃ ra, i = .calReg ra ∧ target = s.x ra) (hip : mayWriteIp i = true)
  | ret (h : i = .ret)
  | halt (h : exec i s = .next (s.setStatus .halted))

theorem exec_form (i : Instr) (s : State) : ExecForm i s := by
  cases i with
  | movLitReg | movRegReg | incReg | decReg | lsfRegLit | lsfRegReg | rsfRegLit | rsfRegReg => exact .regWrite _ _ rfl (.inl rfl)
  | addRegReg | addLitReg | subLitReg | subRegLit | subRegReg | mulLitReg | mulRegReg | andRegLit | andRegReg | orRegLit
  | orRegReg | xorRegLit | xorRegReg | notReg => exact .regWrite _ _ rfl (.inr rfl)
  | jneLit | jneReg | jeqLit | jeqReg | jltLit | jltReg | jgtLit | jgtReg | jleLit | jleReg | jgeLit | jgeReg =>
    exact .jump _ _ _ rfl rfl
  | movMemReg | movRegPtrReg | movLitOffReg => exact .load _ _ rfl rfl
  | movRegMem | movLitMem => exact .store _ _ rfl
  | pshLit | pshReg => exact .push _ rfl
  | pop rd => exact .pop rd rfl
  | calLit adr => exact .call adr (.inl rfl) rfl
  | calReg ra => exact .call (s.x ra) (.inr ⟨ra, rfl, rfl⟩) rfl
  | ret => exact .ret rfl
  | hlt => exact .halt rfl

/-- An instruction answers the state its execute phase leaves, with the status as it ended. -/
theorem state_of_complete {o : Op} {s t : State} {r : Result Unit} (h : complete o s r = .next t) :
    ∃ v, t = r.state.setStatus v := by
  cases r with
  | done u t1 => cases h; exact ⟨t.status, rfl⟩
  | raised f t1 => cases h; exact ⟨_, rfl⟩

/-! ## What loads, stores, pushes and pops leave unchanged, however they end -/

/-- No register outside a list, and not the counter, has changed. -/
def SameCore (except : List Reg) (s t : State) : Prop := SameRegs except s t ∧ t.counter = s.counter

theorem loadWord_sameCore (m : MemOperand) (rd : Reg) (s : State) : SameCore [rd] s (loadWord m rd s).state := by
  rcases memRead_cases (m.address s) .two s with ⟨v, -, h⟩ | ⟨f, -, h⟩
  · rw [loadWord, h]
    exact ⟨sameRegs_after_setX s _ _ rd v, rfl⟩
  · rw [loadWord, h]
    exact ⟨fun _ _ => rfl, rfl⟩

theorem storeWord_sameCore (m : MemOperand) (v : Source) (s : State) : SameCore [] s (storeWord m v s).state := by
  rcases memWrite_cases (m.address s) .two (v.value s) s with ⟨u, -, h⟩ | ⟨f, -, h⟩ <;>
    (rw [storeWord, h]; exact ⟨fun _ _ => rfl, rfl⟩)

theorem push_sameRegs (v : Word) (s : State) : SameRegs [.sp] s (push v s).state := by
  rcases memWrite_cases (s.x .sp) .two v s with ⟨u, -, h⟩ | ⟨f, -, h⟩
  · rw [push, h]
    exact sameRegs_after_setX s _ _ .sp _
  · rw [push, h]
    exact fun _ _ => rfl

theorem pop_cases (s : State) :
    (∃ v t, pop s = .done v t ∧ t.x .sp = s.x .sp + 2 ∧ t.counter = s.counter - 2 ∧ SameRegs [.sp] s t) ∨
      ∃ f t, pop s = .raised f t ∧ SameRegs [.sp] s t := by
  cases h : (s.busRead (s.x .sp + 2) .two).result with
  | value v =>
    exact .inl ⟨v, _, pop_of_value h, State.x_setX_same s .sp _, rfl, fun r hr => State.x_setX_ne s _ (List.ne_of_not_mem_cons hr)⟩
  | fault f => exact .inr ⟨f, _, pop_of_fault h, fun r hr => State.x_setX_ne s _ (List.ne_of_not_mem_cons hr)⟩

/-! ## The fall-through -/

theorem destination_ne_ip {i : Instr} (h : mayWriteIp i = false) : destination i ≠ some .ip := by
  simp only [mayWriteIp, Bool.or_eq_false_iff, decide_eq_false_iff_not] at h
  exact h.1

/-- An instruction that cannot select another `ip` leaves it at the next instruction, where it faults too. -/
theorem exec_keeps_ip {i : Instr} {s t : State} (h : exec i s = .next t) (hip : mayWriteIp i = false) :
    t.x .ip = s.x .ip := by
  have hdest := destination_ne_ip hip
  cases exec_form i s with
  | regWrite r v hx hr =>
    rw [hx] at h
    cases h
    refine State.x_setX_ne s v fun heq => ?_
    subst heq
    rcases hr with hr | hr
    · exact hdest hr
    · cases hr
  | jump _ _ _ _ hjump | call _ _ hjump => rw [hip] at hjump; cases hjump
  | load m rd hx hr =>
    rw [hx] at h
    obtain ⟨v, rfl⟩ := state_of_complete h
    exact (loadWord_sameCore m rd s).1 .ip (by simpa using fun heq : .ip = rd => hdest (heq ▸ hr))
  | store m v hx =>
    rw [hx] at h
    obtain ⟨_, rfl⟩ := state_of_complete h
    exact (storeWord_sameCore m v s).1 .ip List.not_mem_nil
  | push v hx =>
    rw [hx] at h
    obtain ⟨_, rfl⟩ := state_of_complete h
    exact push_sameRegs v s .ip (by decide)
  | pop rd hi =>
    subst hi
    rw [exec_pop] at h
    obtain ⟨_, rfl⟩ := state_of_complete h
    rcases pop_cases s with ⟨v, t, hpop, -, -, hsame⟩ | ⟨f, t, hpop, hsame⟩
    · rw [Result.andThen_of_done hpop]
      exact (State.x_setX_ne t v fun heq => hdest (congrArg some heq.symm)).trans (hsame .ip (by decide))
    · rw [Result.andThen_of_raised hpop]
      exact hsame .ip (by decide)
  | ret hi => subst hi; cases hip
  | halt hx => rw [hx] at h; cases h; rfl

/-- Settles O22: the decode phase leaves `ip` after the instruction, and the execute phase does not write it. -/
theorem stepFallsThrough : Obligations.StepFallsThrough := by
  intro s s1 t i hs hfetch hstep hip
  rw [step_of_fetchInstr_done hs hfetch] at hstep
  rw [exec_keeps_ip hstep hip, fetchInstr_ip hfetch, BitVec.toNat_add, BitVec.toNat_ofNat]
  simp

/-! ## The frame invariant -/

/-- The frame invariant is about `sp`, `fp` and the counter alone. -/
theorem FrameInvariant.of_same {s t : State} (h : FrameInvariant s) (hsp : t.x .sp = s.x .sp) (hfp : t.x .fp = s.x .fp)
    (hcounter : t.counter = s.counter) : FrameInvariant t := by
  rw [FrameInvariant, hsp, hfp, hcounter]
  exact h

theorem SameCore.frameInvariant {except : List Reg} {s t : State} (h : SameCore except s t) (hs : FrameInvariant s)
    (hsp : .sp ∉ except) (hfp : .fp ∉ except) : FrameInvariant t :=
  hs.of_same (h.1 .sp hsp) (h.1 .fp hfp) h.2

/-- A push lowers `sp` as far as it raises the counter. -/
theorem push_frameInvariant {s t : State} {v : Word} (h : push v s = .done () t) (hs : FrameInvariant s) :
    FrameInvariant t := by
  obtain ⟨-, rfl⟩ := push_eq_done h
  rw [FrameInvariant, State.setCounter_counter, State.setCounter_x, State.setCounter_x, State.x_setX_same,
    State.x_setX_ne _ _ (by decide), State.after_x, hs]
  bv_omega

/-- A pop raises `sp` as far as it lowers the counter. -/
theorem pop_frameInvariant {s t : State} {v : Word} (h : pop s = .done v t) (hs : FrameInvariant s) : FrameInvariant t := by
  rcases pop_cases s with ⟨u, t1, hpop, hsp, hcounter, hsame⟩ | ⟨f, t1, hpop, -⟩
  · rw [hpop] at h
    cases h
    rw [FrameInvariant, hsp, hcounter, hsame .fp (by decide), hs]
    bv_omega
  · rw [hpop] at h; cases h

/-- A call establishes the invariant: the counter is cleared, and `fp` is the lowered `sp`. -/
theorem Called.frameInvariant {s t : State} {target : Word} (h : Called s target t) : FrameInvariant t := by
  obtain ⟨-, hsp, hfp, hcounter, -⟩ := h
  rw [FrameInvariant, hsp, hfp, hcounter]
  exact (BitVec.sub_self _).symm

/-- Every instruction that completes keeps the invariant, but for a return and a direct write of `sp` or `fp`. -/
theorem exec_keeps_frameInvariant {i : Instr} {s t : State} (h : exec i s = .next t) (hf : ∀ r, t.status ≠ .faulted r)
    (hs : FrameInvariant s) (hret : i ≠ .ret) (hsp : destination i ≠ some .sp) (hfp : destination i ≠ some .fp) :
    FrameInvariant t := by
  have hother : ∀ r q, q = .sp ∨ q = .fp → destination i = some r ∨ r = .ac → q ≠ r := by
    rintro r q (rfl | rfl) (hr | rfl) heq
    · exact hsp (heq ▸ hr)
    · cases heq
    · exact hfp (heq ▸ hr)
    · cases heq
  cases exec_form i s with
  | regWrite r v hx hr =>
    rw [hx] at h
    cases h
    exact hs.of_same (State.x_setX_ne s v (hother r _ (.inl rfl) hr)) (State.x_setX_ne s v (hother r _ (.inr rfl) hr)) rfl
  | jump rel v adr hx =>
    rw [hx] at h
    cases h
    obtain ⟨-, hregs, hcounter, -⟩ := branch_spec rel v adr s
    exact SameCore.frameInvariant ⟨hregs, hcounter⟩ hs (by decide) (by decide)
  | load m rd hx hr =>
    rw [hx] at h
    obtain ⟨_, rfl⟩ := state_of_complete h
    exact (loadWord_sameCore m rd s).frameInvariant hs (by simpa using hother rd _ (.inl rfl) (.inl hr))
      (by simpa using hother rd _ (.inr rfl) (.inl hr))
  | store m v hx =>
    rw [hx] at h
    obtain ⟨_, rfl⟩ := state_of_complete h
    exact (storeWord_sameCore m v s).frameInvariant hs List.not_mem_nil List.not_mem_nil
  | push v hx =>
    rw [hx] at h
    exact push_frameInvariant (eq_done_of_complete h hf) hs
  | pop rd hi =>
    subst hi
    rw [exec_pop] at h
    obtain ⟨v, t1, hpop, hdone⟩ := Result.andThen_eq_done.1 (eq_done_of_complete h hf)
    cases hdone
    exact (pop_frameInvariant hpop hs).of_same (State.x_setX_ne t1 v (hother rd _ (.inl rfl) (.inl rfl)))
      (State.x_setX_ne t1 v (hother rd _ (.inr rfl) (.inl rfl))) rfl
  | call target hi => exact (called_of_exec hi h hf).frameInvariant
  | ret hi => exact absurd hi hret
  | halt hx =>
    rw [hx] at h
    cases h
    exact hs

/-- Settles O47: the invariant is kept by each form of the execute phase, and a call establishes it. -/
theorem frameInvariantKept : Obligations.FrameInvariantKept := by
  rintro s t i h hf (⟨hs, hret, hsp, hfp⟩ | hcall)
  · exact exec_keeps_frameInvariant h hf hs hret hsp hfp
  · obtain ⟨target, hi⟩ := target_of_isCall s hcall
    exact (called_of_exec hi h hf).frameInvariant

end Sys2Proof.Machine
end

section
/-! The whole machine: what a step keeps of the platform, what it records, and that it never reads the record; and the reset
values (10_state.md R30, R33; 20_memory.md R67). -/

namespace Sys2Proof.Machine

/-! ## The form of the devices -/

/-- A device continues another: the same kind, a RAM device of the same size, a history with the former as its older part. -/
def Device.Continues : Device → Device → Prop
  | .ram n _, .ram m _ => m = n
  | .screen, .screen => True
  | .external hist, .external hist' => ∃ more, hist' = more ++ hist
  | _, _ => False

theorem Device.Continues.refl (d : Device) : d.Continues d := by
  cases d with
  | ram n b => exact rfl
  | screen => exact trivial
  | external hist => exact ⟨[], rfl⟩

theorem Device.Continues.trans {d e f : Device} (h1 : d.Continues e) (h2 : e.Continues f) : d.Continues f := by
  match d, e, f, h1, h2 with
  | .ram n b, .ram m c, .ram l d, h1, h2 => exact Eq.trans h2 h1
  | .screen, .screen, .screen, _, _ => exact trivial
  | .external _, .external _, .external _, ⟨more, h1⟩, ⟨more', h2⟩ =>
    exact ⟨more' ++ more, by rw [h2, h1, List.append_assoc]⟩

theorem Device.continues_read (h : Nat) (d : Device) (o : Word) (w : Width) : d.Continues (d.read h o w).2 := by
  cases d with
  | ram n b => rw [Device.read_ram_after]; exact .refl _
  | screen => rw [Device.read_screen]; exact .refl _
  | external hist => rw [Device.read_external]; exact ⟨[_], rfl⟩

theorem Device.continues_write (h : Nat) (d : Device) (o : Word) (w : Width) (v : Word) : d.Continues (d.write h o w v).2 := by
  cases d with
  | ram n b => cases w <;> (simp only [Device.write]; split <;> exact rfl)
  | screen => rw [Device.write_screen]; exact .refl _
  | external hist => rw [Device.write_external]; exact ⟨[_], rfl⟩

/-- One device replaced by one that continues it. -/
theorem continues_of_set {s t : State} {k : Nat} {d : Device} (hd : t.devices = s.devices.set k d)
    (hk : (s.device k).Continues d) (h : Nat) : (s.device h).Continues (t.device h) := by
  rw [State.device_eq t, hd, getD_set_devices]
  split
  · next heq => rw [heq.1]; exact hk
  · exact .refl _

theorem continues_of_devices_eq {s t : State} (hd : t.devices = s.devices) (h : Nat) :
    (s.device h).Continues (t.device h) := by
  rw [State.device_eq t, hd]
  exact .refl _

theorem Reaches.continues {s t : State} (hr : Reaches s t) (h : Nat) : (s.device h).Continues (t.device h) := by
  induction hr with
  | refl => exact .refl _
  | setX r v _ ih => exact ih
  | setCounter v _ ih => exact ih
  | @read t a w _ ih =>
    rcases t.busRead_devices a w with hd | ⟨k, o, hd⟩
    · exact ih.trans (continues_of_devices_eq hd h)
    · exact ih.trans (continues_of_set hd (Device.continues_read k _ o w) h)
  | @write t a v _ ih =>
    rcases t.busWrite_devices a .two v with hd | ⟨k, o, hd⟩
    · exact ih.trans (continues_of_devices_eq hd h)
    · exact ih.trans (continues_of_set hd (Device.continues_write k _ o .two v) h)

theorem Device.Continues.ram {n : Nat} {b : Memory} {d : Device} (h : (Device.ram n b).Continues d) : ∃ b', d = .ram n b' := by
  cases d with
  | ram m c => exact ⟨c, congrArg (Device.ram · c) h⟩
  | _ => exact h.elim

theorem Device.Continues.screen {d : Device} (h : Device.screen.Continues d) : d = .screen := by
  cases d with
  | screen => rfl
  | _ => exact h.elim

theorem Device.Continues.external {hist : List DeviceOp} {d : Device} (h : (Device.external hist).Continues d) :
    ∃ more, d = .external (more ++ hist) := by
  cases d with
  | external hist' => exact h.imp fun _ heq => congrArg Device.external heq
  | _ => exact h.elim

/-- Settles O51: a step is register and counter writes and transactions, and each device continues through them. -/
theorem stepKeepsPlatformAndParameters : Obligations.StepKeepsPlatformAndParameters := by
  intro s t h
  obtain ⟨u, v, hu, rfl⟩ := step_reaches h
  refine ⟨hu.samePlatform, hu.devices_length, fun k => ?_⟩
  have hk := hu.continues k
  refine ⟨fun n b hd => ?_, fun hd => ?_, fun hist hd => ?_⟩ <;> rw [hd] at hk
  · exact hk.ram
  · exact hk.screen
  · exact hk.external

/-! ## The record -/

/-- The events added from `s` to `t` hold no 8-bit write. -/
def AddsWideWrites (s t : State) : Prop :=
  ∃ evs : List Event, t.events = evs ++ s.events ∧ ∀ e ∈ evs, e.kind = .write → e.width = .two

theorem Reaches.addsWideWrites {s t : State} (h : Reaches s t) : AddsWideWrites s t := by
  induction h with
  | refl => exact ⟨[], rfl, by simp⟩
  | setX r v _ ih => exact ih
  | setCounter v _ ih => exact ih
  | @read t a w _ ih =>
    obtain ⟨evs, he, hwide⟩ := ih
    refine ⟨(t.busRead a w).event .read w a :: evs, by rw [State.after_events, he]; rfl, fun e hmem hkind => ?_⟩
    rcases List.mem_cons.1 hmem with rfl | hmem
    · cases hkind
    · exact hwide e hmem hkind
  | @write t a v _ ih =>
    obtain ⟨evs, he, hwide⟩ := ih
    refine ⟨(t.busWrite a .two v).event .write .two a :: evs, by rw [State.after_events, he]; rfl, fun e hmem hkind => ?_⟩
    rcases List.mem_cons.1 hmem with rfl | hmem
    · rfl
    · exact hwide e hmem hkind

/-- A part of an instruction reaches the state it leaves. -/
theorem Result.From.reaches {α : Type} {s : State} {r : Result α} (h : r.From s) : Reaches s r.state := by
  cases r with
  | done a t => exact h
  | raised f t => exact h.1

/-- A sequence goes on from the state its first part leaves. -/
theorem Result.reaches_andThen {α β : Type} (r : Result α) {k : α → State → Result β}
    (hk : ∀ a t, Reaches t (k a t).state) : Reaches r.state (r.andThen k).state := by
  cases r with
  | done a t => exact hk a t
  | raised f t => exact .refl

/-- The decode phase goes on from the opcode fetch. -/
theorem fetchInstr_reaches (s : State) : Reaches (fetch8 s).state (fetchInstr s).state := by
  refine (fetch8 s).reaches_andThen fun b t => ?_
  cases t.params.opcodeMap.assigned b with
  | none => exact .refl
  | some o =>
    refine (fetchFields_from o.format.fields t).reaches.trans (Result.reaches_andThen _ fun vs u => ?_)
    cases Instr.build o vs <;> exact .refl

/-- The opcode fetch is recorded as the 8-bit read at `ip`. -/
theorem fetch8_state_events (s : State) :
    (fetch8 s).state.events = (s.busRead (s.x .ip) .one).event .read .one (s.x .ip) :: s.events := by
  cases h : (s.busRead (s.x .ip) .one).result with
  | value v => rw [fetch8_of_value h]; rfl
  | fault f => rw [fetch8_of_fault h]; rfl

/-- A running core's step goes on from its opcode fetch. -/
theorem step_reaches_from_fetch8 {s t : State} (hs : s.status = .running) (h : step s = .next t) :
    ∃ u v, Reaches (fetch8 s).state u ∧ t = u.setStatus v := by
  have hfetch := fetchInstr_reaches s
  rcases step_cases h with ⟨hlatched, -⟩ | ⟨-, f, s1, hraised, -, -, rfl⟩ | ⟨-, i, s1, hdone, -, -, hends⟩
  · exact absurd hs hlatched
  · rw [hraised] at hfetch
    exact ⟨s1, _, hfetch, rfl⟩
  · rw [hdone] at hfetch
    obtain ⟨u, v, hu, rfl⟩ := hends.reaches
    exact ⟨u, v, Reaches.trans hfetch hu, rfl⟩

/-- The first event a running core's step adds is its opcode fetch. -/
theorem step_first_event {s t : State} {evs : List Event} (hs : s.status = .running) (h : step s = .next t)
    (he : t.events = evs ++ s.events) : evs.getLast? = some ((s.busRead (s.x .ip) .one).event .read .one (s.x .ip)) := by
  obtain ⟨u, v, hu, rfl⟩ := step_reaches_from_fetch8 hs h
  obtain ⟨more, hmore, -⟩ := hu.addsWideWrites
  rw [fetch8_state_events, List.append_cons] at hmore
  obtain rfl := List.append_cancel_right (he.symm.trans hmore)
  simp

/-- How many events a step adds whose instruction completes (46_call_return.md R165, R166). -/
theorem step_event_count {s s1 t : State} {i : Instr} {evs : List Event} (hfetch : fetchInstr s = .done i s1)
    (hexec : exec i s1 = .next t) (hf : ∀ r, t.status ≠ .faulted r) (he : t.events = evs ++ s.events) :
    ∃ n : Nat, evs.length = 1 + i.op.format.fields.length + dataTransactions i + n ∧ (i ≠ .ret → n = 0) ∧
      (i = .ret → ∃ e v, evs.reverse[11]? = some e ∧ e.result = .value v ∧ n = v.toNat) := by
  obtain ⟨e0, fields, hfields, hlen⟩ := fetchInstr_events hfetch
  obtain ⟨hother, hreturn⟩ := exec_events hexec hf
  by_cases hret : i = .ret
  · obtain ⟨e, v, more, first, hevents, hfirst, hvalue, hmore⟩ := hreturn hret
    subst hret
    obtain rfl : fields = [] := List.length_eq_zero_iff.1 hlen
    obtain rfl : evs = more ++ e :: (first ++ [e0]) := by
      refine List.append_cancel_right (he.symm.trans (hevents.trans ?_))
      rw [hfields]
      simp
    refine ⟨v.toNat, ?_, fun hne => absurd rfl hne, fun _ => ⟨e, v, ?_, hvalue, rfl⟩⟩
    · have hdata : dataTransactions .ret = 11 := rfl
      have hnone : (Instr.op .ret).format.fields.length = 0 := rfl
      simp only [List.length_append, List.length_cons, List.length_nil, hfirst, hmore, hdata, hnone]
      omega
    · simp [hfirst]
  · obtain ⟨data, hevents, hdata⟩ := hother hret
    obtain rfl : evs = data ++ (fields ++ [e0]) := by
      refine List.append_cancel_right (he.symm.trans (hevents.trans ?_))
      rw [hfields]
      simp
    refine ⟨0, ?_, fun _ => rfl, fun heq => absurd heq hret⟩
    simp only [List.length_append, List.length_cons, List.length_nil, hdata, hlen]
    omega

/-- Settles O55: the events of the transactions reached, the first of them the opcode fetch, counted where the instruction
completes. -/
theorem stepRecordsItsTransactions : Obligations.StepRecordsItsTransactions := by
  intro s t h
  obtain ⟨u, v, hu, rfl⟩ := step_reaches h
  obtain ⟨evs, he, hseen⟩ := hu.seenByDevices
  obtain ⟨evs', he', hwide⟩ := hu.addsWideWrites
  obtain rfl := List.append_cancel_right (he'.symm.trans he)
  refine ⟨evs', he, hwide, fun hs => ⟨_, step_first_event hs h he, rfl, rfl, rfl⟩, fun i s1 hs hfetch hf => ?_, hseen⟩
  rw [step_of_fetchInstr_done hs hfetch] at h
  exact step_event_count hfetch h hf he

/-! ## No step reads the record -/

/-- From `s` and from `s` with another record, an outcome function does the same and adds the same events. -/
def IgnoresRecord (run : State → Host.Outcome State Fault Refusal) (s : State) (es : List Event) : Prop :=
  ∀ t, run s = .next t → ∃ evs : List Event, t.events = evs ++ s.events ∧
    run { s with events := es } = .next { t with events := evs ++ es }

theorem ignoresRecord_of_complete {run : State → Host.Outcome State Fault Refusal} {o : Op} {r : State → Result Unit}
    {s : State} {es : List Event} (hrun : ∀ s, run s = complete o s (r s))
    (hr : Result.Parallel s es (r s) (r { s with events := es })) : IgnoresRecord run s es := by
  intro t h
  rw [hrun] at h
  simp only [hrun]
  cases hx : r s with
  | done u t1 =>
    rw [hx] at h hr
    obtain ⟨evs, he, hr'⟩ := hr
    cases h
    exact ⟨evs, he, by rw [hr']; rfl⟩
  | raised f t1 =>
    rw [hx] at h hr
    obtain ⟨evs, he, hr'⟩ := hr
    cases h
    exact ⟨evs, he, by rw [hr']; rfl⟩

theorem ignoresRecord_branch (rel : Rel) (v : Source) (adr : Word) (s : State) (es : List Event) :
    IgnoresRecord (fun s => .next (branch rel v adr s)) s es := by
  rintro _ ⟨⟩
  refine ⟨[], ?_, ?_⟩
  · unfold branch
    split <;> rfl
  · have hvalue : v.value { s with events := es } = v.value s := by cases v <;> rfl
    have hac : State.x { s with events := es } .ac = s.x .ac := rfl
    simp only [branch, hvalue, hac]
    split <;> rfl

theorem exec_ignoresRecord (i : Instr) (s : State) (es : List Event) : IgnoresRecord (exec i) s es := by
  cases i with
  | movRegMem | movLitMem => exact ignoresRecord_of_complete (fun _ => rfl) (storeWord_parallel _ _ s es)
  | movMemReg | movRegPtrReg | movLitOffReg => exact ignoresRecord_of_complete (fun _ => rfl) (loadWord_parallel _ _ s es)
  | pshLit lit => exact ignoresRecord_of_complete (fun _ => rfl) (push_parallel lit s es)
  | pshReg ra => exact ignoresRecord_of_complete (fun _ => rfl) (push_parallel (s.x ra) s es)
  | pop rd => exact ignoresRecord_of_complete (exec_pop rd) ((pop_parallel s es).andThen fun _ _ _ => ⟨[], rfl, rfl⟩)
  | calLit adr =>
    exact ignoresRecord_of_complete (fun _ => rfl) ((pushState_parallel s es).andThen fun _ _ _ => ⟨[], rfl, rfl⟩)
  | calReg ra =>
    exact ignoresRecord_of_complete (fun _ => rfl) ((pushState_parallel s es).andThen fun _ _ _ => ⟨[], rfl, rfl⟩)
  | ret => exact ignoresRecord_of_complete exec_ret (popState_parallel s es)
  | jneLit | jneReg | jeqLit | jeqReg | jltLit | jltReg | jgtLit | jgtReg | jleLit | jleReg | jgeLit | jgeReg =>
    exact ignoresRecord_branch _ _ _ s es
  | _ => rintro _ ⟨⟩; exact ⟨[], rfl, rfl⟩

/-- Settles O56: neither phase of the step reads the record, and a latched core's step does nothing. -/
theorem noStepReadsTheEventRecord : Obligations.NoStepReadsTheEventRecord := by
  intro s t es h
  have hparallel := fetchInstr_parallel s es
  rcases step_cases h with ⟨hlatched, rfl⟩ | ⟨hs, f, s1, hraised, -, -, rfl⟩ | ⟨hs, i, s1, hdone, -, hexec, -⟩
  · exact ⟨[], rfl, (latchedCoreTakesNoStep { t with events := es } hlatched).1⟩
  · rw [hraised] at hparallel
    obtain ⟨evs, he, hraised'⟩ := hparallel
    exact ⟨evs, he, step_of_fetchInstr_raised (s := { s with events := es }) hs hraised'⟩
  · rw [hdone] at hparallel
    obtain ⟨fetches, hfetches, hdone'⟩ := hparallel
    obtain ⟨evs, he, hexec'⟩ := exec_ignoresRecord i s1 (fetches ++ es) t hexec
    refine ⟨evs ++ fetches, by rw [he, hfetches, List.append_assoc], ?_⟩
    rw [step_of_fetchInstr_done (s := { s with events := es }) hs hdone', hexec', List.append_assoc]

/-! ## Reset -/

theorem reset_x (r : Reg) : State.reset.x r = if r = .sp ∨ r = .fp then 0xFFFE else 0x0000 := by cases r <;> decide

/-- No byte of the RAM of reset is listed, and no other device holds bytes (10_state.md R33). -/
theorem reset_ramByte (h o : Nat) : State.reset.ramByte h o = 0x00 := by
  match h with
  | 0 | 1 | _ + 2 => rfl

/-- Settles O57: the fields of reset are read off, and `resetCore` writes registers, counter and status alone. -/
theorem resetValues : Obligations.ResetValues :=
  ⟨reset_x, rfl, rfl, rfl, rfl, reset_ramByte, rfl, rfl, rfl, fun _ => ⟨fun _ => rfl, rfl, rfl, ⟨rfl, rfl, rfl⟩, rfl⟩⟩

end Sys2Proof.Machine
end
